-- ==== Sys2Proof/Word.lean ====
section
/-! DEFINITION. The value types of the core (spec/00_scope.md rule R8: a byte is 8 bits; every 32-bit
value is unsigned and wraps modulo 2^32, rule R9; the command word has 16 bits, spec/30_encoding.md
rule R62). All three are bit vectors, so that shifts and exclusive or wrap by their type (rule R170). -/

namespace Sys2Proof

/-- A byte (rule R8). -/
abbrev Byte := BitVec 8

/-- A 32-bit unsigned value, always operated on modulo 2^32 (rules R8, R9). -/
abbrev Word := BitVec 32

/-- The 16-bit command word F-CMD: `op` in bits 15 to 8, `imm8` in bits 7 to 0 (rule R62). -/
abbrev CmdWord := BitVec 16

end Sys2Proof
end

