-- ==== Sys2Proof/Syntax.lean ====
section
/-! DEFINITION. The ten operations of spec/opcode_table.json (spec/30_encoding.md rule R66), one
constructor each. An operation's word carries at most the byte `imm8` (rules R62, R69): every other
operand travels in registers and buffers (rule R67), so only CRC.LOAD and CRC.BYTE have an argument. -/

namespace Sys2Proof

/-- An operation of the core: the four host operations, then the six engine micro-operations. -/
inductive Instr where
  /-- CRC: checksum of `SRC` (rule R85). -/
  | crc
  /-- PATCH: write the checksum of `ART[0,252)` into `ART[252,256)` (rule R99). -/
  | patch
  /-- ENCBLK: build one UF2 block (rule R110). -/
  | encblk
  /-- ASSEMBLE: build the container of `SRC` into `DST` (rule R127). -/
  | assemble
  /-- CRC.SEED (rule R79). -/
  | crcSeed
  /-- CRC.LOAD b (rule R80). -/
  | crcLoad (b : Byte)
  /-- CRC.BIT (rule R81). -/
  | crcBit
  /-- CRC.BYTE b (rule R82). -/
  | crcByte (b : Byte)
  /-- CRC.SER (rule R83). -/
  | crcSer
  /-- CRC.RUN buf, off, n (rule R84); its three operands are not in its word. -/
  | crcRun
  deriving DecidableEq, Repr

/-- Who may issue an operation: the "Level" column of rule R66. -/
inductive Level where
  /-- Accepted at the command port. -/
  | host
  /-- Issued to the CRC engine by the core's sequencer only (decision D25). -/
  | micro
  deriving DecidableEq, Repr

/-- The level of each operation (rule R66). -/
def Instr.level : Instr → Level
  | .crc => .host
  | .patch => .host
  | .encblk => .host
  | .assemble => .host
  | .crcSeed => .micro
  | .crcLoad _ => .micro
  | .crcBit => .micro
  | .crcByte _ => .micro
  | .crcSer => .micro
  | .crcRun => .micro

end Sys2Proof
end

