-- ==== Sys2Proof/WellFormed.lean ====
section
/-! DEFINITION. Which operation may be issued where. The operands an operation's word can carry are
bounded by their types, so the one check left is the level: the command port accepts the four host
operations and nothing else, and the engine's issue line carries micro-operations and nothing else
(spec/30_encoding.md rules R66, R68; decision D25). -/

namespace Sys2Proof

/-- The two ways a word reaches the core. -/
inductive Port where
  /-- The host's command port (rule R75). -/
  | command
  /-- The line on which the sequencer issues micro-operations to the CRC engine (rule R66). -/
  | issue
  deriving DecidableEq, Repr

/-- The level of operation a port carries. -/
def Port.level : Port → Level
  | .command => .host
  | .issue => .micro

/-- `i` may be issued at port `p`. -/
def Instr.wellFormed (p : Port) (i : Instr) : Bool := decide (i.level = p.level)

end Sys2Proof
end

