-- ==== Sys2Proof/Decode.lean ====
section
/-! DEFINITION. Decoding and encoding of the 16-bit command word (spec/30_encoding.md rules R62, R66,
R68, R69, R75). Decoding is total at each port; a word that selects no operation there is rejected by
name. The micro-operation words are those of spec/95_test_vectors.md, "Micro-operation words as the
sequencer issues them". -/

namespace Sys2Proof

/-- Why a word selects no operation at a port. -/
inductive DecodeError where
  /-- `op` is one of the reserved codes 0x00, 0x05 to 0x0F, 0x16 to 0xFF (rule R68). -/
  | reservedOp (op : Byte)
  /-- `op` is a micro-operation's code, presented at the command port (rule R68). -/
  | microFromHost (op : Byte)
  /-- `op` is a host operation's code, on the engine's issue line (decision D25). -/
  | hostOnIssueLine (op : Byte)
  /-- `imm8` is not zero in an operation that has no immediate (rule R69). -/
  | immNotZero (imm : Byte)
  deriving DecidableEq, Repr

/-- What decoding answers: one operation, or the name of the reason why there is none. -/
inductive Decoded where
  | op (i : Instr)
  | illegal (e : DecodeError)
  deriving DecidableEq, Repr

/-- The operation decoded, if there is one. -/
def Decoded.toOption : Decoded → Option Instr
  | .op i => some i
  | .illegal _ => none

/-- `op`, bits 15 to 8 of a command word (rule R62). -/
def opField (c : CmdWord) : Byte := c.extractLsb' 8 8

/-- `imm8`, bits 7 to 0 of a command word (rule R62). -/
def immField (c : CmdWord) : Byte := c.extractLsb' 0 8

/-- `op` is one of 0x01 to 0x04 (rule R66). -/
def isHostCode (op : Byte) : Bool := decide (0x01 ≤ op ∧ op ≤ 0x04)

/-- `op` is one of 0x10 to 0x15 (rule R66). -/
def isMicroCode (op : Byte) : Bool := decide (0x10 ≤ op ∧ op ≤ 0x15)

/-- `i`, provided `imm8` is zero (rule R69). -/
def withoutImm (c : CmdWord) (i : Instr) : Decoded :=
  if immField c = 0 then .op i else .illegal (.immNotZero (immField c))

/-- Decoding at the command port (rule R75). -/
def decodeCommand (c : CmdWord) : Decoded :=
  if opField c = 0x01 then withoutImm c .crc
  else if opField c = 0x02 then withoutImm c .patch
  else if opField c = 0x03 then withoutImm c .encblk
  else if opField c = 0x04 then withoutImm c .assemble
  else if isMicroCode (opField c) then .illegal (.microFromHost (opField c))
  else .illegal (.reservedOp (opField c))

/-- Decoding on the engine's issue line: the micro-operations of rule R66. -/
def decodeIssue (c : CmdWord) : Decoded :=
  if opField c = 0x10 then withoutImm c .crcSeed
  else if opField c = 0x11 then .op (.crcLoad (immField c))
  else if opField c = 0x12 then withoutImm c .crcBit
  else if opField c = 0x13 then .op (.crcByte (immField c))
  else if opField c = 0x14 then withoutImm c .crcSer
  else if opField c = 0x15 then withoutImm c .crcRun
  else if isHostCode (opField c) then .illegal (.hostOnIssueLine (opField c))
  else .illegal (.reservedOp (opField c))

/-- Decoding at a port. -/
def decodeAt : Port → CmdWord → Decoded
  | .command => decodeCommand
  | .issue => decodeIssue

/-- The port a word belongs to, by its code: a micro-operation's code to the issue line, every other
code to the command port. -/
def portOf (c : CmdWord) : Port := if isMicroCode (opField c) then .issue else .command

/-! ### The encoder -/

/-- The operation code of rule R66. -/
def Instr.opCode : Instr → Byte
  | .crc => 0x01
  | .patch => 0x02
  | .encblk => 0x03
  | .assemble => 0x04
  | .crcSeed => 0x10
  | .crcLoad _ => 0x11
  | .crcBit => 0x12
  | .crcByte _ => 0x13
  | .crcSer => 0x14
  | .crcRun => 0x15

/-- The `imm8` of rule R66. -/
def Instr.imm : Instr → Byte
  | .crcLoad b => b
  | .crcByte b => b
  | .crc | .patch | .encblk | .assemble | .crcSeed | .crcBit | .crcSer | .crcRun => 0

/-- The word of an operation: `{op, imm8}` (rule R62). -/
def encode (i : Instr) : CmdWord := (i.opCode ++ i.imm : BitVec (8 + 8))

/-! ### The table's view -/

/-- The instruction the decoder reads from a word of the opcode table: every row has 16 bits, one
command word; a word narrower than that has zeros above. A command word is presented whole, so it has
no byte order of its own (rule R44). -/
def decodeTableWord (nbits w : Nat) : Option Instr :=
  if nbits ≤ 16 then
    let c : CmdWord := BitVec.ofNat 16 (w % 2 ^ nbits)
    (decodeAt (portOf c) c).toOption
  else none

end Sys2Proof
end

