-- ==== Sys2Proof/Config.lean ====
section
/-! DEFINITION. The constants the spec fixes (spec/00_scope.md rule R6), the parameters it leaves open
(rule R7), and the free values: what the core's registers hold where spec/93_implementation_defined.md
U10 says "any value". The constants CRC_REFIN, CRC_REFOUT (false) and CRC_XOROUT (0) of rule R6 are the
absence of a reflection and of a final XOR: no definition of the model performs either; CRC_WIDTH is the
width of `Word`. -/

namespace Sys2Proof.Config

/-! ### Fixed constants (rule R6) -/

/-- `CRC_POLY`, the generator polynomial's low 32 coefficients. -/
def crcPoly : Word := 0x04C11DB7

/-- `CRC_INIT`, the seed of every checksum request. -/
def crcInit : Word := 0xFFFFFFFF

/-- `BITS_PER_BYTE`, bit steps per input byte. -/
def bitsPerByte : Nat := 8

/-- `CRC_OUT_LEN`, bytes of a serialised checksum. -/
def crcOutLen : Nat := 4

/-- `BOOT_MIN_LEN`, least length of a boot image. -/
def bootMinLen : Nat := 256

/-- `BOOT_COVER_LEN`: the checksum covers bytes [0,252). -/
def bootCoverLen : Nat := 252

/-- `BOOT_CRC_OFF`: the checksum occupies bytes [252,256). -/
def bootCrcOff : Nat := 252

/-- `UF2_BLOCK_LEN`, bytes of one block. -/
def uf2BlockLen : Nat := 512

/-- `UF2_DATA_OFF`, offset of the data region in a block. -/
def uf2DataOff : Nat := 32

/-- `UF2_DATA_LEN`, bytes of the data region. -/
def uf2DataLen : Nat := 476

/-- `UF2_END_OFF`, offset of the end marker. -/
def uf2EndOff : Nat := 508

/-- `UF2_CHUNK_MAX`, most payload bytes per block, and the address stride between blocks. -/
def uf2ChunkMax : Nat := 256

/-- `UF2_PAYLOAD_SIZE`, the literal in the payload-size field of every block. -/
def uf2PayloadSize : Word := 256

/-- `UF2_MAGIC_START0`. -/
def uf2MagicStart0 : Word := 0x0A324655

/-- `UF2_MAGIC_START1`. -/
def uf2MagicStart1 : Word := 0x9E5D5157

/-- `UF2_FLAGS`, "family-ID-present". -/
def uf2Flags : Word := 0x00002000

/-- `UF2_MAGIC_END`. -/
def uf2MagicEnd : Word := 0x0AB16F30

/-! ### Open parameters (rule R7) -/

/-- `FAMILY_ID`: the spec names it and gives no value (decision D20). Log entry 1. -/
opaque familyId : Word

/-- `FLASH_BASE`: no value given (D21); no operation reads it, the host passes it as `BASE`. Log entry 1. -/
opaque flashBase : Word

/-- `MAX_LEN`, "a natural number; may be unbounded" (D22): `none` is no bound. Log entry 1. -/
opaque maxLen : Option Nat

/-- `IO_CAN_FAIL` (D11): whether an access to a host buffer can fail at all. Log entry 1. -/
opaque ioCanFail : Bool

/-! ### Free values: the registers between operations (U10, rules R29, R147; conflict C6). Log entry 2.

The first argument is the model's counter `State.freeCount`, so that each end of an operation has
values of its own; the second says which register or byte. -/

/-- What a 32-bit register holds after an operation ended. -/
opaque freeWord : Nat → Nat → Word

/-- What `N` holds after an operation ended: a value from 0 to 8 (rule R15 bounds it). -/
opaque freeBitCount : Nat → Fin 9

/-- What a byte of `CK`, `BLK` or `CHUNK` holds after an operation ended. -/
opaque freeByte : Nat → Nat → Byte

/-- What an index register (`I`, `J`) or the length `CLEN` holds after an operation ended. -/
opaque freeIndex : Nat → Nat → Nat

/-- The code `RESULT` carries after a reset in the middle of an operation, less one: that operation faults
(decision D7, U13), and no row of rule R138 gives the code; it is not 0, the code of `ok`. Log entry 11. -/
opaque resetFaultCode : Nat

/-! ### A convention of the model -/

/-- What a byte of a buffer reads as when the memory lists no cell for it: DESIGN CHOICE, log entry 3. -/
def unlistedByte : Byte := 0x00

end Sys2Proof.Config
end

