-- ==== Sys2Proof/Machine/State.lean ====
section
/-! DEFINITION. The state of the core (spec/10_state.md rule R15), the host's buffers (spec/20_memory.md
rule R35), the outcome of an operation (spec/60_exceptions.md rule R138), the host's inputs (rule R13),
the reasons a step can stop, and the state after reset (spec/10_state.md rule R29). -/

namespace Sys2Proof.Machine

/-! ### Enumerations of rules R15 and R22 -/

/-- `OP`: the operation in progress (rule R22). -/
inductive Operation where
  | idle | crc | patch | encblk | assemble
  deriving DecidableEq, Repr

/-- `PHASE`: the sequencer's phase within an operation (rule R22). -/
inductive Phase where
  | check | seed | load | bit | ser | pack | commit | done
  deriving DecidableEq, Repr

/-- The host-owned buffers (rule R35). -/
inductive BufferId where
  | art | src | dst
  deriving DecidableEq, Repr

/-- What was being done to a buffer when an access failed (rule R138, "read or write"). -/
inductive Access where
  | read | write
  deriving DecidableEq, Repr

/-- The operand registers a host writes before an operation (rule R21). -/
inductive Operand where
  | chunk | taddr | blkno | nblk | base
  deriving DecidableEq, Repr

/-! ### The core's own faults and results -/

/-- A fault of the core (rule R138), with the "info recorded" of its row. It is no stop of the machine:
taking it is a next state (rule R147, `takeFault`). -/
inductive OpFault where
  /-- Code 1, raised by PATCH: `len(ART)` below 256 (rule R139). -/
  | bootImageTooShort (len : Nat)
  /-- Code 2, raised by ENCBLK: `CLEN` above 256 (rule R140). -/
  | chunkTooLarge (clen : Nat)
  /-- Code 3, raised by CRC, PATCH and ASSEMBLE: an access to a host buffer failed (rule R141). -/
  | ioFailure (buf : BufferId) (access : Access)
  /-- Code 4, raised by command decode (rule R142). -/
  | illegalOp (c : CmdWord)
  /-- Code 5, raised by ASSEMBLE: an address or the count does not fit 32 bits (rule R143). -/
  | rangeOverflow (base : Word) (len : Nat)
  /-- A reset while an operation is in progress, which "faults with nothing committed" (decision D7; rules R30,
  R161; U13). The spec gives it no code: a free one (log entry 11). -/
  | resetDuringOperation
  deriving DecidableEq, Repr

/-- The value of an `ok` result (rules R11, R67). PATCH and ASSEMBLE return `ok` alone: their output
stands in `ART` and `DST`. -/
inductive OkValue where
  /-- `ok` with no value: PATCH, ASSEMBLE, and `RESULT` after a reset of an idle core (rule R29). -/
  | noValue
  /-- The four bytes of CRC. -/
  | checksum (ck : List Byte)
  /-- The 512 bytes of ENCBLK. -/
  | block (blk : List Byte)
  deriving DecidableEq, Repr

/-- `RESULT` (rules R11, R24). -/
inductive OpResult where
  | ok (v : OkValue)
  | fault (f : OpFault)
  deriving DecidableEq, Repr

/-! ### Memory -/

/-- One byte-addressed buffer with its explicit length (rules R35, R36): the address space 0 to
`len - 1`. `cells` lists, by rising address, the bytes that differ from `Config.unlistedByte`; the
form is `Memory.wf`. -/
structure Memory where
  len : Nat
  cells : List Host.Cell
  deriving DecidableEq, Repr

/-! ### The host's inputs (rules R13, R40, R164) -/

/-- The three operands `buf, off, n` of CRC.RUN (rule R84), which its word does not carry. The model's
own: log entry 7. That a freely issued CRC.RUN may name any of the three buffers, `DST` and any range of `ART`
among them, which rules R35, R37 and R39 say no host operation reads, is a DESIGN CHOICE of that entry: rule
R84 says only "a buffer". -/
structure RunOperands where
  buf : BufferId
  off : Nat
  len : Nat
  deriving DecidableEq, Repr

/-- What a host may write between operations (rules R21, R40, R164). -/
inductive HostWrite where
  /-- `CHUNK` with its explicit length. -/
  | chunk (bs : List Byte)
  | taddr (v : Word)
  | blkno (v : Word)
  | nblk (v : Word)
  | base (v : Word)
  /-- `BASE <- FLASH_BASE`, the host's duty for a flash-targeted image (rule R164 duty 4). -/
  | baseFlash
  /-- Present a buffer with its explicit length (rule R164 duty 1). -/
  | buffer (b : BufferId) (bs : List Byte)
  /-- Copy one buffer to another (rule R40). -/
  | copy (source target : BufferId)
  /-- The operands of a CRC.RUN to be issued freely (log entry 7). -/
  | range (run : RunOperands)
  deriving DecidableEq, Repr

/-- One thing the outside does to the core. The machine reads them in order from `State.inputs`, one a
step, between two steps of the core. Log entry 5. -/
inductive Input where
  /-- Nothing: the core goes on by one step. -/
  | wait
  /-- The host waits until the core is idle (rule R164 duties 7 and 9). -/
  | await
  /-- Present a command word; the operation runs as one big step (rule R12). -/
  | present (c : CmdWord)
  /-- Present a command word; the sequencer runs the operation micro-operation by micro-operation. -/
  | presentStepped (c : CmdWord)
  /-- Issue one micro-operation to the idle CRC engine ("a model that allows free issue", rule R81). -/
  | issue (c : CmdWord)
  /-- The host writes an operand register or a buffer. -/
  | write (a : HostWrite)
  /-- The host reads a buffer. -/
  | read (b : BufferId)
  /-- Reset (rules R29, R161). -/
  | reset
  deriving DecidableEq, Repr

/-! ### Fields of the model's own -/

/-- Which operand registers the host has ever written: whether it has met its duty 2 (rule R164). Nothing takes
a mark away again, and no operation reads one: an operand never written is read as its register holds it. The
model's own: log entry 6. -/
structure Written where
  chunk : Bool
  taddr : Bool
  blkno : Bool
  nblk : Bool
  base : Bool
  deriving DecidableEq, Repr

/-! ### State -/

/-- The whole state: rule R15's registers under their own names, the host's buffers of rule R35, then
the model's own fields. `CLEN` is the length of `chunk` (rule R15 holds the two as one "byte sequence
with its explicit length"); `State.clen` reads it. -/
structure State where
  /-- `R`, the CrcRegister (rule R17). -/
  r : Word
  /-- `N`, bit steps still to do for the current byte, 0 to 8 (rule R19). -/
  n : BitVec 4
  /-- `W`, the current input byte, left-aligned, shifting left (rule R18). -/
  w : Word
  /-- `CK[0..3]`, the serialised checksum (rule R20). -/
  ck : List Byte
  /-- `TADDR` (rule R21). -/
  taddr : Word
  /-- `BLKNO` (rule R21). -/
  blkno : Word
  /-- `NBLK` (rule R21). -/
  nblk : Word
  /-- `BASE` (rule R21). -/
  base : Word
  /-- `CHUNK`, with `CLEN` as its length (rules R15, R21). -/
  chunk : List Byte
  /-- `BLK[0..511]` (rule R21). -/
  blk : List Byte
  /-- `OP` (rule R22). -/
  op : Operation
  /-- `PHASE` (rule R22). -/
  phase : Phase
  /-- `I`, index of the next byte to feed the CRC engine (rule R22). -/
  i : Nat
  /-- `J`, index of the next chunk of ASSEMBLE (rule R22). -/
  j : Nat
  /-- `STAGE`, output not yet committed (rules R15, R26). -/
  stage : List Byte
  /-- `RESULT` (rules R15, R24). -/
  result : OpResult
  /-- `ART`, the host's boot-image artifact (rule R35). -/
  art : Memory
  /-- `SRC`, the host's input (rule R35). -/
  src : Memory
  /-- `DST`, the host's output container (rule R35). -/
  dst : Memory
  /-- The model's own: which operand registers the host has ever written (log entry 6). -/
  written : Written
  /-- The model's own: the operands of CRC.RUN (log entry 7). -/
  run : RunOperands
  /-- The model's own: what the outside will do next, first first (log entry 5). -/
  inputs : List Input
  /-- The model's own: the answers to the coming accesses to host buffers, `true` for "fails"
  (rules R27, R141; log entry 4). -/
  ioDraws : List Bool
  /-- The model's own: counts the ends of operations, so that each has its own free values (log entry 2). -/
  freeCount : Nat
  deriving DecidableEq, Repr

/-! ### Stops -/

/-- A stop of the machine by an access to a place that does not exist. -/
inductive Fault where
  /-- Raised by the sequencer's read of a byte that does not lie in its buffer: rule R36 says no operation
  performs such an access, and no state that a run reaches has it. Safe. -/
  | bufferOverrun (buf : BufferId) (off len : Nat)
  deriving DecidableEq, Repr

/-- A stop where the spec gives no meaning (rule R159, decision D30). -/
inductive Refusal where
  /-- An instruction with no meaning in the model yet: raised by an arm of `exec` only. Safe. -/
  | notModelled (mnemonic : String)
  /-- Raised by CRC.BIT with `N = 0`: "a model that allows free issue must refuse that case" (rule R81). Safe. -/
  | bitWithoutByte
  /-- Raised by CRC.RUN on a range that leaves its buffer: rule R84 requires `off + n <= len(buf)`, and what
  the spec gives no meaning is refused (decision D30). Only a freely issued CRC.RUN meets it. Safe. -/
  | rangeOutsideBuffer (buf : BufferId) (off len : Nat)
  /-- Raised by the host port: the host touches a buffer or an operand register while an operation is
  in progress (rules R40, R159, U12). Safe. -/
  | accessDuringOperation
  /-- Raised by the host port: a second operation presented while one is in progress (rule R164 duty 7). Safe. -/
  | presentedWhileBusy
  /-- Raised by the host port: a free issue while the sequencer owns the engine (decision D25). Safe. -/
  | issuedWhileBusy
  /-- Raised by the host port: a free issue of a word that is no micro-operation (rule R66). Safe. -/
  | noMicroOperation (c : CmdWord)
  /-- Raised by the sequencer in a phase its operation does not have (rules R22, R74). No state that a
  run reaches has it. Safe. -/
  | phaseOutOfSequence (op : Operation) (phase : Phase)
  deriving DecidableEq, Repr

/-! ### Answers of the shared operations -/

/-- How a part of an operation ended: it goes on, or a fault was taken and this is the state after it. -/
inductive Attempt where
  | going (s : State)
  | ended (s : State)

/-- What an operation's precondition says before anything is read or written (rule R146). -/
inductive Verdict where
  | pass
  | raise (f : OpFault)
  deriving DecidableEq, Repr

/-! ### Reset -/

/-- The operands of CRC.RUN when nothing has set them: no bytes. -/
def RunOperands.none : RunOperands := { buf := .src, off := 0, len := 0 }

/-- An empty buffer. -/
def Memory.empty : Memory := { len := 0, cells := [] }

/-- The state after reset (rule R29): `OP = idle`, `N = 0`, `STAGE` empty, `RESULT = ok` with no value.
Every other register is "unspecified" there; the model names zero for each (log entry 8). The host's
buffers are "whatever the host holds": the model starts them empty (log entry 9). No input is pending. -/
def State.reset : State where
  r := 0
  w := 0
  n := 0
  ck := List.replicate Config.crcOutLen 0
  taddr := 0
  blkno := 0
  nblk := 0
  base := 0
  chunk := []
  blk := List.replicate Config.uf2BlockLen 0
  op := .idle
  phase := .check
  i := 0
  j := 0
  stage := []
  result := .ok .noValue
  art := .empty
  src := .empty
  dst := .empty
  written := { chunk := false, taddr := false, blkno := false, nblk := false, base := false }
  run := .none
  inputs := []
  ioDraws := []
  freeCount := 0

end Sys2Proof.Machine
end

