-- ==== Sys2Proof/Machine/Ops.lean ====
section
/-! DEFINITION. The named operations over memory and registers: byte order (spec/20_memory.md rule R41),
buffers (rules R35, R36), access failures (spec/60_exceptions.md rule R141), and the end of an operation:
taking a fault (rule R147) and delivering `ok`. -/

namespace Sys2Proof.Machine

/-! ### Byte sequences (spec/00_scope.md rule R10) -/

/-- `le32(v)`: four bytes, least significant first (rule R41). -/
def le32 (v : Word) : List Byte :=
  [v.extractLsb' 0 8, v.extractLsb' 8 8, v.extractLsb' 16 8, v.extractLsb' 24 8]

/-- `zeros(n)`. -/
def zeros (n : Nat) : List Byte := List.replicate n 0x00

/-- Byte sequence `old` with the bytes from offset `a` on replaced by `bs`; no other byte changes, nor
does the length where `a + len bs <= len old`. -/
def splice (a : Nat) (bs old : List Byte) : List Byte :=
  old.take a ++ bs ++ old.drop (a + bs.length)

/-! ### Memory -/

/-- The byte the cells list for address `a`, or the one an unlisted address reads as. -/
def Memory.lookup (a : Nat) : List Host.Cell → Byte
  | [] => Config.unlistedByte
  | c :: cs => if c.1 = a then c.2 else Memory.lookup a cs

/-- The cells of bytes `bs` that stand from address `a` on: those that differ from the unlisted byte. -/
def Memory.cellsOf (a : Nat) : List Byte → List Host.Cell
  | [] => []
  | b :: bs =>
    if b = Config.unlistedByte then Memory.cellsOf (a + 1) bs else (a, b) :: Memory.cellsOf (a + 1) bs

/-- The buffer that holds exactly the bytes `bs`. -/
def Memory.ofBytes (bs : List Byte) : Memory := { len := bs.length, cells := Memory.cellsOf 0 bs }

/-- The byte at offset `a`: none beyond the explicit length (rule R36). -/
def Memory.read (m : Memory) (a : Nat) : Option Byte :=
  if a < m.len then some (Memory.lookup a m.cells) else none

/-- All bytes of the buffer in rising offset. -/
def Memory.bytes (m : Memory) : List Byte := (List.range m.len).map fun a => Memory.lookup a m.cells

/-- The bytes of a byte range, where it lies in the buffer: `MemRead(S, a, n)` "requires a+n <= len(S)". -/
def Memory.slice (m : Memory) (a n : Nat) : Option (List Byte) :=
  if a + n ≤ m.len then some ((m.bytes.drop a).take n) else none

/-- `MemWrite(S, a, n, bs)`: the bytes at `a` become `bs`, the length stays (rule R36). A write that
would leave the buffer is not performed. -/
def Memory.write (m : Memory) (a : Nat) (bs : List Byte) : Memory :=
  if a + bs.length ≤ m.len then Memory.ofBytes (splice a bs m.bytes) else m

/-- Addresses strictly rising from `lo`, all below `hi`, no cell equal to an unlisted one. -/
def Memory.cellsWf (lo hi : Nat) : List Host.Cell → Bool
  | [] => true
  | c :: cs =>
    decide (lo ≤ c.1) && decide (c.1 < hi) && decide (c.2 ≠ Config.unlistedByte) && Memory.cellsWf (c.1 + 1) hi cs

/-- The buffer is in its one canonical form. -/
def Memory.wf (m : Memory) : Bool := Memory.cellsWf 0 m.len m.cells

/-! ### Buffers of the state -/

/-- The buffer a name stands for. -/
def State.buffer (s : State) : BufferId → Memory
  | .art => s.art
  | .src => s.src
  | .dst => s.dst

/-- The state with one buffer replaced. -/
def State.setBuffer (s : State) (b : BufferId) (m : Memory) : State :=
  match b with
  | .art => { s with art := m }
  | .src => { s with src := m }
  | .dst => { s with dst := m }

/-! ### Access failures (rule R141) -/

/-- Whether the coming access to a host buffer fails: the next answer is "fails", on a platform whose
buffers can fail. With no answer left the access succeeds (log entry 4). -/
def State.accessFails (s : State) : Bool := s.ioDraws.headD false && Config.ioCanFail

/-- The state once the coming access has had its answer. -/
def State.afterAccess (s : State) : State := { s with ioDraws := s.ioDraws.tail }

/-! ### The end of an operation -/

/-- The code `RESULT` carries: 0 for `ok`, else rule R138's; for a reset in the middle of an operation, to
which that rule gives none, a free one (log entry 11). -/
def OpResult.code : OpResult → Nat
  | .ok _ => 0
  | .fault (.bootImageTooShort _) => 1
  | .fault (.chunkTooLarge _) => 2
  | .fault (.ioFailure _ _) => 3
  | .fault (.illegalOp _) => 4
  | .fault (.rangeOverflow _ _) => 5
  | .fault .resetDuringOperation => Config.resetFaultCode + 1

/-- `len` free bytes for the end of operation number `count`, from index `start` on. -/
def freeBytes (count start len : Nat) : List Byte :=
  (List.range len).map fun k => Config.freeByte count (start + k)

/-- A free byte sequence of free length, for `CHUNK` with `CLEN` at the end of operation number `count`. -/
def freeChunk (count : Nat) : List Byte :=
  freeBytes count (Config.crcOutLen + Config.uf2BlockLen) (Config.freeIndex count 2)

/-- The operations whose phases are those of CRC.RUN: CRC and PATCH (rule R74). -/
def Operation.runsEngine : Operation → Bool
  | .crc => true
  | .patch => true
  | .idle => false
  | .encblk => false
  | .assemble => false

/-- Whether an operation takes an operand register for itself: as an operand the host wrote for it (rule
R67), or as one ASSEMBLE's sequencer writes (rule R127). The register's value lasts for that one operation
(rule R15, "lifetime"). -/
def Operation.uses : Operation → Operand → Bool
  | .encblk, .base => false
  | .encblk, .chunk | .encblk, .taddr | .encblk, .blkno | .encblk, .nblk => true
  | .assemble, _ => true
  | .idle, _ => false
  | .crc, _ => false
  | .patch, _ => false

/-- An operation ends, by `ok` or by fault: `RESULT` is delivered, `OP` is idle, `STAGE` is empty (rules
R22, R147, R171). From here to the next operation `R`, `W`, `N`, `CK`, `BLK`, `I`, `J` hold "any value,
and unobservable" (U10; rule R147; conflict C6): free values, new ones at each end (log entry 2). So do
the operand registers the operation took: "No state of rule R15 carries information from one operation to
the next" (rule R28; log entry 14). The marks of the host's writes stay, and a later operation that takes such
an operand before the host has written it anew runs on the free value (log entry 6). -/
def finish (res : OpResult) (s : State) : State :=
  { s with
    r := Config.freeWord s.freeCount 0
    w := Config.freeWord s.freeCount 1
    n := BitVec.ofNat 4 (Config.freeBitCount s.freeCount).val
    ck := freeBytes s.freeCount 0 Config.crcOutLen
    taddr := if s.op.uses .taddr then Config.freeWord s.freeCount 2 else s.taddr
    blkno := if s.op.uses .blkno then Config.freeWord s.freeCount 3 else s.blkno
    nblk := if s.op.uses .nblk then Config.freeWord s.freeCount 4 else s.nblk
    base := if s.op.uses .base then Config.freeWord s.freeCount 5 else s.base
    chunk := if s.op.uses .chunk then freeChunk s.freeCount else s.chunk
    blk := freeBytes s.freeCount Config.crcOutLen Config.uf2BlockLen
    i := Config.freeIndex s.freeCount 0
    j := Config.freeIndex s.freeCount 1
    op := .idle
    phase := .done
    stage := []
    result := res
    run := if s.op.runsEngine then .none else s.run
    freeCount := s.freeCount + 1 }

/-- Fault entry (rule R147): the operation stops at once, `STAGE` is discarded, nothing is committed,
`RESULT <- fault(code)`, `OP <- idle`. There is no vector, no saved state and no return (rule R150): the
core is idle and takes the next operation. -/
def takeFault (f : OpFault) (s : State) : State := finish (.fault f) s

/-- An operation's `ok` end (rule R11). -/
def complete (v : OkValue) (s : State) : State := finish (.ok v) s

/-! ### Running parts of an operation one after the other -/

/-- Go on with `k` unless a fault ended the operation. -/
def Attempt.thenNext (a : Attempt) (k : State → State) : Host.Outcome State Fault Refusal :=
  match a with
  | .going s => .next (k s)
  | .ended s => .next s

/-- Act on a precondition's verdict: a raised fault is taken at once, before any access (rule R146). -/
def Verdict.thenRun (v : Verdict) (s : State) (k : State → Host.Outcome State Fault Refusal) :
    Host.Outcome State Fault Refusal :=
  match v with
  | .pass => k s
  | .raise f => .next (takeFault f s)

end Sys2Proof.Machine
end

