-- ==== Sys2Proof/Machine/Operands.lean ====
section
/-! DEFINITION. The operands of the operations (spec/30_encoding.md rule R67): which operand registers the
host has to write (spec/70_reset_and_hazards.md rule R164 duty 2), the byte range of CRC.RUN
(spec/40_crc_engine.md rule R84), the chunks and the block metadata of ASSEMBLE
(spec/43_uf2_file_assembler.md rules R123 to R126), and each operation's precondition (rule R146). -/

namespace Sys2Proof.Machine

/-- `CLEN`, the explicit length of `CHUNK` (rule R15). -/
def State.clen (s : State) : Nat := s.chunk.length

/-! ### Operands the host has to write (rule R164 duty 2): read by no operation, log entry 6 -/

/-- Whether the host has ever written an operand register. -/
def Written.get (m : Written) : Operand → Bool
  | .chunk => m.chunk
  | .taddr => m.taddr
  | .blkno => m.blkno
  | .nblk => m.nblk
  | .base => m.base

/-- The first of the listed operands that was never written. -/
def Written.missing (m : Written) (needed : List Operand) : Option Operand :=
  needed.find? fun o => !m.get o

/-- The operand registers ENCBLK reads (rule R108). -/
def encblkOperands : List Operand := [.chunk, .taddr, .blkno, .nblk]

/-- The operand registers ASSEMBLE reads (rule R122). -/
def assembleOperands : List Operand := [.base]

/-! ### The range of CRC.RUN (rule R84) -/

/-- `SRC, 0, len(SRC)`: the range CRC issues CRC.RUN with. -/
def crcRange (s : State) : RunOperands := { buf := .src, off := 0, len := s.src.len }

/-- `ART, 0, 252`: the range PATCH issues CRC.RUN with. -/
def patchRange : RunOperands := { buf := .art, off := 0, len := Config.bootCoverLen }

/-- The bytes of the range in `run`; none where it leaves the buffer. -/
def State.runBytes (s : State) : Option (List Byte) := (s.buffer s.run.buf).slice s.run.off s.run.len

/-! ### Chunks of ASSEMBLE -/

/-- `num_blocks = (S + 255) div 256` (rule R123). -/
def blockCount (size : Nat) : Nat := (size + 255) / Config.uf2ChunkMax

/-- `CLEN` of chunk `k`: `min(256, S - 256*k)` (rule R127). -/
def chunkLen (size k : Nat) : Nat := min Config.uf2ChunkMax (size - Config.uf2ChunkMax * k)

/-- Chunk `k` of a byte sequence: its bytes from `256*k` on, `CLEN` of them (rules R124, R127). -/
def chunkBytes (data : List Byte) (k : Nat) : List Byte :=
  (data.drop (Config.uf2ChunkMax * k)).take (chunkLen data.length k)

/-- `BASE + 256*k`, as the 32-bit number a block holds (rule R125); exact where `rangeOverflows` is false. -/
def blockAddress (base : Word) (k : Nat) : Word :=
  BitVec.ofNat 32 (base.toNat + Config.uf2ChunkMax * k)

/-- An address or the count does not fit 32 bits; sums on natural numbers (rule R126). -/
def rangeOverflows (base : Word) (size : Nat) : Bool :=
  decide (blockCount size > 0xFFFFFFFF) ||
    (decide (blockCount size > 0) &&
      decide (base.toNat + Config.uf2ChunkMax * (blockCount size - 1) > 0xFFFFFFFF))

/-! ### Preconditions (rule R146: tested before any buffer byte is read and before any write) -/

/-- PATCH: `len(ART)` at least 256 (rule R100). -/
def checkPatch (s : State) : Verdict :=
  if s.art.len < Config.bootMinLen then .raise (.bootImageTooShort s.art.len) else .pass

/-- ENCBLK: `CLEN <= 256` (rule R109). An operand the host never wrote is read as its register holds it (log
entry 6). -/
def checkEncblk (s : State) : Verdict :=
  if s.clen > Config.uf2ChunkMax then .raise (.chunkTooLarge s.clen) else .pass

/-- ASSEMBLE: the 32-bit range (rule R126). A `BASE` the host never wrote is read as the register holds it (log
entry 6). -/
def checkAssemble (s : State) : Verdict :=
  if rangeOverflows s.base s.src.len then .raise (.rangeOverflow s.base s.src.len) else .pass

end Sys2Proof.Machine
end

