-- ==== Sys2Proof/Machine/Formatter.lean ====
section
/-! DEFINITION. The UF2 block formatter ENCBLK (spec/42_uf2_block_formatter.md rules R107 to R119). -/

namespace Sys2Proof.Machine

/-- The eleven writes of rule R110 in its order, each an offset in `BLK` and the bytes written there. The
payload size is the literal 256 whatever `CLEN` is (rule R112), the eighth word is the family id
(conflict C1), and no metadata is checked (rule R115). -/
def blockWrites (s : State) : List (Nat × List Byte) :=
  [(0, le32 Config.uf2MagicStart0),
   (4, le32 Config.uf2MagicStart1),
   (8, le32 Config.uf2Flags),
   (12, le32 s.taddr),
   (16, le32 Config.uf2PayloadSize),
   (20, le32 s.blkno),
   (24, le32 s.nblk),
   (28, le32 Config.familyId),
   (Config.uf2DataOff, s.chunk),
   (Config.uf2DataOff + s.clen, zeros (Config.uf2DataLen - s.clen)),
   (Config.uf2EndOff, le32 Config.uf2MagicEnd)]

/-- `BLK` after a list of writes. -/
def writeAll (ws : List (Nat × List Byte)) (blk : List Byte) : List Byte :=
  ws.foldl (fun acc x => splice x.1 x.2 acc) blk

/-- The body of ENCBLK: the eleven writes into `BLK`, "and nothing else" (rule R110). -/
def packBlock (s : State) : State := { s with blk := writeAll (blockWrites s) s.blk }

/-- The `ok` of ENCBLK: `return BLK[0..511]` (rule R110). -/
def deliverEncblk (s : State) : State := complete (.block s.blk) s

/-- ENCBLK: precondition, then the block (rule R110). It touches no host buffer, so no access can fail. -/
def execEncblk (s : State) : Host.Outcome State Fault Refusal :=
  (checkEncblk s).thenRun { s with op := .encblk } fun t => .next (deliverEncblk (packBlock t))

end Sys2Proof.Machine
end

