-- ==== Sys2Proof/Machine/Assembler.lean ====
section
/-! DEFINITION. The UF2 file assembler ASSEMBLE (spec/43_uf2_file_assembler.md rules R121 to R136). -/

namespace Sys2Proof.Machine

/-- The body of rule R127's loop once chunk `J` has been read: the operands of ENCBLK, ENCBLK's block,
appended to `STAGE`; then the next chunk. The operand registers are the sequencer's during ASSEMBLE (rule
R21); the marks of the host's writes are not touched. -/
def packChunk (s : State) : State :=
  let t := packBlock
    { s with
      chunk := chunkBytes s.src.bytes s.j
      taddr := blockAddress s.base s.j
      blkno := BitVec.ofNat 32 s.j
      nblk := BitVec.ofNat 32 (blockCount s.src.len) }
  { t with stage := t.stage ++ t.blk, j := t.j + 1 }

/-- Chunk `J`: `MemRead(SRC, 256*J, CLEN)`, which may fail, then the block (rule R127). -/
def stepChunk (s : State) : Attempt :=
  if s.accessFails then .ended (takeFault (.ioFailure .src .read) s.afterAccess)
  else .going (packChunk s.afterAccess)

/-- The loop of rule R127 over `k` more chunks. -/
def packChunks : Nat → State → Attempt
  | 0, s => .going s
  | k + 1, s =>
    match stepChunk s with
    | .going t => packChunks k t
    | .ended t => .ended t

/-- The commit of ASSEMBLE: `DST <- STAGE` whole, in one step, or `IOFailure` and `DST` as the host left
it (rules R127, R134). -/
def commitAssemble (s : State) : Attempt :=
  if s.accessFails then .ended (takeFault (.ioFailure .dst .write) s.afterAccess)
  else .going { s.afterAccess with dst := Memory.ofBytes s.stage }

/-- The `ok` of ASSEMBLE carries no value: its output is `DST` (rule R67). -/
def deliverAssemble (s : State) : State := complete .noValue s

/-- ASSEMBLE src, base -> dst: range check, one block for each chunk in order, commit (rule R127). -/
def execAssemble (s : State) : Host.Outcome State Fault Refusal :=
  (checkAssemble s).thenRun { s with op := .assemble, stage := [], j := 0 } fun t =>
    match packChunks (blockCount t.src.len) t with
    | .going u => (commitAssemble u).thenNext deliverAssemble
    | .ended u => .next u

end Sys2Proof.Machine
end

