-- ==== Sys2Proof/Machine/Flags.lean ====
section
/-! DEFINITION. Flags. The core has none that is stored (spec/10_state.md rule R23): the one condition
it tests is the feedback bit of the CRC engine, combinational within a bit step
(spec/40_crc_engine.md rule R78). -/

namespace Sys2Proof.Machine

/-- `t = (R XOR W)[31]`, "the top bit of (R XOR W)", from the values before the step's shifts (rule R78). -/
def feedback (r w : Word) : Bool := (r ^^^ w).getLsbD 31

end Sys2Proof.Machine
end

