-- ==== Sys2Proof/Machine/Engine.lean ====
section
/-! DEFINITION. The CRC32 checksum generator: the six micro-operations (spec/40_crc_engine.md rules R79
to R84). Each has one operation on the state, which its meaning, the composites and the sequencer share. -/

namespace Sys2Proof.Machine

/-! ### The engine's registers -/

/-- `zext_32(b) << 24`, written as what it is: `W[31:24] = b`, `W[23:0] = 0` (rules R64, R80). -/
def loadWord (b : Byte) : Word := (b ++ (0 : BitVec 24) : BitVec (8 + 24))

/-- `R` after one bit step: shifted left within 32 bits, then the polynomial XORed in where the feedback
bit was set (rule R81). -/
def bitStep (r w : Word) : Word :=
  if feedback r w then (r <<< 1) ^^^ Config.crcPoly else r <<< 1

/-- CRC.SEED (rule R79). -/
def engineSeed (s : State) : State := { s with r := Config.crcInit }

/-- CRC.LOAD b (rule R80). -/
def engineLoad (b : Byte) (s : State) : State := { s with w := loadWord b, n := 8 }

/-- CRC.BIT (rule R81), for `N > 0`. -/
def engineBit (s : State) : State :=
  { s with r := bitStep s.r s.w, w := s.w <<< 1, n := s.n - 1 }

/-- CRC.BIT, `k` times. -/
def engineBits : Nat → State → State
  | 0, s => s
  | k + 1, s => engineBits k (engineBit s)

/-- CRC.BYTE b: CRC.LOAD b, then CRC.BIT 8 times (rule R82). -/
def engineByte (b : Byte) (s : State) : State := engineBits Config.bitsPerByte (engineLoad b s)

/-- CRC.SER: `CK <- le32(R)` (rule R83). -/
def engineSer (s : State) : State := { s with ck := le32 s.r }

/-- The loop of CRC.RUN: one `MemRead` and one CRC.BYTE for each byte in rising order; the first failing
read raises `IOFailure` (rule R84). -/
def feedBytes (b : BufferId) : List Byte → State → Attempt
  | [], s => .going s
  | x :: xs, s =>
    if s.accessFails then .ended (takeFault (.ioFailure b .read) s.afterAccess)
    else
      let t := engineByte x s.afterAccess
      feedBytes b xs { t with i := t.i + 1 }

/-- CRC.RUN on the range in `run`, then `k` (rule R84). A range that leaves its buffer has no meaning, and
nothing of it is accessed (rule R36, decision D30). Issued freely the range may be of any buffer, `DST` too:
the model's choice (log entry 7); the ranges CRC and PATCH set are of `SRC` and `ART[0,252)` alone. -/
def crcRunThen (k : State → Host.Outcome State Fault Refusal) (s : State) :
    Host.Outcome State Fault Refusal :=
  match s.runBytes with
  | none => .refused (.rangeOutsideBuffer s.run.buf s.run.off s.run.len)
  | some bs =>
    match feedBytes s.run.buf bs { engineSeed s with i := 0 } with
    | .going t => k (engineSer t)
    | .ended t => .next t

/-! ### The meanings -/

/-- CRC.SEED: `R <- 0xFFFFFFFF`; reads nothing (rule R79). -/
def execCrcSeed (s : State) : Host.Outcome State Fault Refusal := .next (engineSeed s)

/-- CRC.LOAD b: `W <- zext_32(b) << 24`, `N <- 8` (rule R80). -/
def execCrcLoad (b : Byte) (s : State) : Host.Outcome State Fault Refusal := .next (engineLoad b s)

/-- CRC.BIT: one bit step; with `N = 0` "a model that allows free issue must refuse that case" (rule R81). -/
def execCrcBit (s : State) : Host.Outcome State Fault Refusal :=
  if s.n = 0 then .refused .bitWithoutByte else .next (engineBit s)

/-- CRC.BYTE b: the composite of rule R82. -/
def execCrcByte (b : Byte) (s : State) : Host.Outcome State Fault Refusal := .next (engineByte b s)

/-- CRC.SER: serialise `R` into `CK`, least significant byte first (rule R83). -/
def execCrcSer (s : State) : Host.Outcome State Fault Refusal := .next (engineSer s)

/-- CRC.RUN buf, off, n: the composite of rule R84, on the operands in `run`. -/
def execCrcRun (s : State) : Host.Outcome State Fault Refusal := crcRunThen .next s

end Sys2Proof.Machine
end

