-- ==== Sys2Proof/Machine/Checksum.lean ====
section
/-! DEFINITION. The host operation CRC (spec/40_crc_engine.md rules R85, R86). -/

namespace Sys2Proof.Machine

/-- The commit of CRC: `return CK[0..3]` (rule R85). -/
def deliverCrc (s : State) : State := complete (.checksum s.ck) s

/-- CRC src: CRC.RUN over all of `SRC`, then `ok` with the four bytes (rule R85). No precondition. -/
def execCrc (s : State) : Host.Outcome State Fault Refusal :=
  crcRunThen (fun t => .next (deliverCrc t)) { s with op := .crc, run := crcRange s }

end Sys2Proof.Machine
end

