-- ==== Sys2Proof/Machine/Patcher.lean ====
section
/-! DEFINITION. The boot-image patcher PATCH (spec/41_boot_image_patcher.md rules R97 to R106). -/

namespace Sys2Proof.Machine

/-- The commit of PATCH: `STAGE <- CK`, then the four bytes of `ART[252,256)` in one step, or
`IOFailure` and `ART` as before (rules R99, R101, R104). -/
def commitPatch (s : State) : Attempt :=
  let t := { s with stage := s.ck }
  if t.accessFails then .ended (takeFault (.ioFailure .art .write) t.afterAccess)
  else .going { t.afterAccess with art := t.art.write Config.bootCrcOff t.stage }

/-- The `ok` of PATCH carries no value: its output is `ART` (rule R67). -/
def deliverPatch (s : State) : State := complete .noValue s

/-- PATCH art: length check, CRC.RUN over `ART[0,252)`, commit (rule R99). -/
def execPatch (s : State) : Host.Outcome State Fault Refusal :=
  (checkPatch s).thenRun { s with op := .patch } fun t =>
    crcRunThen (fun u => (commitPatch u).thenNext deliverPatch) { t with run := patchRange }

end Sys2Proof.Machine
end

