-- ==== Sys2Proof/Machine/Dispatch.lean ====
section
/-! DEFINITION. One arm for each operation of the opcode table, each one direct call of its meaning. -/

namespace Sys2Proof.Machine

def exec (i : Instr) (s : State) : Host.Outcome State Fault Refusal :=
  match i with
  | .crc => Sys2Proof.Machine.execCrc s
  | .patch => Sys2Proof.Machine.execPatch s
  | .encblk => Sys2Proof.Machine.execEncblk s
  | .assemble => Sys2Proof.Machine.execAssemble s
  | .crcSeed => Sys2Proof.Machine.execCrcSeed s
  | .crcLoad b => Sys2Proof.Machine.execCrcLoad b s
  | .crcBit => Sys2Proof.Machine.execCrcBit s
  | .crcByte b => Sys2Proof.Machine.execCrcByte b s
  | .crcSer => Sys2Proof.Machine.execCrcSer s
  | .crcRun => Sys2Proof.Machine.execCrcRun s

end Sys2Proof.Machine
end

