-- ==== Sys2Proof/Machine/Sequencer.lean ====
section
/-! DEFINITION. The sequencer: a host operation run micro-operation by micro-operation, one step for each
phase (spec/10_state.md rule R22; spec/40_crc_engine.md rule R84; spec/41_boot_image_patcher.md rule R105;
spec/43_uf2_file_assembler.md rule R136). Each phase uses the same shared operation as the big step. -/

namespace Sys2Proof.Machine

/-- The value of `OP` while a host operation runs (rule R22). -/
def operationOf : Instr → Operation
  | .crc => .crc
  | .patch => .patch
  | .encblk => .encblk
  | .assemble => .assemble
  | .crcSeed | .crcLoad _ | .crcBit | .crcByte _ | .crcSer | .crcRun => .idle

/-- A host operation is accepted: the sequencer's position at its start (rule R22), with no byte in
progress and nothing staged (log entry 13). -/
def accept (i : Instr) (s : State) : State :=
  { s with op := operationOf i, phase := .check, i := 0, j := 0, n := 0, stage := [] }

/-- The phase after CRC.SEED or after a byte: the next byte's CRC.LOAD, or CRC.SER (rule R84). -/
def afterByte (s : State) : Phase := if s.i < s.run.len then .load else .ser

/-- `check`: the operation's precondition (rule R146). -/
def seqCheck (s : State) : Host.Outcome State Fault Refusal :=
  match s.op with
  | .idle => .next s
  | .crc => .next { s with run := crcRange s, i := 0, phase := .seed }
  | .patch => (checkPatch s).thenRun s fun t => .next { t with run := patchRange, i := 0, phase := .seed }
  | .encblk => (checkEncblk s).thenRun s fun t => .next { t with phase := .pack }
  | .assemble => (checkAssemble s).thenRun s fun t =>
      .next { t with stage := [], j := 0, phase := if blockCount t.src.len = 0 then .commit else .pack }

/-- `seed`: CRC.SEED. -/
def seqSeed (s : State) : Host.Outcome State Fault Refusal :=
  let t := engineSeed s
  .next { t with phase := afterByte t }

/-- `load`: `MemRead(buf, off + I, 1)` and CRC.LOAD of that byte (rule R84). -/
def seqLoad (s : State) : Host.Outcome State Fault Refusal :=
  match (s.buffer s.run.buf).read (s.run.off + s.i) with
  | none => .fault (.bufferOverrun s.run.buf (s.run.off + s.i) 1)
  | some b =>
    if s.accessFails then .next (takeFault (.ioFailure s.run.buf .read) s.afterAccess)
    else .next { engineLoad b s.afterAccess with phase := .bit }

/-- `bit`: CRC.BIT; with the last bit step of a byte, `I` moves on (rule R22). -/
def seqBit (s : State) : Host.Outcome State Fault Refusal :=
  if s.n = 0 then .refused .bitWithoutByte
  else
    let t := engineBit s
    if t.n = 0 then
      let u := { t with i := t.i + 1 }
      .next { u with phase := afterByte u }
    else .next t

/-- `ser`: CRC.SER. -/
def seqSer (s : State) : Host.Outcome State Fault Refusal := .next { engineSer s with phase := .commit }

/-- `pack`: the block of ENCBLK, or one chunk of ASSEMBLE and its block (rule R136). -/
def seqPack (s : State) : Host.Outcome State Fault Refusal :=
  match s.op with
  | .encblk => .next { packBlock s with phase := .commit }
  | .assemble =>
    (stepChunk s).thenNext fun t =>
      { t with phase := if t.j < blockCount t.src.len then .pack else .commit }
  | .idle => .refused (.phaseOutOfSequence .idle .pack)
  | .crc => .refused (.phaseOutOfSequence .crc .pack)
  | .patch => .refused (.phaseOutOfSequence .patch .pack)

/-- `commit`: the one step in which the output becomes visible, to the host's buffers and in `RESULT`
(rules R101, R134; rule R14, "commit"). With it the operation is over: `PHASE` is `done` and `OP` idle (rule
R22), so that an operation still in progress has committed nothing (rules R30, R161). CRC and ENCBLK have no
host buffer to write. -/
def seqCommit (s : State) : Host.Outcome State Fault Refusal :=
  match s.op with
  | .idle => .refused (.phaseOutOfSequence .idle .commit)
  | .crc => .next (deliverCrc s)
  | .patch => (commitPatch s).thenNext deliverPatch
  | .encblk => .next (deliverEncblk s)
  | .assemble => (commitAssemble s).thenNext deliverAssemble

/-- An engine phase, for an operation that has it. -/
def enginePhase (s : State) (k : State → Host.Outcome State Fault Refusal) :
    Host.Outcome State Fault Refusal :=
  if s.op.runsEngine then k s else .refused (.phaseOutOfSequence s.op s.phase)

/-- One step of the sequencer while an operation is in progress. -/
def sequencerStep (s : State) : Host.Outcome State Fault Refusal :=
  match s.phase with
  | .check => seqCheck s
  | .seed => enginePhase s seqSeed
  | .load => enginePhase s seqLoad
  | .bit => enginePhase s seqBit
  | .ser => enginePhase s seqSer
  | .pack => seqPack s
  | .commit => seqCommit s
  | .done => .refused (.phaseOutOfSequence s.op .done)

/-- One step of the core with no input: it waits for the host where it is idle (rule R161), else the
sequencer goes on. -/
def advance (s : State) : Host.Outcome State Fault Refusal :=
  if s.op = .idle then .next s else sequencerStep s

end Sys2Proof.Machine
end

