-- ==== Sys2Proof/Machine/HostPort.lean ====
section
/-! DEFINITION. What the core does with each input (spec/00_scope.md rule R13): the command port
(spec/30_encoding.md rule R75), the engine's issue line (rule R66), the host's writes between operations
(spec/20_memory.md rule R40), and reset (spec/10_state.md rules R29, R30). -/

namespace Sys2Proof.Machine

/-! ### The host's writes (rules R21, R40, R164) -/

/-- The effect of a host's write on an idle core. -/
def hostWrite (a : HostWrite) (s : State) : State :=
  match a with
  | .chunk bs => { s with chunk := bs, written := { s.written with chunk := true } }
  | .taddr v => { s with taddr := v, written := { s.written with taddr := true } }
  | .blkno v => { s with blkno := v, written := { s.written with blkno := true } }
  | .nblk v => { s with nblk := v, written := { s.written with nblk := true } }
  | .base v => { s with base := v, written := { s.written with base := true } }
  | .baseFlash => { s with base := Config.flashBase, written := { s.written with base := true } }
  | .buffer b bs => s.setBuffer b (Memory.ofBytes bs)
  | .copy source target => s.setBuffer target (s.buffer source)
  | .range run => { s with run := run }

/-! ### Reset (rules R29, R30, R161, R162) -/

/-- A reset. In the middle of an operation it is a fault of that operation, with nothing committed (decision D7;
rules R30, R161; log entry 11). Of an idle core it "changes no result" (rule R30): the operand registers, the
marks of the host's writes and the operands of CRC.RUN stay, so that the next operation runs as it would have
without it (log entry 8), and `RESULT` is `ok` with no value. Either way the core's other registers go to their
reset values (rule R29); the host's buffers, its coming inputs and the coming answers of its buffers are not
the core's and stay (rule R162). -/
def resetCore (s : State) : State :=
  let t := if s.op = .idle then { s with result := .ok .noValue } else takeFault .resetDuringOperation s
  { t with
    r := State.reset.r
    n := State.reset.n
    w := State.reset.w
    ck := State.reset.ck
    blk := State.reset.blk
    op := State.reset.op
    phase := State.reset.phase
    i := State.reset.i
    j := State.reset.j
    stage := State.reset.stage }

/-! ### The two ports -/

/-- A command word at the command port of an idle core: decode (rule R75), then the operation as one big
step. A word that selects no host operation raises `IllegalOp` before anything else (rules R142, R146). -/
def runCommand (c : CmdWord) (s : State) : Host.Outcome State Fault Refusal :=
  match decodeCommand c with
  | .op i => exec i s
  | .illegal _ => .next (takeFault (.illegalOp c) s)

/-- The same word with the operation left to the sequencer. -/
def startCommand (c : CmdWord) (s : State) : Host.Outcome State Fault Refusal :=
  match decodeCommand c with
  | .op i => .next (accept i s)
  | .illegal _ => .next (takeFault (.illegalOp c) s)

/-- One micro-operation issued freely to the idle engine. The issue "does not pass through this decoder"
(rule R75) of the command port; a word that is no micro-operation has no meaning there. -/
def runIssue (c : CmdWord) (s : State) : Host.Outcome State Fault Refusal :=
  match decodeIssue c with
  | .op i => exec i s
  | .illegal _ => .refused (.noMicroOperation c)

/-! ### Inputs -/

/-- What the host may do only while the core is idle (log entry 15). -/
def whenIdle (s : State) (otherwise : Refusal) (k : State → Host.Outcome State Fault Refusal) :
    Host.Outcome State Fault Refusal :=
  if s.op = .idle then k s else .refused otherwise

/-- The step in which input `x` comes, with `rest` the inputs after it. -/
def serve (x : Input) (rest : List Input) (s : State) : Host.Outcome State Fault Refusal :=
  let t := { s with inputs := rest }
  match x with
  | .wait => advance t
  | .await => if s.op = .idle then .next t else sequencerStep s
  | .present c => whenIdle t .presentedWhileBusy (runCommand c)
  | .presentStepped c => whenIdle t .presentedWhileBusy (startCommand c)
  | .issue c => whenIdle t .issuedWhileBusy (runIssue c)
  | .write a => whenIdle t .accessDuringOperation fun u => .next (hostWrite a u)
  | .read _ => whenIdle t .accessDuringOperation .next
  | .reset => .next (resetCore t)

/-! ### Presenting one word from outside -/

/-- `N` as CRC.BIT requires it: a byte in progress (rule R81). -/
def bitsFor (i : Instr) (n : BitVec 4) : BitVec 4 :=
  match i with
  | .crcBit => if n = 0 then 8 else n
  | .crc | .patch | .encblk | .assemble | .crcSeed | .crcLoad _ | .crcByte _ | .crcSer | .crcRun => n

/-- An idle core whose next input is the word `c`, with what the operation needs to be issued at all: for CRC.BIT
a byte in progress (log entry 10). -/
def presentWord (c : CmdWord) (s : State) : State :=
  let t :=
    match decodeAt (portOf c) c with
    | .op i => { s with n := bitsFor i s.n }
    | .illegal _ => s
  match portOf c with
  | .command => { t with op := .idle, inputs := .present c :: t.inputs }
  | .issue => { t with op := .idle, inputs := .issue c :: t.inputs }

end Sys2Proof.Machine
end

