-- ==== Sys2Proof/Machine/Reference.lean ====
section
/-! DEFINITION. The four operations as functions of their inputs, the spec's second description of each
(spec/00_scope.md rule R12; spec/INDEX.md: "the big-step functions of rules R85, R99, R110 and R127").
The machine does not use them: claims compare the machine with them. -/

namespace Sys2Proof.Machine

/-- `R` after `k` bit steps from `R = r`, `W = w` (rule R81). -/
def bitSteps : Nat → Word → Word → Word
  | 0, r, _ => r
  | k + 1, r, w => bitSteps k (bitStep r w) (w <<< 1)

/-- `step_byte(R, b)`, "the effect of CRC.BYTE on R" (rule R84). -/
def stepByte (r : Word) (b : Byte) : Word := bitSteps Config.bitsPerByte r (loadWord b)

/-- The register after the engine has run over `bs` from `R = r`: the fold of rule R84. -/
def crcFrom (r : Word) (bs : List Byte) : Word := bs.foldl stepByte r

/-- `R_final(bs)`: the fold from the seed (rules R84, R92). -/
def crcRegister (bs : List Byte) : Word := crcFrom Config.crcInit bs

/-- `crc(data)`, four bytes (rules R77, R85). -/
def checksum (bs : List Byte) : List Byte := le32 (crcRegister bs)

/-- `T(x)` (rule R90). -/
def tableEntry (x : Byte) : Word := bitSteps Config.bitsPerByte (loadWord x) 0

/-- The artifact after PATCH (rule R99), for at least 256 bytes. -/
def patched (art : List Byte) : List Byte :=
  splice Config.bootCrcOff (checksum (art.take Config.bootCoverLen)) art

/-- The UF2 block as the concatenation of rule R110, with the family id as an argument. -/
def uf2Block (family : Word) (chunk : List Byte) (taddr blkno nblk : Word) : List Byte :=
  le32 Config.uf2MagicStart0 ++ le32 Config.uf2MagicStart1 ++ le32 Config.uf2Flags ++ le32 taddr ++
    le32 Config.uf2PayloadSize ++ le32 blkno ++ le32 nblk ++ le32 family ++ chunk ++
    zeros (Config.uf2DataLen - chunk.length) ++ le32 Config.uf2MagicEnd

/-- Block `k` of the container of `data` at `base` (rules R124, R125). -/
def containerBlock (family base : Word) (data : List Byte) (k : Nat) : List Byte :=
  uf2Block family (chunkBytes data k) (blockAddress base k) (BitVec.ofNat 32 k)
    (BitVec.ofNat 32 (blockCount data.length))

/-- The first `k` blocks of the container, in rising order (rule R128). -/
def containerUpTo (family base : Word) (data : List Byte) (k : Nat) : List Byte :=
  (List.range k).flatMap (containerBlock family base data)

/-- The whole container (rules R61, R127). -/
def container (family base : Word) (data : List Byte) : List Byte :=
  containerUpTo family base data (blockCount data.length)

end Sys2Proof.Machine
end

