-- ==== Sys2Proof/Safety.lean ====
section
/-! DEFINITION. What counts as a safe run, in the terms claims use: the invariant of the machine, the
host's duties (spec/70_reset_and_hazards.md rule R164), and the answers of a step. -/

namespace Sys2Proof.Machine

/-! ### The invariant -/

/-- The sequencer's position in CRC.RUN over `data`, and what the engine has computed so far (rules R18,
R19, R22, R84): before byte `I` the register is the fold over the bytes before it, and within it the
bit steps done are `8 - N`. -/
def EnginePosition (s : State) (data : List Byte) : Prop :=
  match s.phase with
  | .check => s.n = 0
  | .seed => s.n = 0 ∧ s.i = 0
  | .load => s.n = 0 ∧ s.i < data.length ∧ s.r = crcRegister (data.take s.i)
  | .bit =>
    ∃ b, data[s.i]? = some b ∧ 0 < s.n.toNat ∧ s.n.toNat ≤ 8 ∧
      s.w = loadWord b <<< (8 - s.n.toNat) ∧
      s.r = bitSteps (8 - s.n.toNat) (crcRegister (data.take s.i)) (loadWord b)
  | .ser => s.i = data.length ∧ s.r = crcRegister data
  | .commit => s.ck = checksum data
  | .pack | .done => False

/-- CRC in progress: CRC.RUN over all of `SRC` (rule R85). -/
def CrcPosition (s : State) : Prop :=
  (s.phase ≠ .check → s.run = crcRange s) ∧ EnginePosition s s.src.bytes

/-- PATCH in progress: CRC.RUN over `ART[0,252)` (rules R99, R105). -/
def PatchPosition (s : State) : Prop :=
  (s.phase ≠ .check → s.run = patchRange ∧ Config.bootMinLen ≤ s.art.len) ∧
    EnginePosition s (s.art.bytes.take Config.bootCoverLen)

/-- ENCBLK in progress: from `pack` on the precondition has passed, and after it `BLK` is the block of the
operands (rule R110). -/
def EncblkPosition (s : State) : Prop :=
  match s.phase with
  | .check => True
  | .pack => checkEncblk s = .pass
  | .commit => s.blk = uf2Block Config.familyId s.chunk s.taddr s.blkno s.nblk
  | .seed | .load | .bit | .ser | .done => False

/-- ASSEMBLE in progress: `STAGE` holds the blocks of the chunks before `J`, in order (rules R127, R128). -/
def AssemblePosition (s : State) : Prop :=
  match s.phase with
  | .check => True
  | .pack =>
    checkAssemble s = .pass ∧ s.j < blockCount s.src.len ∧
      s.stage = containerUpTo Config.familyId s.base s.src.bytes s.j
  | .commit => checkAssemble s = .pass ∧ s.stage = container Config.familyId s.base s.src.bytes
  | .seed | .load | .bit | .ser | .done => False

/-- The position of the operation in progress; when idle nothing is staged (rules R29, R171). -/
def Position (s : State) : Prop :=
  match s.op with
  | .idle => s.stage = []
  | .crc => CrcPosition s
  | .patch => PatchPosition s
  | .encblk => EncblkPosition s
  | .assemble => AssemblePosition s

/-- The invariant every step keeps: the host's buffers are in canonical form, `CK`, `BLK` and `N` have
their sizes (rule R15), and the sequencer's partial results are those of the operation in progress. -/
structure Inv (s : State) : Prop where
  artWf : s.art.wf = true
  srcWf : s.src.wf = true
  dstWf : s.dst.wf = true
  ckLen : s.ck.length = Config.crcOutLen
  blkLen : s.blk.length = Config.uf2BlockLen
  bitsLeft : s.n.toNat ≤ 8
  position : Position s

/-! ### The host's duties (rule R164) -/

/-- A length is within `MAX_LEN` (rule R7; no bound where `MAX_LEN` is unbounded). -/
def withinMaxLen (bound : Option Nat) (len : Nat) : Prop :=
  match bound with
  | none => True
  | some m => len ≤ m

/-- No operand of an operation is one the host never wrote (duty 2). The machine answers where this duty is not
met, too (log entry 6). -/
def OperandsWritten (s : State) : Operation → Prop
  | .encblk => s.written.missing encblkOperands = none
  | .assemble => s.written.missing assembleOperands = none
  | .idle | .crc | .patch => True

/-- The duties that the coming input must meet to be answered: operations one at a time, buffers untouched while
an operation is in progress (duties 6, 7), and a freely issued micro-operation only where rules R81 and R84
allow it. -/
def InputAllowed (s : State) : Prop :=
  match s.inputs with
  | [] => True
  | .wait :: _ => True
  | .await :: _ => True
  | .reset :: _ => True
  | .read _ :: _ => s.op = .idle
  | .write a :: _ =>
    s.op = .idle ∧
      match a with
      | .buffer _ bs => withinMaxLen Config.maxLen bs.length
      | .chunk bs => withinMaxLen Config.maxLen bs.length
      | .taddr _ | .blkno _ | .nblk _ | .base _ | .baseFlash | .copy _ _ | .range _ => True
  | .present _ :: _ => s.op = .idle
  | .presentStepped _ :: _ => s.op = .idle
  | .issue c :: _ =>
    s.op = .idle ∧ ∃ i, decodeIssue c = .op i ∧ (i = .crcBit → s.n ≠ 0) ∧
      (i = .crcRun → s.runBytes ≠ none)

/-! ### Answers of a step -/

/-- The machine went on: neither a stop by fault nor a refusal. -/
def Answers (o : Host.Outcome State Fault Refusal) : Prop := ∃ t, o = .next t

/-- None of the coming `k` accesses to host buffers fails (rule R141). -/
def NoFailure (s : State) (k : Nat) : Prop := ∀ d ∈ s.ioDraws.take k, (d && Config.ioCanFail) = false

/-! ### Operations one after the other -/

/-- Operations carried out one after the other, up to the first stop. -/
def performAll : List Instr → State → Host.Outcome State Fault Refusal
  | [], s => .next s
  | i :: is, s =>
    match exec i s with
    | .next t => performAll is t
    | .fault f => .fault f
    | .refused why => .refused why

/-- The expansion of CRC.BYTE b (rule R74). -/
def byteOps (b : Byte) : List Instr := .crcLoad b :: List.replicate Config.bitsPerByte .crcBit

/-- The expansion of CRC.RUN over the bytes `bs` (rules R74, R84). -/
def runOps (bs : List Byte) : List Instr := .crcSeed :: (bs.flatMap byteOps ++ [.crcSer])

/-- Steps the sequencer needs at most for a presented host operation: the micro-operations of rule R174
with the phases around them (rules R94, R105, R136). -/
def steppedBound (s : State) : Instr → Nat
  | .crc => 9 * s.src.len + 5
  | .patch => 9 * Config.bootCoverLen + 5
  | .encblk => 4
  | .assemble => blockCount s.src.len + 3
  | .crcSeed | .crcLoad _ | .crcBit | .crcByte _ | .crcSer | .crcRun => 0

/-! ### What the host sees (rules R26, R28) -/

/-- Two states agree on everything the result of `i` may depend on (rule R28): the inputs rule R67 lists
for it and, where it accesses a host buffer, the coming answers of the buffers. -/
def SameInputs (i : Instr) (s t : State) : Prop :=
  match i with
  | .crc => s.src = t.src ∧ s.ioDraws = t.ioDraws
  | .patch => s.art = t.art ∧ s.ioDraws = t.ioDraws
  | .encblk => s.chunk = t.chunk ∧ s.taddr = t.taddr ∧ s.blkno = t.blkno ∧ s.nblk = t.nblk
  | .assemble => s.src = t.src ∧ s.base = t.base ∧ s.ioDraws = t.ioDraws
  | .crcSeed | .crcLoad _ | .crcBit | .crcByte _ | .crcSer | .crcRun => True

/-- The outputs of `i` that rule R67 lists agree in two states after it: `RESULT`, and the buffer it
writes. `DST` is output only on `ok`: on a fault it is as the host left it (rule R134). -/
def SameOutputs (i : Instr) (s t : State) : Prop :=
  s.result = t.result ∧ (i = .patch → s.art = t.art) ∧
    (i = .assemble → s.result = .ok .noValue → s.dst = t.dst)

/-! ### Frames -/

/-- The operand registers and their marks are as before. -/
def KeepsOperands (s t : State) : Prop :=
  t.chunk = s.chunk ∧ t.taddr = s.taddr ∧ t.blkno = s.blkno ∧ t.nblk = s.nblk ∧ t.base = s.base ∧
    t.written = s.written

/-- Two states hold the same in one operand register. -/
def SameOperand (x : Operand) (s t : State) : Prop :=
  match x with
  | .chunk => t.chunk = s.chunk
  | .taddr => t.taddr = s.taddr
  | .blkno => t.blkno = s.blkno
  | .nblk => t.nblk = s.nblk
  | .base => t.base = s.base

/-- The operand registers after an operation: those it took hold anything, the others and the marks of the
host's writes are as before (rules R15, R28; log entries 6 and 14). -/
def OperandsAfter (o : Operation) (s t : State) : Prop :=
  (∀ x, o.uses x = false → SameOperand x s t) ∧ t.written = s.written

/-- The three host buffers are as before. -/
def KeepsBuffers (s t : State) : Prop := t.art = s.art ∧ t.src = s.src ∧ t.dst = s.dst

/-- The operation is over with this result (rules R22, R147, R171): the core is idle, nothing is staged,
and the host's coming inputs are as before. -/
def EndedWith (s t : State) (res : OpResult) : Prop :=
  t.result = res ∧ t.op = .idle ∧ t.stage = [] ∧ t.inputs = s.inputs

/-- The bytes [a, a + n) of a byte sequence. -/
def field (bs : List Byte) (a n : Nat) : List Byte := (bs.drop a).take n

/-- A word most significant byte first, the order the core does not store (rule R91). -/
def be32 (v : Word) : List Byte := (le32 v).reverse

/-- Byte by byte exclusive or of two sequences (rule R92). -/
def xorBytes (as bs : List Byte) : List Byte := List.zipWith (· ^^^ ·) as bs

end Sys2Proof.Machine
end

