-- ==== Sys2Proof/Certificates/Slice0/Obligations.lean ====
section
/-! DEFINITION. The statements for the provers. Each docstring names the rule of spec/ it formalises; where
a clause rests on a choice of the model, the log entry. -/

open Sys2Proof Sys2Proof.Machine

/-! ## The command word -/

/-- Decoding at the command port (rule R75, the spec's decision D15). A word whose `op` is 0x01 to 0x04 and whose `imm8` is 0 is the
host operation of that code; every other word, presented to an idle core, raises `IllegalOp`. The third clause
is about the model's free issue, by which the host issues a micro-operation to the idle engine (DESIGN CHOICE,
log entry 5; the spec's host cannot, decision D25): it too does not pass through this decoder. -/
def Obligations.CommandDecodeIsTotal : Prop :=
  (∀ c : CmdWord, 0x01 ≤ opField c ∧ opField c ≤ 0x04 ∧ immField c = 0 →
      ∃ i, decodeCommand c = .op i ∧ i.level = .host ∧ i.opCode = opField c) ∧
  (∀ (s : State) (c : CmdWord) (rest : List Input), s.op = .idle →
      s.inputs = .present c :: rest → ¬ (0x01 ≤ opField c ∧ opField c ≤ 0x04 ∧ immField c = 0) →
      ∃ t, step s = .next t ∧ t.result = .fault (.illegalOp c)) ∧
  (∀ (s : State) (c : CmdWord) (i : Instr) (rest : List Input), s.op = .idle →
      s.inputs = .issue c :: rest → decodeIssue c = .op i →
      step s = exec i { s with inputs := rest })

/-- The map of spec/30_encoding.md section 3 (rule R66, the spec's decisions D15, D25) as an encoding: at each port decoding the word of an operation gives it back, a decoded
operation is one that may be issued there, and no other word gives it (no two words, no bit dropped). -/
def Obligations.DecodeAndEncodeAgree : Prop :=
  ∀ (p : Port) (c : CmdWord) (i : Instr),
    decodeAt p c = .op i ↔ (i.wellFormed p = true ∧ encode i = c)

/-- A few words of the table decode to their operations (spec/95_test_vectors.md, "Command decode" and the
micro-operation words). -/
def Obligations.TableWordsDecode : Prop :=
  decodeCommand 0x0100 = .op .crc ∧ decodeCommand 0x0200 = .op .patch ∧
  decodeCommand 0x0300 = .op .encblk ∧ decodeCommand 0x0400 = .op .assemble ∧
  decodeIssue 0x1000 = .op .crcSeed ∧ decodeIssue 0x1131 = .op (.crcLoad 0x31) ∧
  decodeIssue 0x1200 = .op .crcBit ∧ decodeIssue 0x1331 = .op (.crcByte 0x31) ∧
  decodeIssue 0x1400 = .op .crcSer ∧ decodeIssue 0x1500 = .op .crcRun

/-- The spec's decision D15 (rule R142): the command decoder raises `IllegalOp` (code 4) for every word that does not select a host
operation, whichever way the host presents it. The operand registers, the host's buffers and the coming
answers of the buffers are as before: the word is refused before anything else (rule R146). -/
def Obligations.IllegalOpForEveryOtherWord : Prop :=
  ∀ (s : State) (c : CmdWord) (rest : List Input), s.op = .idle →
    (s.inputs = .present c :: rest ∨ s.inputs = .presentStepped c :: rest) →
    (∀ i : Instr, i.level = .host → encode i ≠ c) →
    ∃ t, step s = .next t ∧ t.result = .fault (.illegalOp c) ∧ t.result.code = 4 ∧
      t.op = .idle ∧ t.stage = [] ∧ t.inputs = rest ∧ KeepsOperands s t ∧
      t.art = s.art ∧ t.src = s.src ∧ t.dst = s.dst ∧ t.ioDraws = s.ioDraws

/-! ## Steps -/

/-- A step of an idle core runs the operation its next input selects: the host operation at the command
port, as one big step (rule R12), or the micro-operation on the issue line. All a step adds is that the
input is used up. (That the host's actions come as a list of inputs is the model's choice, log entry 5.) -/
def Obligations.StepRunsTheDecodedOperation : Prop :=
  ∀ (s : State) (c : CmdWord) (i : Instr) (rest : List Input), s.op = .idle →
    ((s.inputs = .present c :: rest → decodeCommand c = .op i →
        i.wellFormed .command = true ∧ step s = exec i { s with inputs := rest }) ∧
     (s.inputs = .issue c :: rest → decodeIssue c = .op i →
        i.wellFormed .issue = true ∧ step s = exec i { s with inputs := rest }))

/-- The sequencer runs the micro-operations of CRC.RUN (rule R84; one phase a step is the model's choice, log
entry 5): with CRC or PATCH in progress and no
input, each engine phase is the micro-operation of that name, and around it only `PHASE` and `I` move. -/
def Obligations.SequencerIssuesMicroOperations : Prop :=
  ∀ s : State, s.inputs = [] → (s.op = .crc ∨ s.op = .patch) →
    (s.phase = .seed → ∃ t, exec .crcSeed s = .next t ∧ step s = .next { t with phase := afterByte t }) ∧
    (∀ b, s.phase = .load → (s.buffer s.run.buf).read (s.run.off + s.i) = some b →
      s.accessFails = false →
      ∃ t, exec (.crcLoad b) s.afterAccess = .next t ∧ step s = .next { t with phase := .bit }) ∧
    (s.phase = .bit → s.n ≠ 0 → s.n ≠ 1 → step s = exec .crcBit s) ∧
    (s.phase = .bit → s.n = 1 →
      ∃ t u, exec .crcBit s = .next t ∧ u = { t with i := t.i + 1 } ∧
        step s = .next { u with phase := afterByte u }) ∧
    (s.phase = .ser → ∃ t, exec .crcSer s = .next t ∧ step s = .next { t with phase := .commit })

/-- The spec's decision D7 (rules R29, R30, R161, R162): reset leaves `OP = idle`, `N = 0` and `STAGE` empty and
does not touch the host's buffers, at the start and whenever the host resets the core. `RESULT` is `ok` with no
value where the core was idle; a reset in the middle of an operation is a fault of that operation. (That of an
idle core the operands stay, for rule R30, and of a busy one those the operation did not take, is log entry 8;
what the other registers hold, by that entry too, is not stated. That such a reset is carried out, not refused,
and delivers a fault without a code of rule R138, is log entry 11.) -/
def Obligations.ResetLeavesTheCoreIdle : Prop :=
  (State.reset.op = .idle ∧ State.reset.n = 0 ∧ State.reset.stage = [] ∧
    State.reset.result = .ok .noValue) ∧
  ∀ (s : State) (rest : List Input), s.inputs = .reset :: rest →
    ∃ t, step s = .next t ∧ t.op = .idle ∧ t.n = 0 ∧ t.stage = [] ∧
      (s.op = .idle → t.result = .ok .noValue) ∧
      (s.op ≠ .idle → t.result = .fault .resetDuringOperation ∧ t.result.code ≠ 0) ∧
      (s.op = .idle → KeepsOperands s t) ∧ OperandsAfter s.op s t ∧
      t.art = s.art ∧ t.src = s.src ∧ t.dst = s.dst ∧ t.inputs = rest

/-- The spec's decisions D18, D25, D30 (rules R40, R159, R164 duties 6 and 7; U12): while an operation is in progress a host access to a buffer
is refused. That a write of an operand register, a second operation (its word illegal or not) and a free issue
are refused too, each by its own name, is the model's reading of these rules: DEDUCED, log entry 15. -/
def Obligations.BusyCoreRefusesTheHost : Prop :=
  ∀ (s : State) (rest : List Input), s.op ≠ .idle →
    (∀ a, s.inputs = .write a :: rest → step s = .refused .accessDuringOperation) ∧
    (∀ b, s.inputs = .read b :: rest → step s = .refused .accessDuringOperation) ∧
    (∀ c, s.inputs = .present c :: rest → step s = .refused .presentedWhileBusy) ∧
    (∀ c, s.inputs = .presentStepped c :: rest → step s = .refused .presentedWhileBusy) ∧
    (∀ c, s.inputs = .issue c :: rest → step s = .refused .issuedWhileBusy)

/-- Rule R30 (the spec's decision D7; rule R163): "a reset between two operations is indistinguishable, to the
host, from no reset: it changes no result". An operation, or a word that is none, presented after a reset of an
idle core ends in the very state it would have ended in without that reset, whether the operands were written before the reset, or after it, or an earlier operation took them; the same where the
sequencer runs it; and it makes no difference on which side of the reset the host writes. (That the operands stay
through a reset is the model's way to meet the rule: log entry 8.) -/
def Obligations.ResetBetweenOperationsChangesNoResult : Prop :=
  ∀ s : State, s.op = .idle → s.blk.length = 512 →
    (∀ (c : CmdWord) (rest : List Input), s.inputs = .reset :: .present c :: rest →
      ∃ t, step s = .next t ∧ step t = step { s with inputs := .present c :: rest }) ∧
    (∀ (c : CmdWord) (i : Instr), s.inputs = [.reset, .presentStepped c] → decodeCommand c = .op i →
      ∃ k, Host.Core.run Sys2Proof.core k s = exec i { s with inputs := [] }) ∧
    (∀ (a : HostWrite) (rest : List Input), s.inputs = .reset :: .write a :: rest →
      ∃ t u v, step s = .next t ∧ step t = .next v ∧
        step { s with inputs := .write a :: .reset :: rest } = .next u ∧ step u = .next v)

/-! ## The invariant, and runs -/

/-- The state after reset meets the invariant. -/
def Obligations.ResetMeetsTheInvariant : Prop := Inv State.reset

/-- Every step keeps the invariant. It joins what rules of spec/ say of each phase with the model's own form
of a buffer (log entry 3): canonical buffers, the sizes of `CK`, `BLK` and `N` (rule R15), nothing
staged while idle (rule R171), and at every phase of an operation the partial results of its rules: the
register as the fold over the bytes before `I` and the bit steps done (rules R18, R84), `STAGE` as the
blocks of the chunks before `J` (rules R127, R128), and at the commit `CK`, `BLK` or `STAGE` as the whole
output. (Which phases an operation has, one a step, is log entry 5; that the operands of CRC.RUN stand in
`run`, log entry 7; that `N` is 0 from the check on, log entry 13.) -/
def Obligations.StepKeepsTheInvariant : Prop :=
  ∀ s t : State, Inv s → step s = .next t → Inv t

/-- The spec's decision D30 (rule R159: "*Stuck* does not occur: every presented operation has a step until its
result"; rule R164): a host that meets its duties is answered at every step, neither stopped nor refused. (The
inputs admitted reach beyond these rules by the model's choices: a reset in the middle of an operation, which
D30 lets a model refuse or fault, is answered by the fault, log entry 11; a micro-operation, which the spec's
host cannot issue, is answered where rules R81 and R84 allow it, log entries 5 and 7; an operation is answered
whether or not the host met its duty 2 to write the operands, log entry 6.) -/
def Obligations.DutifulHostIsAnswered : Prop :=
  ∀ s : State, Inv s → InputAllowed s → Answers (step s)

/-- Rule R12's sentence "The two agree by construction", which the spec marks as derived: a host operation run by the sequencer, micro-operation by
micro-operation, ends in exactly the outcome of the big step, and within the number of steps that rule
R174's counts give. (The two ways of presenting a word, and what one step of a sequenced run holds, are the
model's: log entry 5.) -/
def Obligations.SequencedRunIsTheBigStep : Prop :=
  ∀ (s : State) (c : CmdWord) (i : Instr), s.op = .idle → decodeCommand c = .op i →
    s.inputs = [.presentStepped c] →
    ∃ k, k ≤ steppedBound s i ∧ Host.Core.run Sys2Proof.core k s = exec i { s with inputs := [] }

/-- Rule R28 with the table of rule R67: the result of an operation is a function of the inputs of that operation, the configuration and the failure draws "and of nothing else". Two
states that agree on the inputs of the operation, and differ in anything else, give the same `RESULT` and the
same output buffer. (The draws as a list are log entry 4.) -/
def Obligations.ResultDependsOnInputsAlone : Prop :=
  ∀ (i : Instr) (s t : State), i.level = .host →
    SameInputs i s t →
    s.blk.length = Config.uf2BlockLen → t.blk.length = Config.uf2BlockLen →
    ∃ s' t', exec i s = .next s' ∧ exec i t = .next t' ∧ SameOutputs i s' t'

/-- Rules R28, R148, R150 with the lifetimes of rule R15: however an operation ended, by `ok` or by fault, the
operands it took are gone: what their registers hold then is the same whatever they held before and however far
the operation got. The operands of other operations are as the host wrote them. The core "accepts the next
operation" (rule R150): it is answered, and runs on what the registers hold, "any value" (U10) where an earlier
operation took them. (That operands last for one operation is read from the spec: DEDUCED, log entry 14; that an
operation then runs on what its registers hold, log entry 6; the counter of the free values is log entry 2.) -/
def Obligations.OperandsLastForOneOperation : Prop :=
  (∀ (i : Instr) (s t : State), i.level = .host → exec i s = .next t → OperandsAfter (operationOf i) s t) ∧
  (∀ (i : Instr) (s s' t t' : State) (x : Operand), i.level = .host → s.freeCount = s'.freeCount →
    exec i s = .next t → exec i s' = .next t' → (operationOf i).uses x = true → SameOperand x t t') ∧
  (∀ (i k : Instr) (s t : State), i.level = .host → k.level = .host → exec i s = .next t →
    ∃ u, exec k t = .next u) ∧
  (∀ s t : State, exec .encblk s = .next t → ∃ u, exec .encblk t = .next u ∧
    u.result =
      if t.clen ≤ 256 then .ok (.block (uf2Block Config.familyId t.chunk t.taddr t.blkno t.nblk))
      else .fault (.chunkTooLarge t.clen))

/-- Rules R26, R30, R134, R161: as long as an operation is in progress nothing of it is committed. A step after
which an operation is in progress leaves the host's buffers as they were, so a reset in the middle of an
operation, which ends it, finds and leaves them so. (That commit and delivery are one step is log entry 5; that
such a reset is carried out, log entry 11.) -/
def Obligations.NothingIsCommittedInProgress : Prop :=
  (∀ s t : State, step s = .next t → t.op ≠ .idle → KeepsBuffers s t) ∧
  (∀ (s : State) (rest : List Input), s.op ≠ .idle → s.inputs = .reset :: rest →
    ∃ t, step s = .next t ∧ KeepsBuffers s t ∧ t.op = .idle ∧ t.stage = [] ∧ t.inputs = rest)

/-- Rule R147: when a host operation ends in a fault, `STAGE` is discarded, nothing is committed (`ART` and
`DST` hold what they held before), `RESULT` is the fault and `OP` is idle; when it ends in `ok`, it is idle
with nothing staged too (rule R171). A host operation never stops the machine, neither by a fault of its own nor
by a refusal, and always answers (rule R159). -/
def Obligations.FaultCommitsNothing : Prop :=
  ∀ (i : Instr) (s : State), i.level = .host →
    (∀ why, exec i s ≠ .fault why) ∧
    (∀ why, exec i s ≠ .refused why) ∧
    ∀ t, exec i s = .next t →
      t.op = .idle ∧ t.stage = [] ∧
        ∀ f, t.result = .fault f → t.art = s.art ∧ t.dst = s.dst ∧ t.src = s.src

/-! ## The CRC engine -/

/-- Rule R79: CRC.SEED writes `R` and nothing else, whatever `R` was; its word is 0x1000, and the host
cannot issue it. -/
def Obligations.CrcSeedWritesTheSeed : Prop :=
  (∀ s : State, exec .crcSeed s = .next { s with r := 0xFFFFFFFF }) ∧
  encode .crcSeed = 0x1000 ∧ ∀ i, decodeCommand 0x1000 ≠ .op i

/-- Rule R80: CRC.LOAD b writes `W <- zext_32(b) << 24` and `N <- 8` and nothing else; its word is
`0x1100 + b`; the sequencer issues it only when `N = 0`. -/
def Obligations.CrcLoadAlignsTheByte : Prop :=
  (∀ (b : Byte) (s : State), exec (.crcLoad b) s = .next { s with w := b.setWidth 32 <<< 24, n := 8 }) ∧
  (∀ b : Byte, encode (.crcLoad b) = 0x1100 + b.setWidth 16) ∧
  (∀ s : State, Inv s → (s.op = .crc ∨ s.op = .patch) → s.phase = .load → s.n = 0)

/-- Rule R81: CRC.BIT, for `N > 0`, in the source's order; with `N = 0` a free issue is refused; the
sequencer never issues it with `N = 0`. -/
def Obligations.CrcBitIsOneSerialStep : Prop :=
  (∀ s : State, s.n ≠ 0 →
    exec .crcBit s = .next
      { s with
        r := if (s.r ^^^ s.w).getLsbD 31 then (s.r <<< 1) ^^^ 0x04C11DB7 else s.r <<< 1
        w := s.w <<< 1
        n := s.n - 1 }) ∧
  encode .crcBit = 0x1200 ∧
  (∀ s : State, s.n = 0 → exec .crcBit s = .refused .bitWithoutByte) ∧
  (∀ s : State, Inv s → (s.op = .crc ∨ s.op = .patch) → s.phase = .bit → s.n ≠ 0)

/-- Rule R88, which the spec marks as derived: the bit-level form of CRC.BIT. With `t = R[31] XOR W[31]`, bit 0 of the new `R` is `t`, and bit
`k` is bit `k - 1` of the old one, XORed with `t` at the taps 26, 23, 22, 16, 12, 11, 10, 8, 7, 5, 4, 2, 1. -/
def Obligations.CrcBitIsAShiftRegisterWithTaps : Prop :=
  ∀ s : State, s.n ≠ 0 → ∃ t, exec .crcBit s = .next t ∧
    t.r.getLsbD 0 = (s.r.getLsbD 31 ^^ s.w.getLsbD 31) ∧
    ∀ k, 0 < k → k < 32 →
      t.r.getLsbD k =
        if k ∈ [26, 23, 22, 16, 12, 11, 10, 8, 7, 5, 4, 2, 1] then
          s.r.getLsbD (k - 1) ^^ (s.r.getLsbD 31 ^^ s.w.getLsbD 31)
        else s.r.getLsbD (k - 1)

/-- Rule R82: CRC.BYTE b is CRC.LOAD b and then CRC.BIT eight times; it writes `R`, `W` and `N` and nothing
else, and leaves `N = 0` and `W = 0` (which the spec marks as derived). -/
def Obligations.CrcByteIsItsExpansion : Prop :=
  ∀ (b : Byte) (s : State), ∃ t, exec (.crcByte b) s = .next t ∧
    performAll (byteOps b) s = .next t ∧ t.n = 0 ∧ t.w = 0 ∧ t = { s with r := t.r, w := t.w, n := t.n }

/-- Rule R90, which the spec marks as derived: the byte-level closed form. `T(x)` is the result in `R` of CRC.BYTE 0x00 from `R = x << 24`;
for every `R` and `b`, CRC.BYTE b leaves `(R << 8) XOR T(R[31:24] XOR b)`; and the values of `T` the rule
lists. -/
def Obligations.CrcByteHasATableForm : Prop :=
  (∀ (x : Byte) (s : State), ∃ t,
    exec (.crcByte 0x00) { s with r := x.setWidth 32 <<< 24 } = .next t ∧ t.r = tableEntry x) ∧
  (∀ (b : Byte) (s : State), ∃ t, exec (.crcByte b) s = .next t ∧
    t.r = (s.r <<< 8) ^^^ tableEntry (s.r.extractLsb' 24 8 ^^^ b)) ∧
  tableEntry 0x00 = 0x00000000 ∧ tableEntry 0x01 = 0x04C11DB7 ∧ tableEntry 0x02 = 0x09823B6E ∧
  tableEntry 0x03 = 0x0D4326D9 ∧ tableEntry 0x04 = 0x130476DC ∧ tableEntry 0x80 = 0x690CE0EE ∧
  tableEntry 0xFF = 0xB1F740B4

/-- Rule R83: CRC.SER writes `CK` with the bytes of `R`, least significant first, no final XOR and no
reflection, and nothing else; its word is 0x1400. -/
def Obligations.CrcSerIsLittleEndian : Prop :=
  (∀ s : State, exec .crcSer s = .next
    { s with ck := [s.r.extractLsb' 0 8, s.r.extractLsb' 8 8, s.r.extractLsb' 16 8, s.r.extractLsb' 24 8] }) ∧
  encode .crcSer = 0x1400

/-- Rule R84: CRC.RUN over a range that lies in its buffer, no read failing: it leaves what its expansion
into micro-operations leaves in `R`, `W`, `N` and `CK`, `I` at the number of bytes, `CK` as `le32` of the
fold from the seed; nothing else changes but that each read has had its answer. The expansion has
`9n + 2` micro-operations (rule R94). -/
def Obligations.CrcRunFoldsTheRange : Prop :=
  ∀ (s : State) (bs : List Byte), s.runBytes = some bs → NoFailure s bs.length →
    ∃ t u, exec .crcRun s = .next t ∧ performAll (runOps bs) s = .next u ∧
      t.r = bs.foldl stepByte 0xFFFFFFFF ∧ t.ck = le32 t.r ∧
      t = { u with i := bs.length, ioDraws := s.ioDraws.drop bs.length } ∧
      (runOps bs).length = 9 * bs.length + 2

/-- Rule R84's requirement `off + n <= len(buf)`: a CRC.RUN freely issued on a range that leaves its buffer has
no meaning in the spec; it is refused (decision D30) and accesses nothing. (The free issue and its operands are
log entries 5 and 7; the sequencer never issues it so.) -/
def Obligations.CrcRunStaysInItsBuffer : Prop :=
  ∀ s : State, (s.buffer s.run.buf).len < s.run.off + s.run.len →
    exec .crcRun s = .refused (.rangeOutsideBuffer s.run.buf s.run.off s.run.len)

/-- Rule R84 with rule R141 (the spec's decision D11): where the answer to read `m` of CRC.RUN's range is
"fails" and none before it was, CRC.RUN ends in `IOFailure` on that buffer if the platform's buffers can fail,
and otherwise runs to its end. No buffer changes, and no operand register but those of an operation that was
in progress (an idle core, which a free issue needs, has none; log entries 6 and 14). That the buffer may be
any of the three is log entry 7. -/
def Obligations.CrcRunFailsAtTheFirstFailingRead : Prop :=
  ∀ (s : State) (bs : List Byte) (m : Nat), s.runBytes = some bs → m < bs.length →
    (∀ d ∈ s.ioDraws.take m, d = false) → s.ioDraws[m]? = some true →
    ∃ t, exec .crcRun s = .next t ∧ t.art = s.art ∧ t.src = s.src ∧ t.dst = s.dst ∧
      (Config.ioCanFail = true → EndedWith s t (.fault (.ioFailure s.run.buf .read)) ∧
        OperandsAfter s.op s t ∧ (s.op = .idle → KeepsOperands s t) ∧
        t.ioDraws = s.ioDraws.drop (m + 1)) ∧
      (Config.ioCanFail = false → t.ck = checksum bs ∧ t.result = s.result ∧ KeepsOperands s t)

/-! ## CRC -/

/-- Rule R85: CRC reads all of `SRC` and returns `le32` of the final register. `SRC`, the other buffers and
the operand registers are unchanged. (What the engine's registers hold after the operation is free: log
entry 2.) -/
def Obligations.CrcReturnsTheChecksum : Prop :=
  ∀ s : State, NoFailure s s.src.len → ∃ t, exec .crc s = .next t ∧
    EndedWith s t (.ok (.checksum (le32 (s.src.bytes.foldl stepByte 0xFFFFFFFF)))) ∧
    KeepsOperands s t ∧ t.art = s.art ∧ t.src = s.src ∧ t.dst = s.dst ∧
    t.ioDraws = s.ioDraws.drop s.src.len

/-- Rule R86: empty input leaves `R` at the seed (CRC.RUN over no bytes), and the serialised output, which
CRC returns, is `FF FF FF FF`. -/
def Obligations.CrcOfNothingIsAllOnes : Prop :=
  (∀ s : State, s.src.len = 0 → ∃ t, exec .crc s = .next t ∧
    t.result = .ok (.checksum [0xFF, 0xFF, 0xFF, 0xFF])) ∧
  (∀ s : State, s.run.len = 0 → s.run.off ≤ (s.buffer s.run.buf).len → ∃ t, exec .crcRun s = .next t ∧
    t.r = 0xFFFFFFFF ∧ t.ck = [0xFF, 0xFF, 0xFF, 0xFF])

/-- The spec's decision D11 (rule R141) for CRC: where the answer to the read of byte `m` is "fails" and none before it was, CRC raises
`IOFailure` if the platform's buffers can fail, and otherwise the fault does not occur. No buffer changes. -/
def Obligations.CrcFailsAtTheFirstFailingRead : Prop :=
  ∀ (s : State) (m : Nat), m < s.src.len → (∀ d ∈ s.ioDraws.take m, d = false) →
    s.ioDraws[m]? = some true →
    ∃ t, exec .crc s = .next t ∧ KeepsOperands s t ∧ t.art = s.art ∧ t.src = s.src ∧ t.dst = s.dst ∧
      (Config.ioCanFail = true → EndedWith s t (.fault (.ioFailure .src .read)) ∧ t.result.code = 3) ∧
      (Config.ioCanFail = false → EndedWith s t (.ok (.checksum (checksum s.src.bytes))))

/-- Rule R91, the residue law, which the spec marks as derived: over `d` followed by its register most significant byte first the engine ends
with `R = 0`, so CRC returns four zero bytes; over "123456789" followed by its checksum in the order the
core stores it ends in `0x54453F62`. -/
def Obligations.ResidueIsZeroInBigEndianOrder : Prop :=
  (∀ (s : State) (d : List Byte), s.src.bytes = d ++ be32 (crcRegister d) → NoFailure s s.src.len →
    ∃ t, exec .crc s = .next t ∧ t.result = .ok (.checksum [0x00, 0x00, 0x00, 0x00])) ∧
  (∀ d : List Byte, crcRegister (d ++ be32 (crcRegister d)) = 0) ∧
  crcRegister ([0x31, 0x32, 0x33, 0x34, 0x35, 0x36, 0x37, 0x38, 0x39] ++
    checksum [0x31, 0x32, 0x33, 0x34, 0x35, 0x36, 0x37, 0x38, 0x39]) = 0x54453F62

/-- Rule R92, which the spec marks as derived: linearity of the engine, and its three examples. -/
def Obligations.EngineIsLinear : Prop :=
  (∀ as bs : List Byte, as.length = bs.length →
    crcFrom 0 (xorBytes as bs) = crcFrom 0 as ^^^ crcFrom 0 bs) ∧
  (∀ n, crcFrom 0 (zeros n) = 0) ∧
  (∀ as : List Byte, crcRegister as = crcFrom 0 as ^^^ crcRegister (zeros as.length)) ∧
  crcRegister (zeros 1) = 0x4E08BFB4 ∧ crcRegister (zeros 4) = 0xC704DD7B ∧
  crcRegister (zeros 252) = 0x7065399A

/-! ## PATCH -/

/-- Rule R139: PATCH of an artifact shorter than 256 bytes raises `BootImageTooShort` (code 1) before any
read or write: no answer of a buffer is used, and `ART` is unchanged. -/
def Obligations.PatchRejectsAShortImage : Prop :=
  ∀ s : State, s.art.len < 256 → ∃ t, exec .patch s = .next t ∧
    EndedWith s t (.fault (.bootImageTooShort s.art.len)) ∧ t.result.code = 1 ∧
    KeepsOperands s t ∧ t.art = s.art ∧ t.src = s.src ∧ t.dst = s.dst ∧ t.ioDraws = s.ioDraws

/-- Rule R97: given at least 256 bytes, PATCH overwrites bytes [252,256) with the checksum of bytes [0,252),
little-endian, and leaves every other byte of the artifact and its length unchanged. -/
def Obligations.PatchWritesTheChecksum : Prop :=
  ∀ s : State, 256 ≤ s.art.len → NoFailure s 253 → ∃ t, exec .patch s = .next t ∧
    EndedWith s t (.ok .noValue) ∧
    t.art.slice 252 4 = some (le32 ((s.art.bytes.take 252).foldl stepByte 0xFFFFFFFF)) ∧
    t.art.len = s.art.len ∧ (∀ a, a < 252 ∨ 256 ≤ a → t.art.read a = s.art.read a) ∧
    KeepsOperands s t ∧ t.src = s.src ∧ t.dst = s.dst ∧ t.ioDraws = s.ioDraws.drop 253

/-- Rule R102: bytes [0,252) and [256, len) of `ART` are identical before and after PATCH, on success and on
fault, and its length does not change; an artifact longer than 256 bytes is accepted. PATCH always ends, and
no other buffer changes. -/
def Obligations.PatchLeavesOtherBytesAlone : Prop :=
  ∀ s : State, ∃ t, exec .patch s = .next t ∧ t.art.len = s.art.len ∧
    (∀ a, a < 252 ∨ 256 ≤ a → t.art.read a = s.art.read a) ∧ t.src = s.src ∧ t.dst = s.dst ∧
    (256 < s.art.len → NoFailure s 253 → t.result = .ok .noValue)

/-- Rule R101, the atomic commit: PATCH ends either with the whole checksum written and `ok`, or with `ART`
intact and a fault; and no step of a sequenced PATCH shows the host an `ART` that is neither as before nor
wholly patched. (That the step which commits also leaves the core idle with `RESULT` ok is the model's choice:
commit and delivery are one step, log entry 5.) -/
def Obligations.PatchCommitsWholeOrNotAtAll : Prop :=
  (∀ s t : State, exec .patch s = .next t →
    (t.art = s.art.write 252 (checksum (s.art.bytes.take 252)) ∧ t.result = .ok .noValue) ∨
    (t.art = s.art ∧ ∃ f, t.result = .fault f)) ∧
  (∀ s t : State, Inv s → s.op = .patch → step s = .next t →
    t.art = s.art ∨
      (t.art = s.art.write 252 (checksum (s.art.bytes.take 252)) ∧ t.op = .idle ∧ t.result = .ok .noValue))

/-- Rule R103: PATCH of a patched artifact leaves it identical, and (which the spec marks as derived) the four
bytes written depend on
`ART[0,252)` alone: two artifacts that agree there get the same checksum. -/
def Obligations.PatchIsIdempotent : Prop :=
  (∀ s t u : State, exec .patch s = .next t → t.result = .ok .noValue →
    exec .patch t = .next u → u.art = t.art) ∧
  (∀ s s' t t' : State, s.art.bytes.take 252 = s'.art.bytes.take 252 →
    exec .patch s = .next t → exec .patch s' = .next t' →
    t.result = .ok .noValue → t'.result = .ok .noValue → t.art.slice 252 4 = t'.art.slice 252 4)

/-- Rule R104: where the answer to access `m` of PATCH is "fails" (reads 0 to 251, then the commit) and none
before it was, PATCH raises `IOFailure` if the platform's buffers can fail, and `ART` is unchanged. -/
def Obligations.PatchFailsWithTheArtifactIntact : Prop :=
  ∀ (s : State) (m : Nat), 256 ≤ s.art.len → m ≤ 252 → (∀ d ∈ s.ioDraws.take m, d = false) →
    s.ioDraws[m]? = some true →
    ∃ t, exec .patch s = .next t ∧
      (Config.ioCanFail = true → t.art = s.art ∧
        EndedWith s t (.fault (.ioFailure .art (if m = 252 then .write else .read)))) ∧
      (Config.ioCanFail = false → t.result = .ok .noValue)

/-! ## ENCBLK -/

/-- Rule R60 (with conflict C1): the block ENCBLK returns has 512 bytes and the fixed field layout, every
field little-endian; R115: whatever `TADDR`, `BLKNO` and `NBLK` are. `BASE` and the buffers are
unchanged. (What the operands it took and the working registers hold after the operation, free values, and that
the marks of the host's writes stay, is the model's: log entries 2, 6 and 14.) -/
def Obligations.EncblkReturnsTheRecord : Prop :=
  ∀ s : State, s.clen ≤ 256 → s.blk.length = 512 →
    ∃ t b, exec .encblk s = .next t ∧ EndedWith s t (.ok (.block b)) ∧ b.length = 512 ∧
      field b 0 4 = le32 0x0A324655 ∧ field b 4 4 = le32 0x9E5D5157 ∧
      field b 8 4 = le32 0x00002000 ∧ field b 12 4 = le32 s.taddr ∧
      field b 16 4 = [0x00, 0x01, 0x00, 0x00] ∧ field b 20 4 = le32 s.blkno ∧
      field b 24 4 = le32 s.nblk ∧ field b 28 4 = le32 Config.familyId ∧
      field b 32 476 = s.chunk ++ zeros (476 - s.clen) ∧ field b 508 4 = le32 0x0AB16F30 ∧
      OperandsAfter .encblk s t ∧ t.run = s.run ∧ t.art = s.art ∧ t.src = s.src ∧ t.dst = s.dst ∧
      t.ioDraws = s.ioDraws

/-- Rule R140 (its last part the spec marks as derived): ENCBLK raises `ChunkTooLarge` (code 2) when `CLEN > 256`, and no block is returned; ENCBLK as
invoked from ASSEMBLE cannot raise it. (That the operands it took hold free values after the fault too is the
model's: DEDUCED, log entries 2, 6 and 14.) -/
def Obligations.EncblkRejectsALongChunk : Prop :=
  (∀ s : State, 256 < s.clen →
    ∃ t, exec .encblk s = .next t ∧ EndedWith s t (.fault (.chunkTooLarge s.clen)) ∧ t.result.code = 2 ∧
      OperandsAfter .encblk s t ∧ t.art = s.art ∧ t.src = s.src ∧ t.dst = s.dst ∧ t.ioDraws = s.ioDraws) ∧
  (∀ (s t : State) (n : Nat), exec .assemble s = .next t → t.result ≠ .fault (.chunkTooLarge n)) ∧
  (∀ s : State, (packChunk s).clen ≤ 256)

/-- Rule R114: bytes [32+CLEN, 508) of the block are zero, and of these the 220 bytes [288,508) are zero
whatever the chunk. -/
def Obligations.EncblkPadsWithZeros : Prop :=
  ∀ (s t : State) (b : List Byte), s.blk.length = 512 → exec .encblk s = .next t →
    t.result = .ok (.block b) →
    field b (32 + s.clen) (476 - s.clen) = zeros (476 - s.clen) ∧ field b 288 220 = zeros 220

/-- Rule R117: the bytes [0,12), [16,20), [28,32), [288,508) and [508,512) are the same in every block ENCBLK
produces, whatever the operands. -/
def Obligations.EncblkConstantsAcrossBlocks : Prop :=
  ∀ (s s' t t' : State) (b b' : List Byte), s.blk.length = 512 → s'.blk.length = 512 →
    exec .encblk s = .next t → exec .encblk s' = .next t' →
    t.result = .ok (.block b) → t'.result = .ok (.block b') →
    field b 0 12 = field b' 0 12 ∧ field b 16 4 = field b' 16 4 ∧ field b 28 4 = field b' 28 4 ∧
      field b 288 220 = field b' 288 220 ∧ field b 508 4 = field b' 508 4

/-- Rule R159's sentence "every presented operation has a step until its result", for the operations whose
operands the host may have left unwritten: ENCBLK and ASSEMBLE read what their operand registers hold, whether the
host has written them or not. No operation reads a mark of the host's writes, and presenting an operation against
duty 2 of rule R164 is answered. (That an operand never written is read as its register holds it, where the spec
has a model refuse the operation, is the model's choice: log entry 6.) -/
def Obligations.OperandsNeverWrittenAreReadAsTheyStand : Prop :=
  (∀ s : State, s.blk.length = 512 → ∃ t, exec .encblk s = .next t ∧
    t.result =
      if s.clen ≤ 256 then .ok (.block (uf2Block Config.familyId s.chunk s.taddr s.blkno s.nblk))
      else .fault (.chunkTooLarge s.clen)) ∧
  (∀ s : State, ∃ t, exec .assemble s = .next t ∧
    (rangeOverflows s.base s.src.len = true → t.result = .fault (.rangeOverflow s.base s.src.len))) ∧
  (∀ (i : Instr) (s : State) (m : Written), i.level = .host →
    ∃ t, exec i s = .next t ∧ exec i { s with written := m } = .next { t with written := m }) ∧
  (∀ (s : State) (c : CmdWord) (i : Instr) (rest : List Input), s.op = .idle → s.inputs = .present c :: rest →
    decodeCommand c = .op i → ¬ OperandsWritten s (operationOf i) →
    ∃ t, step s = .next t ∧ t.op = .idle ∧ t.inputs = rest ∧ OperandsAfter (operationOf i) s t)

/-! ## ASSEMBLE -/

/-- Rules R121, R127, R134: with the range fitting and no access failing, ASSEMBLE makes one
block for each chunk of `SRC`, in order, and returns `ok`; that the container replaces `DST` whole, whatever it
held, is the spec's decision D16. `ART` and `SRC` are unchanged; what registers hold after it, its operands
among them, is free (log entries 2, 6 and 14). -/
def Obligations.AssembleReplacesTheContainer : Prop :=
  ∀ s : State, rangeOverflows s.base s.src.len = false → s.blk.length = 512 →
    NoFailure s ((s.src.len + 255) / 256 + 1) → ∃ t, exec .assemble s = .next t ∧
      EndedWith s t (.ok .noValue) ∧
      t.dst.bytes = (List.range ((s.src.len + 255) / 256)).flatMap (fun k =>
        uf2Block Config.familyId (field s.src.bytes (256 * k) 256) (BitVec.ofNat 32 (s.base.toNat + 256 * k))
          (BitVec.ofNat 32 k) (BitVec.ofNat 32 ((s.src.len + 255) / 256))) ∧
      t.dst.wf = true ∧ t.art = s.art ∧ t.src = s.src ∧ t.run = s.run ∧ OperandsAfter .assemble s t ∧
      t.ioDraws = s.ioDraws.drop ((s.src.len + 255) / 256 + 1)

/-- Rules R21, R127: while ASSEMBLE is in progress its sequencer writes `CHUNK`, `TADDR`, `BLKNO`, `NBLK` itself
for each chunk, packs the block of these operands and appends it to `STAGE`; `BASE`, the host's buffers and
the marks of the host's writes are unchanged. (One chunk a step is log entry 5; after the operation the
registers hold free values: log entry 14.) -/
def Obligations.AssembleWritesTheOperandsOfEachBlock : Prop :=
  ∀ s : State, Inv s → s.inputs = [] → s.op = .assemble → s.phase = .pack → s.accessFails = false →
    ∃ t, step s = .next t ∧ t.chunk = field s.src.bytes (256 * s.j) (min 256 (s.src.len - 256 * s.j)) ∧
      t.taddr.toNat = s.base.toNat + 256 * s.j ∧ t.blkno.toNat = s.j ∧
      t.nblk.toNat = (s.src.len + 255) / 256 ∧
      t.blk = uf2Block Config.familyId t.chunk t.taddr t.blkno t.nblk ∧ t.stage = s.stage ++ t.blk ∧
      t.j = s.j + 1 ∧ t.op = .assemble ∧ t.base = s.base ∧ t.written = s.written ∧ KeepsBuffers s t

/-- The spec's decisions D11, D16 (rules R141, R134): where the answer to access `m` of ASSEMBLE is "fails" (one
read for each chunk, then the commit) and none before it was, ASSEMBLE raises `IOFailure` if the platform's
buffers can fail, and `DST` is as the host left it. (That the operands hold free values after it however far it got is the model's
reading of rules R28 and R148: DEDUCED, log entries 2, 6 and 14; which accesses draw an answer is log entry 4.) -/
def Obligations.AssembleFailsWithTheContainerIntact : Prop :=
  ∀ (s : State) (m : Nat), rangeOverflows s.base s.src.len = false →
    m ≤ (s.src.len + 255) / 256 → (∀ d ∈ s.ioDraws.take m, d = false) → s.ioDraws[m]? = some true →
    ∃ t, exec .assemble s = .next t ∧ t.art = s.art ∧ t.src = s.src ∧ OperandsAfter .assemble s t ∧
      (Config.ioCanFail = true → t.dst = s.dst ∧
        EndedWith s t (.fault (if m = (s.src.len + 255) / 256 then .ioFailure .dst .write
          else .ioFailure .src .read))) ∧
      (Config.ioCanFail = false → t.result = .ok .noValue)

/-- The spec's decisions D12, D13 (rule R126): the range check, on natural numbers, before any block: `RangeOverflow` (code 5) where an
address or the count does not fit 32 bits, and only there. `DST` is unchanged and no answer of a buffer is
used. (That the operands hold free values after the fault is the model's: DEDUCED, log entries 2, 6 and
14.) -/
def Obligations.AssembleChecksTheRangeFirst : Prop :=
  (∀ s : State,
    ((0 < (s.src.len + 255) / 256 ∧
        0xFFFFFFFF < s.base.toNat + 256 * ((s.src.len + 255) / 256 - 1)) ∨
      0xFFFFFFFF < (s.src.len + 255) / 256) →
    ∃ t, exec .assemble s = .next t ∧ EndedWith s t (.fault (.rangeOverflow s.base s.src.len)) ∧
      t.result.code = 5 ∧ OperandsAfter .assemble s t ∧ t.art = s.art ∧ t.src = s.src ∧ t.dst = s.dst ∧
      t.ioDraws = s.ioDraws) ∧
  (∀ (s t : State) (b : Word) (n : Nat), exec .assemble s = .next t →
    t.result = .fault (.rangeOverflow b n) →
    (0 < (s.src.len + 255) / 256 ∧
        0xFFFFFFFF < s.base.toNat + 256 * ((s.src.len + 255) / 256 - 1)) ∨
      0xFFFFFFFF < (s.src.len + 255) / 256)

/-- Rule R129: a zero-length image gives the empty container and `ok`, whatever `BASE`; it is no fault unless
the commit fails. -/
def Obligations.AssembleOfNothingIsEmpty : Prop :=
  ∀ s : State, s.src.len = 0 → NoFailure s 1 →
    ∃ t, exec .assemble s = .next t ∧ t.result = .ok .noValue ∧ t.dst.len = 0 ∧ t.dst.bytes = []

/-- Rule R132, which the spec marks as derived: the fields of every block of a container made by ASSEMBLE. -/
def Obligations.AssembledBlocksHaveTheirFields : Prop :=
  ∀ (s t : State) (k : Nat), s.blk.length = 512 → exec .assemble s = .next t →
    t.result = .ok .noValue → k < (s.src.len + 255) / 256 →
    field t.dst.bytes (512 * k) 4 = le32 0x0A324655 ∧
    field t.dst.bytes (512 * k + 4) 4 = le32 0x9E5D5157 ∧
    field t.dst.bytes (512 * k + 8) 4 = le32 0x00002000 ∧
    (∃ a : Word, a.toNat = s.base.toNat + 256 * k ∧ field t.dst.bytes (512 * k + 12) 4 = le32 a) ∧
    field t.dst.bytes (512 * k + 16) 4 = le32 256 ∧
    (∃ v : Word, v.toNat = k ∧ field t.dst.bytes (512 * k + 20) 4 = le32 v) ∧
    (∃ n : Word, n.toNat = (s.src.len + 255) / 256 ∧ field t.dst.bytes (512 * k + 24) 4 = le32 n) ∧
    field t.dst.bytes (512 * k + 28) 4 = le32 Config.familyId ∧
    field t.dst.bytes (512 * k + 508) 4 = le32 0x0AB16F30 ∧
    field t.dst.bytes (512 * k + 288) 220 = zeros 220

/-- Rule R131, the round-trip law: the first 256 bytes of each block's data region, concatenated in block
order and truncated to the length of `SRC`, are `SRC`; and rule R133's size of the container. -/
def Obligations.ContainerRoundTrip : Prop :=
  ∀ s t : State, s.blk.length = 512 → exec .assemble s = .next t → t.result = .ok .noValue →
    t.dst.len = 512 * ((s.src.len + 255) / 256) ∧
    ((List.range ((s.src.len + 255) / 256)).flatMap
      (fun k => field t.dst.bytes (512 * k + 32) 256)).take s.src.len = s.src.bytes

/-- Rule R124: the chunks are consecutive, non-overlapping, in order, cover every byte once, each 256 bytes
long but possibly the last, which has between 1 and 256; no chunks for no bytes. ASSEMBLE packs exactly
these: one pass of its loop puts chunk `J` of `SRC` into `CHUNK`. -/
def Obligations.ChunksPartitionTheImage : Prop :=
  blockCount 0 = 0 ∧ (∀ s : State, (packChunk s).chunk = chunkBytes s.src.bytes s.j) ∧
  ∀ data : List Byte,
    (List.range (blockCount data.length)).flatMap (chunkBytes data) = data ∧
    (∀ k, k < blockCount data.length →
      chunkBytes data k = field data (256 * k) (min 256 (data.length - 256 * k)) ∧
      1 ≤ (chunkBytes data k).length ∧ (chunkBytes data k).length ≤ 256 ∧
      (k + 1 < blockCount data.length → (chunkBytes data k).length = 256) ∧
      (k + 1 = blockCount data.length →
        (chunkBytes data k).length = data.length - 256 * (blockCount data.length - 1)))

/-- Rule R134 (the spec's decision D16): `DST` changes only by a complete container on `ok`; on any fault it is as the host left it;
and no step of a sequenced ASSEMBLE shows the host a partial container. (That the step which changes `DST` also
leaves the core idle with `RESULT` ok is the model's choice: commit and delivery are one step, log entry 5.) -/
def Obligations.AssembleCommitsWholeOrNotAtAll : Prop :=
  (∀ s t : State, s.blk.length = 512 → exec .assemble s = .next t →
    (t.dst.bytes = container Config.familyId s.base s.src.bytes ∧ t.result = .ok .noValue) ∨
    (t.dst = s.dst ∧ ∃ f, t.result = .fault f)) ∧
  (∀ s t : State, Inv s → s.op = .assemble → step s = .next t →
    t.dst = s.dst ∨
      (t.dst.bytes = container Config.familyId s.base s.src.bytes ∧ t.op = .idle ∧ t.result = .ok .noValue))

/-- Rules R50, R135: for a flash image the host writes `FLASH_BASE` into `BASE`, and the first block's target
address is `FLASH_BASE`, whatever its value, for every image whose range fits from there. -/
def Obligations.FlashImageStartsAtFlashBase : Prop :=
  ∀ s : State, 0 < s.src.len → rangeOverflows Config.flashBase s.src.len = false → s.blk.length = 512 →
    NoFailure s ((s.src.len + 255) / 256 + 1) →
    ∃ t, exec .assemble (hostWrite .baseFlash s) = .next t ∧ t.result = .ok .noValue ∧
      field t.dst.bytes 12 4 = le32 Config.flashBase

/-! ## Buffers and the host's writes -/

/-- Rules R10, R36, with the model's form of a buffer (log entry 3): `MemWrite(S, a, n, bs)` with `a + n <= len(S)` puts `bs` at `a`, changes no other byte
and no length; a write that would leave the buffer changes nothing; equal contents in canonical form are
equal data. -/
def Obligations.BufferWritesAreExact : Prop :=
  (∀ (m : Memory) (a p : Nat) (bs : List Byte), a + bs.length ≤ m.len →
    (m.write a bs).read p = if a ≤ p ∧ p < a + bs.length then bs[p - a]? else m.read p) ∧
  (∀ (m : Memory) (a : Nat) (bs : List Byte),
    (m.write a bs).len = m.len ∧ (m.len < a + bs.length → m.write a bs = m) ∧
      (m.wf = true → (m.write a bs).wf = true)) ∧
  (∀ m m' : Memory, m.wf = true → m'.wf = true → m.bytes = m'.bytes → m = m')

/-- Rules R21, R40, R164 (the spec's decisions D4, D18; that a write marks its register as written is log
entry 6, the operands of a free CRC.RUN log entry 7): between operations the host writes an operand register,
`FLASH_BASE` into `BASE` (duty 4), presents any buffer with its length, copies any buffer to any, or reads a
buffer; nothing else changes. -/
def Obligations.HostWritesBetweenOperations : Prop :=
  ∀ (s : State) (rest : List Input), s.op = .idle →
    (∀ v, s.inputs = .write (.taddr v) :: rest →
      step s = .next { s with inputs := rest, taddr := v, written := { s.written with taddr := true } }) ∧
    (∀ v, s.inputs = .write (.blkno v) :: rest →
      step s = .next { s with inputs := rest, blkno := v, written := { s.written with blkno := true } }) ∧
    (∀ v, s.inputs = .write (.nblk v) :: rest →
      step s = .next { s with inputs := rest, nblk := v, written := { s.written with nblk := true } }) ∧
    (∀ v, s.inputs = .write (.base v) :: rest →
      step s = .next { s with inputs := rest, base := v, written := { s.written with base := true } }) ∧
    (s.inputs = .write .baseFlash :: rest →
      step s = .next
        { s with inputs := rest, base := Config.flashBase, written := { s.written with base := true } }) ∧
    (∀ bs, s.inputs = .write (.chunk bs) :: rest →
      step s = .next { s with inputs := rest, chunk := bs, written := { s.written with chunk := true } }) ∧
    (∀ run, s.inputs = .write (.range run) :: rest → step s = .next { s with inputs := rest, run := run }) ∧
    (∀ b bs, s.inputs = .write (.buffer b bs) :: rest →
      ∃ t, step s = .next t ∧ (t.buffer b).bytes = bs ∧ (t.buffer b).len = bs.length ∧
        (t.buffer b).wf = true ∧ (∀ c, c ≠ b → t.buffer c = s.buffer c) ∧
        t = { s with inputs := rest, art := t.art, src := t.src, dst := t.dst }) ∧
    (∀ x y, s.inputs = .write (.copy x y) :: rest →
      ∃ t, step s = .next t ∧ t.buffer y = s.buffer x ∧ (∀ c, c ≠ y → t.buffer c = s.buffer c) ∧
        t = { s with inputs := rest, art := t.art, src := t.src, dst := t.dst }) ∧
    (∀ b, s.inputs = .read b :: rest → step s = .next { s with inputs := rest })
end

