-- ==== Sys2Proof/Laws/Memory.lean ====
section
/-! SUPPORT. Laws of buffers: what each memory operation answers, and that each keeps the canonical form. -/

namespace Sys2Proof.Machine

/-! ### Reading -/

@[simp] theorem Memory.len_ofBytes (bs : List Byte) : (Memory.ofBytes bs).len = bs.length := rfl

@[simp] theorem Memory.length_bytes (m : Memory) : m.bytes.length = m.len := by
  simp [Memory.bytes]

/-- A byte read is the byte at that place of the whole contents. -/
theorem Memory.read_eq_bytes (m : Memory) (a : Nat) : m.read a = m.bytes[a]? := by
  by_cases h : a < m.len
  · simp [Memory.read, Memory.bytes, h]
  · simp [Memory.read, Memory.bytes, h]

/-- An address below all cells of a tail reads as unlisted. -/
theorem Memory.lookup_cellsOf_below (bs : List Byte) (a p : Nat) (h : p < a) :
    Memory.lookup p (Memory.cellsOf a bs) = Config.unlistedByte := by
  induction bs generalizing a with
  | nil => rfl
  | cons b bs ih =>
    unfold Memory.cellsOf
    split
    · exact ih (a + 1) (by omega)
    · simp only [Memory.lookup]
      rw [if_neg (by omega)]
      exact ih (a + 1) (by omega)

/-- The cells of `bs` from `a` on read back as `bs`. -/
theorem Memory.lookup_cellsOf (bs : List Byte) (a p : Nat) :
    Memory.lookup (a + p) (Memory.cellsOf a bs) = bs.getD p Config.unlistedByte := by
  induction bs generalizing a p with
  | nil => simp [Memory.cellsOf, Memory.lookup]
  | cons b bs ih =>
    unfold Memory.cellsOf
    cases p with
    | zero =>
      split
      · next h => simp [Memory.lookup_cellsOf_below bs (a + 1) a (by omega), h]
      · simp [Memory.lookup]
    | succ p =>
      have e : a + (p + 1) = a + 1 + p := by omega
      split
      · rw [e, ih]; simp
      · simp only [Memory.lookup]
        rw [if_neg (by omega), e, ih]; simp

/-- A buffer made of bytes holds those bytes. -/
@[simp] theorem Memory.bytes_ofBytes (bs : List Byte) : (Memory.ofBytes bs).bytes = bs := by
  apply List.ext_getElem
  · simp
  · intro p h1 h2
    have := Memory.lookup_cellsOf bs 0 p
    simp only [Nat.zero_add] at this
    simp [Memory.bytes, Memory.ofBytes, this, List.getD_eq_getElem?_getD, List.getElem?_eq_getElem h2]

/-- What `MemRead` answers. -/
theorem Memory.slice_eq_some {m : Memory} {a n : Nat} {bs : List Byte} :
    m.slice a n = some bs ↔ a + n ≤ m.len ∧ bs = (m.bytes.drop a).take n := by
  unfold Memory.slice
  split <;> simp_all [eq_comm]

/-- A slice has the length asked for. -/
theorem Memory.slice_length {m : Memory} {a n : Nat} {bs : List Byte} (h : m.slice a n = some bs) :
    bs.length = n := by
  obtain ⟨hle, rfl⟩ := Memory.slice_eq_some.mp h
  simp; omega

/-- The whole buffer as a slice. -/
@[simp] theorem Memory.slice_all (m : Memory) : m.slice 0 m.len = some m.bytes := by
  rw [Memory.slice_eq_some]
  exact ⟨by simp, by rw [List.drop_zero, List.take_of_length_le (by simp)]⟩

/-- The first bytes of a buffer as a slice. -/
theorem Memory.slice_first {m : Memory} {n : Nat} (h : n ≤ m.len) : m.slice 0 n = some (m.bytes.take n) := by
  simp [Memory.slice, h]

/-! ### Writing -/

@[simp] theorem splice_length {a : Nat} {bs old : List Byte} (h : a + bs.length ≤ old.length) :
    (splice a bs old).length = old.length := by
  simp [splice]; omega

/-- `MemWrite` inside the buffer: its whole contents afterwards. -/
theorem Memory.bytes_write {m : Memory} {a : Nat} {bs : List Byte} (h : a + bs.length ≤ m.len) :
    (m.write a bs).bytes = splice a bs m.bytes := by
  simp [Memory.write, h]

/-- A write never changes a length (rule R36). -/
@[simp] theorem Memory.len_write (m : Memory) (a : Nat) (bs : List Byte) : (m.write a bs).len = m.len := by
  unfold Memory.write
  split
  · simp only [Memory.len_ofBytes]
    rw [splice_length (by simpa using ‹_›), Memory.length_bytes]
  · rfl

/-- The bytes written, read back. -/
theorem splice_getElem_inside {a p : Nat} {bs old : List Byte} (ha : a ≤ old.length)
    (h1 : a ≤ p) (h2 : p < a + bs.length) : (splice a bs old)[p]? = bs[p - a]? := by
  have hl : (old.take a).length = a := by simp [ha]
  rw [splice, List.append_assoc, List.getElem?_append_right (by omega), hl,
    List.getElem?_append_left (by omega)]

/-- The bytes a splice leaves alone. -/
theorem splice_getElem_outside {a p : Nat} {bs old : List Byte} (ha : a + bs.length ≤ old.length)
    (h : p < a ∨ a + bs.length ≤ p) : (splice a bs old)[p]? = old[p]? := by
  have hl : (old.take a).length = a := by simp; omega
  rw [splice, List.append_assoc]
  rcases h with h | h
  · rw [List.getElem?_append_left (by omega), List.getElem?_take_of_lt h]
  · rw [List.getElem?_append_right (by omega), hl, List.getElem?_append_right (by omega),
      List.getElem?_drop]
    congr 1
    omega

/-- Read after write at another place. -/
theorem Memory.read_write_outside (m : Memory) {a p : Nat} {bs : List Byte}
    (h : p < a ∨ a + bs.length ≤ p) : (m.write a bs).read p = m.read p := by
  by_cases hle : a + bs.length ≤ m.len
  · rw [Memory.read_eq_bytes, Memory.read_eq_bytes, Memory.bytes_write hle,
      splice_getElem_outside (by simpa using hle) h]
  · simp [Memory.write, hle]

/-- Read after write at a place written. -/
theorem Memory.read_write_inside (m : Memory) {a p : Nat} {bs : List Byte}
    (hle : a + bs.length ≤ m.len) (h1 : a ≤ p) (h2 : p < a + bs.length) :
    (m.write a bs).read p = bs[p - a]? := by
  rw [Memory.read_eq_bytes, Memory.bytes_write hle, splice_getElem_inside (by simp; omega) h1 h2]

/-! ### The canonical form -/

theorem Memory.cellsWf_cellsOf (bs : List Byte) (a lo hi : Nat) (hlo : lo ≤ a) (hhi : a + bs.length ≤ hi) :
    Memory.cellsWf lo hi (Memory.cellsOf a bs) = true := by
  induction bs generalizing a lo with
  | nil => rfl
  | cons b bs ih =>
    simp only [List.length_cons] at hhi
    unfold Memory.cellsOf
    split
    · exact ih (a + 1) lo (by omega) (by omega)
    · next hb =>
      simp only [Memory.cellsWf, Bool.and_eq_true, decide_eq_true_eq]
      exact ⟨⟨⟨hlo, by omega⟩, hb⟩, ih (a + 1) (a + 1) (le_refl _) (by omega)⟩

/-- A buffer made of bytes is in canonical form. -/
@[simp] theorem Memory.wf_ofBytes (bs : List Byte) : (Memory.ofBytes bs).wf = true :=
  Memory.cellsWf_cellsOf bs 0 0 bs.length (le_refl _) (by simp)

/-- A write keeps the canonical form. -/
theorem Memory.wf_write {m : Memory} (h : m.wf = true) (a : Nat) (bs : List Byte) :
    (m.write a bs).wf = true := by
  unfold Memory.write
  split
  · simp
  · exact h

@[simp] theorem Memory.wf_empty : Memory.empty.wf = true := rfl

/-- Replacing one buffer by one in canonical form keeps every buffer's form. -/
theorem setBuffer_wf {s : State} {b c : BufferId} {m : Memory} (h : ∀ d, (s.buffer d).wf = true)
    (hm : m.wf = true) : ((s.setBuffer b m).buffer c).wf = true := by
  have ha := h .art
  have hs := h .src
  have hd := h .dst
  cases b <;> cases c <;> assumption

/-- Cells outside the canonical range do not occur: a listed address is in the buffer. -/
theorem Memory.cellsWf_bounds {lo hi : Nat} {cs : List Host.Cell} (h : Memory.cellsWf lo hi cs = true) :
    ∀ c ∈ cs, lo ≤ c.1 ∧ c.1 < hi ∧ c.2 ≠ Config.unlistedByte := by
  induction cs generalizing lo with
  | nil => simp
  | cons d ds ih =>
    simp only [Memory.cellsWf, Bool.and_eq_true, decide_eq_true_eq] at h
    obtain ⟨⟨⟨h1, h2⟩, h3⟩, h4⟩ := h
    intro c hc
    rcases List.mem_cons.mp hc with rfl | hc
    · exact ⟨h1, h2, h3⟩
    · obtain ⟨k1, k2, k3⟩ := ih h4 c hc
      exact ⟨by omega, k2, k3⟩

/-- Cells in canonical form that all stand from `a` on are the cells of the bytes they read as. -/
theorem Memory.cellsOf_lookup (n a : Nat) (cs : List Host.Cell) (h : Memory.cellsWf a (a + n) cs = true) :
    Memory.cellsOf a ((List.range n).map fun p => Memory.lookup (a + p) cs) = cs := by
  induction n generalizing a cs with
  | zero =>
    cases cs with
    | nil => rfl
    | cons c cs =>
      have := Memory.cellsWf_bounds h c (by simp)
      omega
  | succ n ih =>
    have hshift : ∀ ds : List Host.Cell, (fun p => Memory.lookup (a + p) ds) ∘ Nat.succ =
        fun p => Memory.lookup (a + 1 + p) ds := by
      intro ds; funext p; simp only [Function.comp]; congr 1; omega
    rw [List.range_succ_eq_map, List.map_cons, List.map_map, hshift]
    by_cases hc : Memory.lookup a cs = Config.unlistedByte
    · have hwf : Memory.cellsWf (a + 1) (a + 1 + n) cs = true := by
        cases cs with
        | nil => rfl
        | cons c cs =>
          simp only [Memory.cellsWf, Bool.and_eq_true, decide_eq_true_eq] at h ⊢
          obtain ⟨⟨⟨h1, h2⟩, h3⟩, h4⟩ := h
          have hne : c.1 ≠ a := fun e => h3 (by simpa [Memory.lookup, e] using hc)
          refine ⟨⟨⟨by omega, by omega⟩, h3⟩, ?_⟩
          rw [show a + 1 + n = a + (n + 1) by omega]
          exact h4
      simp only [Memory.cellsOf, Nat.add_zero, hc, if_true]
      exact ih (a + 1) cs hwf
    · cases cs with
      | nil => exact absurd rfl hc
      | cons c cs =>
        have hb := Memory.cellsWf_bounds h
        have hca : c.1 = a := by
          by_contra hne
          apply hc
          simp only [Memory.lookup, if_neg hne]
          have hlow : ∀ d ∈ cs, d.1 ≠ a := by
            intro d hd
            simp only [Memory.cellsWf, Bool.and_eq_true, decide_eq_true_eq] at h
            have := (Memory.cellsWf_bounds h.2 d hd).1
            omega
          clear hc hb h ih hne
          induction cs with
          | nil => rfl
          | cons d ds ihd =>
            simp only [Memory.lookup, if_neg (hlow d (by simp))]
            exact ihd fun e he => hlow e (List.mem_cons_of_mem _ he)
        obtain ⟨c1, c2⟩ := c
        simp only at hca
        subst hca
        simp only [Memory.cellsWf, Bool.and_eq_true, decide_eq_true_eq] at h
        obtain ⟨⟨_, h3⟩, h4⟩ := h
        have htail : (fun p => Memory.lookup (c1 + 1 + p) ((c1, c2) :: cs)) =
            fun p => Memory.lookup (c1 + 1 + p) cs := by
          funext p; simp only [Memory.lookup]; rw [if_neg (by omega)]
        simp only [Memory.cellsOf, Nat.add_zero, htail]
        rw [show Memory.lookup c1 ((c1, c2) :: cs) = c2 by simp [Memory.lookup], if_neg h3,
          ih (c1 + 1) cs (by rw [show c1 + 1 + n = c1 + (n + 1) by omega]; exact h4)]

/-- A buffer in canonical form is the buffer made of its bytes. -/
theorem Memory.ofBytes_bytes {m : Memory} (h : m.wf = true) : Memory.ofBytes m.bytes = m := by
  have := Memory.cellsOf_lookup m.len 0 m.cells (by simpa [Memory.wf] using h)
  simp only [Nat.zero_add] at this
  show Memory.mk m.bytes.length (Memory.cellsOf 0 m.bytes) = m
  rw [Memory.length_bytes, Memory.bytes, this]

/-- Equal contents are equal data, in canonical form. -/
theorem Memory.ext_bytes {m m' : Memory} (h : m.wf = true) (h' : m'.wf = true) (e : m.bytes = m'.bytes) :
    m = m' := by
  rw [← Memory.ofBytes_bytes h, ← Memory.ofBytes_bytes h', e]

end Sys2Proof.Machine
end

