-- ==== Sys2Proof/Laws/State.lean ====
section
/-! SUPPORT. One lemma per field per update of the state, each true by rfl, so that no proof unfolds a
record update. A field is named after the update that writes it. -/

namespace Sys2Proof.Machine

/-! ### afterAccess -/

@[simp] theorem afterAccess_r (s : State) : s.afterAccess.r = s.r := rfl
@[simp] theorem afterAccess_n (s : State) : s.afterAccess.n = s.n := rfl
@[simp] theorem afterAccess_w (s : State) : s.afterAccess.w = s.w := rfl
@[simp] theorem afterAccess_ck (s : State) : s.afterAccess.ck = s.ck := rfl
@[simp] theorem afterAccess_taddr (s : State) : s.afterAccess.taddr = s.taddr := rfl
@[simp] theorem afterAccess_blkno (s : State) : s.afterAccess.blkno = s.blkno := rfl
@[simp] theorem afterAccess_nblk (s : State) : s.afterAccess.nblk = s.nblk := rfl
@[simp] theorem afterAccess_base (s : State) : s.afterAccess.base = s.base := rfl
@[simp] theorem afterAccess_chunk (s : State) : s.afterAccess.chunk = s.chunk := rfl
@[simp] theorem afterAccess_blk (s : State) : s.afterAccess.blk = s.blk := rfl
@[simp] theorem afterAccess_op (s : State) : s.afterAccess.op = s.op := rfl
@[simp] theorem afterAccess_phase (s : State) : s.afterAccess.phase = s.phase := rfl
@[simp] theorem afterAccess_i (s : State) : s.afterAccess.i = s.i := rfl
@[simp] theorem afterAccess_j (s : State) : s.afterAccess.j = s.j := rfl
@[simp] theorem afterAccess_stage (s : State) : s.afterAccess.stage = s.stage := rfl
@[simp] theorem afterAccess_result (s : State) : s.afterAccess.result = s.result := rfl
@[simp] theorem afterAccess_art (s : State) : s.afterAccess.art = s.art := rfl
@[simp] theorem afterAccess_src (s : State) : s.afterAccess.src = s.src := rfl
@[simp] theorem afterAccess_dst (s : State) : s.afterAccess.dst = s.dst := rfl
@[simp] theorem afterAccess_written (s : State) : s.afterAccess.written = s.written := rfl
@[simp] theorem afterAccess_run (s : State) : s.afterAccess.run = s.run := rfl
@[simp] theorem afterAccess_inputs (s : State) : s.afterAccess.inputs = s.inputs := rfl
@[simp] theorem afterAccess_ioDraws (s : State) : s.afterAccess.ioDraws = s.ioDraws.tail := rfl
@[simp] theorem afterAccess_freeCount (s : State) : s.afterAccess.freeCount = s.freeCount := rfl

/-! ### finish -/

@[simp] theorem finish_r (res : OpResult) (s : State) : (finish res s).r = Config.freeWord s.freeCount 0 := rfl
@[simp] theorem finish_n (res : OpResult) (s : State) : (finish res s).n = BitVec.ofNat 4 (Config.freeBitCount s.freeCount).val := rfl
@[simp] theorem finish_w (res : OpResult) (s : State) : (finish res s).w = Config.freeWord s.freeCount 1 := rfl
@[simp] theorem finish_ck (res : OpResult) (s : State) : (finish res s).ck = freeBytes s.freeCount 0 Config.crcOutLen := rfl
@[simp] theorem finish_taddr (res : OpResult) (s : State) : (finish res s).taddr = if s.op.uses .taddr then Config.freeWord s.freeCount 2 else s.taddr := rfl
@[simp] theorem finish_blkno (res : OpResult) (s : State) : (finish res s).blkno = if s.op.uses .blkno then Config.freeWord s.freeCount 3 else s.blkno := rfl
@[simp] theorem finish_nblk (res : OpResult) (s : State) : (finish res s).nblk = if s.op.uses .nblk then Config.freeWord s.freeCount 4 else s.nblk := rfl
@[simp] theorem finish_base (res : OpResult) (s : State) : (finish res s).base = if s.op.uses .base then Config.freeWord s.freeCount 5 else s.base := rfl
@[simp] theorem finish_chunk (res : OpResult) (s : State) : (finish res s).chunk = if s.op.uses .chunk then freeChunk s.freeCount else s.chunk := rfl
@[simp] theorem finish_blk (res : OpResult) (s : State) : (finish res s).blk = freeBytes s.freeCount Config.crcOutLen Config.uf2BlockLen := by simp only [finish]
@[simp] theorem finish_op (res : OpResult) (s : State) : (finish res s).op = .idle := rfl
@[simp] theorem finish_phase (res : OpResult) (s : State) : (finish res s).phase = .done := rfl
@[simp] theorem finish_i (res : OpResult) (s : State) : (finish res s).i = Config.freeIndex s.freeCount 0 := rfl
@[simp] theorem finish_j (res : OpResult) (s : State) : (finish res s).j = Config.freeIndex s.freeCount 1 := rfl
@[simp] theorem finish_stage (res : OpResult) (s : State) : (finish res s).stage = [] := rfl
@[simp] theorem finish_result (res : OpResult) (s : State) : (finish res s).result = res := rfl
@[simp] theorem finish_art (res : OpResult) (s : State) : (finish res s).art = s.art := rfl
@[simp] theorem finish_src (res : OpResult) (s : State) : (finish res s).src = s.src := rfl
@[simp] theorem finish_dst (res : OpResult) (s : State) : (finish res s).dst = s.dst := rfl
@[simp] theorem finish_written (res : OpResult) (s : State) : (finish res s).written = s.written := rfl
@[simp] theorem finish_run (res : OpResult) (s : State) : (finish res s).run = if s.op.runsEngine then .none else s.run := rfl
@[simp] theorem finish_inputs (res : OpResult) (s : State) : (finish res s).inputs = s.inputs := rfl
@[simp] theorem finish_ioDraws (res : OpResult) (s : State) : (finish res s).ioDraws = s.ioDraws := rfl
@[simp] theorem finish_freeCount (res : OpResult) (s : State) : (finish res s).freeCount = s.freeCount + 1 := rfl

/-! ### engineSeed -/

@[simp] theorem engineSeed_r (s : State) : (engineSeed s).r = Config.crcInit := rfl
@[simp] theorem engineSeed_n (s : State) : (engineSeed s).n = s.n := rfl
@[simp] theorem engineSeed_w (s : State) : (engineSeed s).w = s.w := rfl
@[simp] theorem engineSeed_ck (s : State) : (engineSeed s).ck = s.ck := rfl
@[simp] theorem engineSeed_taddr (s : State) : (engineSeed s).taddr = s.taddr := rfl
@[simp] theorem engineSeed_blkno (s : State) : (engineSeed s).blkno = s.blkno := rfl
@[simp] theorem engineSeed_nblk (s : State) : (engineSeed s).nblk = s.nblk := rfl
@[simp] theorem engineSeed_base (s : State) : (engineSeed s).base = s.base := rfl
@[simp] theorem engineSeed_chunk (s : State) : (engineSeed s).chunk = s.chunk := rfl
@[simp] theorem engineSeed_blk (s : State) : (engineSeed s).blk = s.blk := rfl
@[simp] theorem engineSeed_op (s : State) : (engineSeed s).op = s.op := rfl
@[simp] theorem engineSeed_phase (s : State) : (engineSeed s).phase = s.phase := rfl
@[simp] theorem engineSeed_i (s : State) : (engineSeed s).i = s.i := rfl
@[simp] theorem engineSeed_j (s : State) : (engineSeed s).j = s.j := rfl
@[simp] theorem engineSeed_stage (s : State) : (engineSeed s).stage = s.stage := rfl
@[simp] theorem engineSeed_result (s : State) : (engineSeed s).result = s.result := rfl
@[simp] theorem engineSeed_art (s : State) : (engineSeed s).art = s.art := rfl
@[simp] theorem engineSeed_src (s : State) : (engineSeed s).src = s.src := rfl
@[simp] theorem engineSeed_dst (s : State) : (engineSeed s).dst = s.dst := rfl
@[simp] theorem engineSeed_written (s : State) : (engineSeed s).written = s.written := rfl
@[simp] theorem engineSeed_run (s : State) : (engineSeed s).run = s.run := rfl
@[simp] theorem engineSeed_inputs (s : State) : (engineSeed s).inputs = s.inputs := rfl
@[simp] theorem engineSeed_ioDraws (s : State) : (engineSeed s).ioDraws = s.ioDraws := rfl
@[simp] theorem engineSeed_freeCount (s : State) : (engineSeed s).freeCount = s.freeCount := rfl

/-! ### engineLoad -/

@[simp] theorem engineLoad_r (b : Byte) (s : State) : (engineLoad b s).r = s.r := rfl
@[simp] theorem engineLoad_n (b : Byte) (s : State) : (engineLoad b s).n = 8 := rfl
@[simp] theorem engineLoad_w (b : Byte) (s : State) : (engineLoad b s).w = loadWord b := rfl
@[simp] theorem engineLoad_ck (b : Byte) (s : State) : (engineLoad b s).ck = s.ck := rfl
@[simp] theorem engineLoad_taddr (b : Byte) (s : State) : (engineLoad b s).taddr = s.taddr := rfl
@[simp] theorem engineLoad_blkno (b : Byte) (s : State) : (engineLoad b s).blkno = s.blkno := rfl
@[simp] theorem engineLoad_nblk (b : Byte) (s : State) : (engineLoad b s).nblk = s.nblk := rfl
@[simp] theorem engineLoad_base (b : Byte) (s : State) : (engineLoad b s).base = s.base := rfl
@[simp] theorem engineLoad_chunk (b : Byte) (s : State) : (engineLoad b s).chunk = s.chunk := rfl
@[simp] theorem engineLoad_blk (b : Byte) (s : State) : (engineLoad b s).blk = s.blk := rfl
@[simp] theorem engineLoad_op (b : Byte) (s : State) : (engineLoad b s).op = s.op := rfl
@[simp] theorem engineLoad_phase (b : Byte) (s : State) : (engineLoad b s).phase = s.phase := rfl
@[simp] theorem engineLoad_i (b : Byte) (s : State) : (engineLoad b s).i = s.i := rfl
@[simp] theorem engineLoad_j (b : Byte) (s : State) : (engineLoad b s).j = s.j := rfl
@[simp] theorem engineLoad_stage (b : Byte) (s : State) : (engineLoad b s).stage = s.stage := rfl
@[simp] theorem engineLoad_result (b : Byte) (s : State) : (engineLoad b s).result = s.result := rfl
@[simp] theorem engineLoad_art (b : Byte) (s : State) : (engineLoad b s).art = s.art := rfl
@[simp] theorem engineLoad_src (b : Byte) (s : State) : (engineLoad b s).src = s.src := rfl
@[simp] theorem engineLoad_dst (b : Byte) (s : State) : (engineLoad b s).dst = s.dst := rfl
@[simp] theorem engineLoad_written (b : Byte) (s : State) : (engineLoad b s).written = s.written := rfl
@[simp] theorem engineLoad_run (b : Byte) (s : State) : (engineLoad b s).run = s.run := rfl
@[simp] theorem engineLoad_inputs (b : Byte) (s : State) : (engineLoad b s).inputs = s.inputs := rfl
@[simp] theorem engineLoad_ioDraws (b : Byte) (s : State) : (engineLoad b s).ioDraws = s.ioDraws := rfl
@[simp] theorem engineLoad_freeCount (b : Byte) (s : State) : (engineLoad b s).freeCount = s.freeCount := rfl

/-! ### engineBit -/

@[simp] theorem engineBit_r (s : State) : (engineBit s).r = bitStep s.r s.w := rfl
@[simp] theorem engineBit_n (s : State) : (engineBit s).n = s.n - 1 := rfl
@[simp] theorem engineBit_w (s : State) : (engineBit s).w = s.w <<< 1 := rfl
@[simp] theorem engineBit_ck (s : State) : (engineBit s).ck = s.ck := rfl
@[simp] theorem engineBit_taddr (s : State) : (engineBit s).taddr = s.taddr := rfl
@[simp] theorem engineBit_blkno (s : State) : (engineBit s).blkno = s.blkno := rfl
@[simp] theorem engineBit_nblk (s : State) : (engineBit s).nblk = s.nblk := rfl
@[simp] theorem engineBit_base (s : State) : (engineBit s).base = s.base := rfl
@[simp] theorem engineBit_chunk (s : State) : (engineBit s).chunk = s.chunk := rfl
@[simp] theorem engineBit_blk (s : State) : (engineBit s).blk = s.blk := rfl
@[simp] theorem engineBit_op (s : State) : (engineBit s).op = s.op := rfl
@[simp] theorem engineBit_phase (s : State) : (engineBit s).phase = s.phase := rfl
@[simp] theorem engineBit_i (s : State) : (engineBit s).i = s.i := rfl
@[simp] theorem engineBit_j (s : State) : (engineBit s).j = s.j := rfl
@[simp] theorem engineBit_stage (s : State) : (engineBit s).stage = s.stage := rfl
@[simp] theorem engineBit_result (s : State) : (engineBit s).result = s.result := rfl
@[simp] theorem engineBit_art (s : State) : (engineBit s).art = s.art := rfl
@[simp] theorem engineBit_src (s : State) : (engineBit s).src = s.src := rfl
@[simp] theorem engineBit_dst (s : State) : (engineBit s).dst = s.dst := rfl
@[simp] theorem engineBit_written (s : State) : (engineBit s).written = s.written := rfl
@[simp] theorem engineBit_run (s : State) : (engineBit s).run = s.run := rfl
@[simp] theorem engineBit_inputs (s : State) : (engineBit s).inputs = s.inputs := rfl
@[simp] theorem engineBit_ioDraws (s : State) : (engineBit s).ioDraws = s.ioDraws := rfl
@[simp] theorem engineBit_freeCount (s : State) : (engineBit s).freeCount = s.freeCount := rfl

/-! ### engineSer -/

@[simp] theorem engineSer_r (s : State) : (engineSer s).r = s.r := rfl
@[simp] theorem engineSer_n (s : State) : (engineSer s).n = s.n := rfl
@[simp] theorem engineSer_w (s : State) : (engineSer s).w = s.w := rfl
@[simp] theorem engineSer_ck (s : State) : (engineSer s).ck = le32 s.r := rfl
@[simp] theorem engineSer_taddr (s : State) : (engineSer s).taddr = s.taddr := rfl
@[simp] theorem engineSer_blkno (s : State) : (engineSer s).blkno = s.blkno := rfl
@[simp] theorem engineSer_nblk (s : State) : (engineSer s).nblk = s.nblk := rfl
@[simp] theorem engineSer_base (s : State) : (engineSer s).base = s.base := rfl
@[simp] theorem engineSer_chunk (s : State) : (engineSer s).chunk = s.chunk := rfl
@[simp] theorem engineSer_blk (s : State) : (engineSer s).blk = s.blk := rfl
@[simp] theorem engineSer_op (s : State) : (engineSer s).op = s.op := rfl
@[simp] theorem engineSer_phase (s : State) : (engineSer s).phase = s.phase := rfl
@[simp] theorem engineSer_i (s : State) : (engineSer s).i = s.i := rfl
@[simp] theorem engineSer_j (s : State) : (engineSer s).j = s.j := rfl
@[simp] theorem engineSer_stage (s : State) : (engineSer s).stage = s.stage := rfl
@[simp] theorem engineSer_result (s : State) : (engineSer s).result = s.result := rfl
@[simp] theorem engineSer_art (s : State) : (engineSer s).art = s.art := rfl
@[simp] theorem engineSer_src (s : State) : (engineSer s).src = s.src := rfl
@[simp] theorem engineSer_dst (s : State) : (engineSer s).dst = s.dst := rfl
@[simp] theorem engineSer_written (s : State) : (engineSer s).written = s.written := rfl
@[simp] theorem engineSer_run (s : State) : (engineSer s).run = s.run := rfl
@[simp] theorem engineSer_inputs (s : State) : (engineSer s).inputs = s.inputs := rfl
@[simp] theorem engineSer_ioDraws (s : State) : (engineSer s).ioDraws = s.ioDraws := rfl
@[simp] theorem engineSer_freeCount (s : State) : (engineSer s).freeCount = s.freeCount := rfl

/-! ### packBlock -/

@[simp] theorem packBlock_r (s : State) : (packBlock s).r = s.r := rfl
@[simp] theorem packBlock_n (s : State) : (packBlock s).n = s.n := rfl
@[simp] theorem packBlock_w (s : State) : (packBlock s).w = s.w := rfl
@[simp] theorem packBlock_ck (s : State) : (packBlock s).ck = s.ck := rfl
@[simp] theorem packBlock_taddr (s : State) : (packBlock s).taddr = s.taddr := rfl
@[simp] theorem packBlock_blkno (s : State) : (packBlock s).blkno = s.blkno := rfl
@[simp] theorem packBlock_nblk (s : State) : (packBlock s).nblk = s.nblk := rfl
@[simp] theorem packBlock_base (s : State) : (packBlock s).base = s.base := rfl
@[simp] theorem packBlock_chunk (s : State) : (packBlock s).chunk = s.chunk := rfl
@[simp] theorem packBlock_blk (s : State) : (packBlock s).blk = writeAll (blockWrites s) s.blk := rfl
@[simp] theorem packBlock_op (s : State) : (packBlock s).op = s.op := rfl
@[simp] theorem packBlock_phase (s : State) : (packBlock s).phase = s.phase := rfl
@[simp] theorem packBlock_i (s : State) : (packBlock s).i = s.i := rfl
@[simp] theorem packBlock_j (s : State) : (packBlock s).j = s.j := rfl
@[simp] theorem packBlock_stage (s : State) : (packBlock s).stage = s.stage := rfl
@[simp] theorem packBlock_result (s : State) : (packBlock s).result = s.result := rfl
@[simp] theorem packBlock_art (s : State) : (packBlock s).art = s.art := rfl
@[simp] theorem packBlock_src (s : State) : (packBlock s).src = s.src := rfl
@[simp] theorem packBlock_dst (s : State) : (packBlock s).dst = s.dst := rfl
@[simp] theorem packBlock_written (s : State) : (packBlock s).written = s.written := rfl
@[simp] theorem packBlock_run (s : State) : (packBlock s).run = s.run := rfl
@[simp] theorem packBlock_inputs (s : State) : (packBlock s).inputs = s.inputs := rfl
@[simp] theorem packBlock_ioDraws (s : State) : (packBlock s).ioDraws = s.ioDraws := rfl
@[simp] theorem packBlock_freeCount (s : State) : (packBlock s).freeCount = s.freeCount := rfl

/-! ### packChunk -/

@[simp] theorem packChunk_r (s : State) : (packChunk s).r = s.r := rfl
@[simp] theorem packChunk_n (s : State) : (packChunk s).n = s.n := rfl
@[simp] theorem packChunk_w (s : State) : (packChunk s).w = s.w := rfl
@[simp] theorem packChunk_ck (s : State) : (packChunk s).ck = s.ck := rfl
@[simp] theorem packChunk_taddr (s : State) : (packChunk s).taddr = blockAddress s.base s.j := rfl
@[simp] theorem packChunk_blkno (s : State) : (packChunk s).blkno = BitVec.ofNat 32 s.j := rfl
@[simp] theorem packChunk_nblk (s : State) : (packChunk s).nblk = BitVec.ofNat 32 (blockCount s.src.len) := rfl
@[simp] theorem packChunk_base (s : State) : (packChunk s).base = s.base := rfl
@[simp] theorem packChunk_chunk (s : State) : (packChunk s).chunk = chunkBytes s.src.bytes s.j := rfl
@[simp] theorem packChunk_op (s : State) : (packChunk s).op = s.op := rfl
@[simp] theorem packChunk_phase (s : State) : (packChunk s).phase = s.phase := rfl
@[simp] theorem packChunk_i (s : State) : (packChunk s).i = s.i := rfl
@[simp] theorem packChunk_j (s : State) : (packChunk s).j = s.j + 1 := rfl
@[simp] theorem packChunk_stage (s : State) : (packChunk s).stage = s.stage ++ (packChunk s).blk := rfl
@[simp] theorem packChunk_result (s : State) : (packChunk s).result = s.result := rfl
@[simp] theorem packChunk_art (s : State) : (packChunk s).art = s.art := rfl
@[simp] theorem packChunk_src (s : State) : (packChunk s).src = s.src := rfl
@[simp] theorem packChunk_dst (s : State) : (packChunk s).dst = s.dst := rfl
@[simp] theorem packChunk_written (s : State) : (packChunk s).written = s.written := rfl
@[simp] theorem packChunk_run (s : State) : (packChunk s).run = s.run := rfl
@[simp] theorem packChunk_inputs (s : State) : (packChunk s).inputs = s.inputs := rfl
@[simp] theorem packChunk_ioDraws (s : State) : (packChunk s).ioDraws = s.ioDraws := rfl
@[simp] theorem packChunk_freeCount (s : State) : (packChunk s).freeCount = s.freeCount := rfl

/-! ### accept -/

@[simp] theorem accept_r (o : Instr) (s : State) : (accept o s).r = s.r := rfl
@[simp] theorem accept_n (o : Instr) (s : State) : (accept o s).n = 0 := rfl
@[simp] theorem accept_w (o : Instr) (s : State) : (accept o s).w = s.w := rfl
@[simp] theorem accept_ck (o : Instr) (s : State) : (accept o s).ck = s.ck := rfl
@[simp] theorem accept_taddr (o : Instr) (s : State) : (accept o s).taddr = s.taddr := rfl
@[simp] theorem accept_blkno (o : Instr) (s : State) : (accept o s).blkno = s.blkno := rfl
@[simp] theorem accept_nblk (o : Instr) (s : State) : (accept o s).nblk = s.nblk := rfl
@[simp] theorem accept_base (o : Instr) (s : State) : (accept o s).base = s.base := rfl
@[simp] theorem accept_chunk (o : Instr) (s : State) : (accept o s).chunk = s.chunk := rfl
@[simp] theorem accept_blk (o : Instr) (s : State) : (accept o s).blk = s.blk := rfl
@[simp] theorem accept_op (o : Instr) (s : State) : (accept o s).op = operationOf o := rfl
@[simp] theorem accept_phase (o : Instr) (s : State) : (accept o s).phase = .check := rfl
@[simp] theorem accept_i (o : Instr) (s : State) : (accept o s).i = 0 := rfl
@[simp] theorem accept_j (o : Instr) (s : State) : (accept o s).j = 0 := rfl
@[simp] theorem accept_stage (o : Instr) (s : State) : (accept o s).stage = [] := rfl
@[simp] theorem accept_result (o : Instr) (s : State) : (accept o s).result = s.result := rfl
@[simp] theorem accept_art (o : Instr) (s : State) : (accept o s).art = s.art := rfl
@[simp] theorem accept_src (o : Instr) (s : State) : (accept o s).src = s.src := rfl
@[simp] theorem accept_dst (o : Instr) (s : State) : (accept o s).dst = s.dst := rfl
@[simp] theorem accept_written (o : Instr) (s : State) : (accept o s).written = s.written := rfl
@[simp] theorem accept_run (o : Instr) (s : State) : (accept o s).run = s.run := rfl
@[simp] theorem accept_inputs (o : Instr) (s : State) : (accept o s).inputs = s.inputs := rfl
@[simp] theorem accept_ioDraws (o : Instr) (s : State) : (accept o s).ioDraws = s.ioDraws := rfl
@[simp] theorem accept_freeCount (o : Instr) (s : State) : (accept o s).freeCount = s.freeCount := rfl

/-! ### resetCore -/

/-- Of an idle core a reset sets nothing but what every operation sets before it reads it, and `RESULT`. -/
theorem resetCore_idle {s : State} (h : s.op = .idle) :
    resetCore s =
      { s with
        r := State.reset.r, n := State.reset.n, w := State.reset.w, ck := State.reset.ck
        blk := State.reset.blk, op := State.reset.op, phase := State.reset.phase
        i := State.reset.i, j := State.reset.j, stage := State.reset.stage, result := .ok .noValue } := by
  simp only [resetCore, if_pos h]

@[simp] theorem resetCore_r (s : State) : (resetCore s).r = State.reset.r := rfl
@[simp] theorem resetCore_n (s : State) : (resetCore s).n = State.reset.n := rfl
@[simp] theorem resetCore_w (s : State) : (resetCore s).w = State.reset.w := rfl
@[simp] theorem resetCore_ck (s : State) : (resetCore s).ck = State.reset.ck := rfl
@[simp] theorem resetCore_blk (s : State) : (resetCore s).blk = State.reset.blk := rfl
@[simp] theorem resetCore_op (s : State) : (resetCore s).op = State.reset.op := rfl
@[simp] theorem resetCore_phase (s : State) : (resetCore s).phase = State.reset.phase := rfl
@[simp] theorem resetCore_i (s : State) : (resetCore s).i = State.reset.i := rfl
@[simp] theorem resetCore_j (s : State) : (resetCore s).j = State.reset.j := rfl
@[simp] theorem resetCore_stage (s : State) : (resetCore s).stage = State.reset.stage := rfl
@[simp] theorem resetCore_taddr (s : State) : (resetCore s).taddr = if s.op.uses .taddr then Config.freeWord s.freeCount 2 else s.taddr := by
  by_cases h : s.op = .idle <;> simp [resetCore, h, takeFault, finish, Operation.uses]
@[simp] theorem resetCore_blkno (s : State) : (resetCore s).blkno = if s.op.uses .blkno then Config.freeWord s.freeCount 3 else s.blkno := by
  by_cases h : s.op = .idle <;> simp [resetCore, h, takeFault, finish, Operation.uses]
@[simp] theorem resetCore_nblk (s : State) : (resetCore s).nblk = if s.op.uses .nblk then Config.freeWord s.freeCount 4 else s.nblk := by
  by_cases h : s.op = .idle <;> simp [resetCore, h, takeFault, finish, Operation.uses]
@[simp] theorem resetCore_base (s : State) : (resetCore s).base = if s.op.uses .base then Config.freeWord s.freeCount 5 else s.base := by
  by_cases h : s.op = .idle <;> simp [resetCore, h, takeFault, finish, Operation.uses]
@[simp] theorem resetCore_chunk (s : State) : (resetCore s).chunk = if s.op.uses .chunk then freeChunk s.freeCount else s.chunk := by
  by_cases h : s.op = .idle <;> simp [resetCore, h, takeFault, finish, Operation.uses]
@[simp] theorem resetCore_run (s : State) : (resetCore s).run = if s.op.runsEngine then .none else s.run := by
  by_cases h : s.op = .idle <;> simp [resetCore, h, takeFault, finish, Operation.runsEngine]
@[simp] theorem resetCore_result (s : State) : (resetCore s).result = if s.op = .idle then .ok .noValue else .fault .resetDuringOperation := by unfold resetCore; split <;> rfl
@[simp] theorem resetCore_art (s : State) : (resetCore s).art = s.art := by unfold resetCore; split <;> rfl
@[simp] theorem resetCore_src (s : State) : (resetCore s).src = s.src := by unfold resetCore; split <;> rfl
@[simp] theorem resetCore_dst (s : State) : (resetCore s).dst = s.dst := by unfold resetCore; split <;> rfl
@[simp] theorem resetCore_written (s : State) : (resetCore s).written = s.written := by unfold resetCore; split <;> rfl
@[simp] theorem resetCore_inputs (s : State) : (resetCore s).inputs = s.inputs := by unfold resetCore; split <;> rfl
@[simp] theorem resetCore_ioDraws (s : State) : (resetCore s).ioDraws = s.ioDraws := by unfold resetCore; split <;> rfl
@[simp] theorem resetCore_freeCount (s : State) : (resetCore s).freeCount = if s.op = .idle then s.freeCount else s.freeCount + 1 := by unfold resetCore; split <;> rfl

/-! ### Derived readings and names for the two ends of an operation -/

theorem takeFault_eq (f : OpFault) (s : State) : takeFault f s = finish (.fault f) s := rfl
theorem complete_eq (v : OkValue) (s : State) : complete v s = finish (.ok v) s := rfl
@[simp] theorem buffer_art (s : State) : s.buffer .art = s.art := rfl
@[simp] theorem buffer_src (s : State) : s.buffer .src = s.src := rfl
@[simp] theorem buffer_dst (s : State) : s.buffer .dst = s.dst := rfl
@[simp] theorem afterAccess_buffer (s : State) (x : BufferId) : s.afterAccess.buffer x = s.buffer x := by cases x <;> rfl
@[simp] theorem engineSeed_buffer (s : State) (x : BufferId) : (engineSeed s).buffer x = s.buffer x := by cases x <;> rfl
@[simp] theorem engineLoad_buffer (b : Byte) (s : State) (x : BufferId) : (engineLoad b s).buffer x = s.buffer x := by cases x <;> rfl
@[simp] theorem engineBit_buffer (s : State) (x : BufferId) : (engineBit s).buffer x = s.buffer x := by cases x <;> rfl
@[simp] theorem engineSer_buffer (s : State) (x : BufferId) : (engineSer s).buffer x = s.buffer x := by cases x <;> rfl
@[simp] theorem packBlock_buffer (s : State) (x : BufferId) : (packBlock s).buffer x = s.buffer x := by cases x <;> rfl
@[simp] theorem packChunk_buffer (s : State) (x : BufferId) : (packChunk s).buffer x = s.buffer x := by cases x <;> rfl
@[simp] theorem accept_buffer (o : Instr) (s : State) (x : BufferId) : (accept o s).buffer x = s.buffer x := by cases x <;> rfl
@[simp] theorem length_freeBytes (count start len : Nat) : (freeBytes count start len).length = len := by simp [freeBytes]

end Sys2Proof.Machine
end

