-- ==== Sys2Proof/Laws/Engine.lean ====
section
/-! SUPPORT. What the CRC engine's shared operations do: bit steps, a whole byte, the loop of CRC.RUN with
and without a failing access, and CRC.RUN itself. -/

namespace Sys2Proof.Machine

/-! ### The registers as functions -/

@[simp] theorem bitSteps_zero (r w : Word) : bitSteps 0 r w = r := rfl

theorem bitSteps_succ (k : Nat) (r w : Word) :
    bitSteps (k + 1) r w = bitSteps k (bitStep r w) (w <<< 1) := rfl

/-- A bit step more, at the end. -/
theorem bitSteps_last (k : Nat) (r w : Word) :
    bitSteps (k + 1) r w = bitStep (bitSteps k r w) (w <<< k) := by
  induction k generalizing r w with
  | zero => simp [bitSteps]
  | succ k ih =>
    rw [bitSteps_succ, ih, ← BitVec.shiftLeft_add, ← bitSteps_succ]
    congr 2
    omega

@[simp] theorem crcFrom_nil (r : Word) : crcFrom r [] = r := rfl

@[simp] theorem crcFrom_cons (r : Word) (b : Byte) (bs : List Byte) :
    crcFrom r (b :: bs) = crcFrom (stepByte r b) bs := rfl

theorem crcFrom_append (r : Word) (as bs : List Byte) :
    crcFrom r (as ++ bs) = crcFrom (crcFrom r as) bs := by
  simp [crcFrom]

/-- The register before byte `i + 1` from the one before byte `i`. -/
theorem crcRegister_take_succ {data : List Byte} {i : Nat} {b : Byte} (h : data[i]? = some b) :
    crcRegister (data.take (i + 1)) = stepByte (crcRegister (data.take i)) b := by
  rw [List.take_add_one, h]
  simp [crcRegister, crcFrom_append]

/-- The loaded word is the zero-extended byte shifted left by 24, as rule R80 writes it. -/
theorem loadWord_eq_shift (b : Byte) : loadWord b = b.setWidth 32 <<< 24 := by
  unfold loadWord
  apply BitVec.eq_of_getLsbD_eq
  intro i hi
  simp only [BitVec.getLsbD_append, BitVec.getLsbD_shiftLeft, BitVec.getLsbD_setWidth]
  by_cases h : i < 24
  · simp [h]
  · simp [h, hi, show i - 24 < 32 by omega]

/-- A loaded word is shifted out by eight bit steps (rule R18). -/
theorem loadWord_shifted_out (b : Byte) : loadWord b <<< 8 = 0 := by
  rw [loadWord_eq_shift, ← BitVec.shiftLeft_add]
  exact BitVec.shiftLeft_eq_zero (le_refl 32)

@[simp] theorem length_le32 (v : Word) : (le32 v).length = 4 := rfl

@[simp] theorem length_zeros (n : Nat) : (zeros n).length = n := by simp [zeros]

/-! ### The engine on the state -/

/-- `k` bit steps on the state. -/
theorem engineBits_eq (k : Nat) (s : State) :
    engineBits k s =
      { s with r := bitSteps k s.r s.w, n := s.n - BitVec.ofNat 4 k, w := s.w <<< k } := by
  induction k generalizing s with
  | zero => simp [engineBits]
  | succ k ih =>
    rw [engineBits, ih]
    have hn : (engineBit s).n - BitVec.ofNat 4 k = s.n - BitVec.ofNat 4 (k + 1) := by
      rw [engineBit_n, BitVec.ofNat_add, BitVec.sub_sub, BitVec.add_comm]
      rfl
    have hw : (engineBit s).w <<< k = s.w <<< (k + 1) := by
      rw [engineBit_w, ← BitVec.shiftLeft_add, Nat.add_comm]
    rw [hn, hw]
    rfl

/-- CRC.BYTE: the register is stepped by the byte, `N` and `W` end at 0 (rule R82). -/
theorem engineByte_eq (b : Byte) (s : State) :
    engineByte b s = { s with r := stepByte s.r b, n := 0, w := 0 } := by
  unfold engineByte
  rw [engineBits_eq]
  have hw : (engineLoad b s).w <<< Config.bitsPerByte = 0 := loadWord_shifted_out b
  have hn : (engineLoad b s).n - BitVec.ofNat 4 Config.bitsPerByte = 0 := by
    rw [engineLoad_n]; decide
  rw [hw, hn]
  rfl

/-! ### Access failures -/

@[simp] theorem noFailure_zero (s : State) : NoFailure s 0 := by simp [NoFailure]

/-- No failure among `k + 1` accesses: the first succeeds, and after it none of `k` fails. -/
theorem noFailure_succ {s : State} {k : Nat} :
    NoFailure s (k + 1) ↔ s.accessFails = false ∧ NoFailure s.afterAccess k := by
  unfold NoFailure State.accessFails State.afterAccess
  cases s.ioDraws with
  | nil => simp
  | cons d ds => simp

/-- The state once `k` accesses have had their answers. -/
theorem afterAccess_drop (s : State) (k : Nat) :
    { s.afterAccess with ioDraws := s.afterAccess.ioDraws.drop k } =
      { s with ioDraws := s.ioDraws.drop (k + 1) } := by
  simp [State.afterAccess, List.drop_tail]

/-- Whether no access fails does not depend on anything but the answers. -/
theorem noFailure_congr {s t : State} (h : s.ioDraws = t.ioDraws) (k : Nat) :
    NoFailure s k ↔ NoFailure t k := by
  unfold NoFailure
  rw [h]

/-! ### The loop of CRC.RUN -/

/-- The state after the loop of CRC.RUN over `bs`, when no read failed. -/
def fedState (bs : List Byte) (s : State) : State :=
  { s with
    r := crcFrom s.r bs
    n := if bs = [] then s.n else 0
    w := if bs = [] then s.w else 0
    i := s.i + bs.length
    ioDraws := s.ioDraws.drop bs.length }

theorem fedState_nil (s : State) : fedState [] s = s := by simp [fedState]

theorem fedState_cons (x : Byte) (xs : List Byte) (s : State) :
    fedState xs { engineByte x s.afterAccess with i := (engineByte x s.afterAccess).i + 1 } =
      fedState (x :: xs) s := by
  rw [engineByte_eq]
  simp [fedState, State.afterAccess, Nat.add_assoc, Nat.add_comm 1, List.drop_tail]

/-- The loop of CRC.RUN where no read fails: the register is the fold over the bytes (rule R84). -/
theorem feedBytes_going {b : BufferId} {bs : List Byte} {s : State} (h : NoFailure s bs.length) :
    feedBytes b bs s = .going (fedState bs s) := by
  induction bs generalizing s with
  | nil => rw [fedState_nil]; rfl
  | cons x xs ih =>
    obtain ⟨h1, h2⟩ := noFailure_succ.mp h
    rw [feedBytes, h1, ← fedState_cons]
    apply ih
    rw [engineByte_eq]
    exact (noFailure_congr rfl _).mp h2

/-- Everything the loop of CRC.RUN can do: it runs over all bytes, or it ends at the first failing read,
with `IOFailure` taken. -/
theorem feedBytes_cases (b : BufferId) (bs : List Byte) (s : State) :
    (NoFailure s bs.length ∧ feedBytes b bs s = .going (fedState bs s)) ∨
      ∃ k, k < bs.length ∧ NoFailure s k ∧ (fedState (bs.take k) s).accessFails = true ∧
        feedBytes b bs s =
          .ended (takeFault (.ioFailure b .read) (fedState (bs.take k) s).afterAccess) := by
  induction bs generalizing s with
  | nil => exact .inl ⟨noFailure_zero s, feedBytes_going (noFailure_zero s)⟩
  | cons x xs ih =>
    by_cases h : s.accessFails = true
    · refine .inr ⟨0, by simp, noFailure_zero s, ?_, ?_⟩
      · simpa [fedState_nil] using h
      · simp [feedBytes, h, fedState_nil]
    · have h' : s.accessFails = false := by simpa using h
      have hd : ({ engineByte x s.afterAccess with i := (engineByte x s.afterAccess).i + 1 } : State).ioDraws
          = s.afterAccess.ioDraws := by rw [engineByte_eq]
      rcases ih { engineByte x s.afterAccess with i := (engineByte x s.afterAccess).i + 1 } with
        ⟨h1, h2⟩ | ⟨k, h1, h2, h3, h4⟩
      · refine .inl ⟨noFailure_succ.mpr ⟨h', (noFailure_congr hd _).mp h1⟩, ?_⟩
        rw [feedBytes, h', ← fedState_cons]
        exact h2
      · refine .inr ⟨k + 1, by simpa using h1,
          noFailure_succ.mpr ⟨h', (noFailure_congr hd _).mp h2⟩, ?_, ?_⟩
        · rw [List.take_succ_cons, ← fedState_cons]; exact h3
        · rw [feedBytes, h', List.take_succ_cons, ← fedState_cons]; exact h4

/-! ### CRC.RUN -/

/-- The state after CRC.RUN over `bs` from `s`, when no read failed. -/
def ranState (bs : List Byte) (s : State) : State :=
  engineSer (fedState bs { engineSeed s with i := 0 })

/-- CRC.RUN leaves the checksum of its range in `CK` (rule R84). -/
theorem ranState_ck (bs : List Byte) (s : State) : (ranState bs s).ck = checksum bs := rfl

/-- Everything CRC.RUN followed by `k` can do. -/
theorem crcRunThen_cases (k : State → Host.Outcome State Fault Refusal) (s : State) :
    (s.runBytes = none ∧ crcRunThen k s = .refused (.rangeOutsideBuffer s.run.buf s.run.off s.run.len)) ∨
      (∃ bs, s.runBytes = some bs ∧ NoFailure s bs.length ∧ crcRunThen k s = k (ranState bs s)) ∨
      ∃ bs m, s.runBytes = some bs ∧ m < bs.length ∧ NoFailure s m ∧
        (fedState (bs.take m) { engineSeed s with i := 0 }).accessFails = true ∧
        crcRunThen k s = .next (takeFault (.ioFailure s.run.buf .read)
          (fedState (bs.take m) { engineSeed s with i := 0 }).afterAccess) := by
  unfold crcRunThen
  cases hbs : s.runBytes with
  | none => exact .inl ⟨rfl, rfl⟩
  | some bs =>
    right
    rcases feedBytes_cases s.run.buf bs { engineSeed s with i := 0 } with ⟨h1, h2⟩ | ⟨m, h1, h2, h3, h4⟩
    · exact .inl ⟨bs, rfl, (noFailure_congr rfl _).mp h1, by simp only [h2]; rfl⟩
    · exact .inr ⟨bs, m, rfl, h1, (noFailure_congr rfl _).mp h2, h3, by simp only [h4]⟩

/-- CRC.RUN where its range lies in the buffer and no read fails. -/
theorem crcRunThen_going {k : State → Host.Outcome State Fault Refusal} {s : State} {bs : List Byte}
    (hb : s.runBytes = some bs) (hn : NoFailure s bs.length) : crcRunThen k s = k (ranState bs s) := by
  unfold crcRunThen
  rw [hb]
  simp only [feedBytes_going (s := { engineSeed s with i := 0 }) ((noFailure_congr rfl _).mp hn)]
  rfl

end Sys2Proof.Machine
end

