-- ==== Sys2Proof/Laws/Blocks.lean ====
section
/-! SUPPORT. What the block formatter, the assembler's loop and the commits do. -/

namespace Sys2Proof.Machine

/-! ### Writes that follow one another -/

/-- Byte sequences placed one after the other from offset `a` on. -/
def placed (a : Nat) : List (List Byte) → List (Nat × List Byte)
  | [] => []
  | x :: xs => (a, x) :: placed (a + x.length) xs

theorem splice_at (p q bs : List Byte) :
    splice p.length bs (p ++ q) = (p ++ bs) ++ q.drop bs.length := by
  simp [splice]

/-- Writes that follow one another leave their bytes in order, then what stood behind them. -/
theorem writeAll_placed (xs : List (List Byte)) (p q : List Byte) :
    writeAll (placed p.length xs) (p ++ q) = p ++ xs.flatten ++ q.drop xs.flatten.length := by
  induction xs generalizing p q with
  | nil => simp [placed, writeAll]
  | cons x xs ih =>
    have := ih (p ++ x) (q.drop x.length)
    simp only [writeAll, placed, List.foldl_cons, splice_at] at this ⊢
    rw [List.length_append] at this
    rw [this]
    simp

/-- The fields of a block, in order. -/
def blockFields (family : Word) (chunk : List Byte) (taddr blkno nblk : Word) : List (List Byte) :=
  [le32 Config.uf2MagicStart0, le32 Config.uf2MagicStart1, le32 Config.uf2Flags, le32 taddr,
   le32 Config.uf2PayloadSize, le32 blkno, le32 nblk, le32 family, chunk,
   zeros (Config.uf2DataLen - chunk.length), le32 Config.uf2MagicEnd]

theorem flatten_blockFields (family : Word) (chunk : List Byte) (taddr blkno nblk : Word) :
    (blockFields family chunk taddr blkno nblk).flatten = uf2Block family chunk taddr blkno nblk := by
  simp [blockFields, uf2Block]

/-- A block is 512 bytes for every chunk that fits the data region (rule R111). -/
theorem length_uf2Block {family : Word} {chunk : List Byte} {taddr blkno nblk : Word}
    (h : chunk.length ≤ Config.uf2DataLen) :
    (uf2Block family chunk taddr blkno nblk).length = Config.uf2BlockLen := by
  simp [uf2Block, Config.uf2DataLen, Config.uf2BlockLen] at h ⊢
  omega

theorem blockWrites_placed {s : State} (h : s.clen ≤ Config.uf2DataLen) :
    blockWrites s = placed 0 (blockFields Config.familyId s.chunk s.taddr s.blkno s.nblk) := by
  simp only [State.clen, Config.uf2DataLen] at h
  simp only [blockWrites, blockFields, placed, State.clen, length_le32, length_zeros,
    Config.uf2DataOff, Config.uf2DataLen, Config.uf2EndOff, Nat.zero_add, Nat.reduceAdd]
  rw [show 32 + s.chunk.length + (476 - s.chunk.length) = 508 by omega]

/-- The body of ENCBLK writes every byte of `BLK`, whatever stood there: the block of the operands
(rule R110). -/
theorem writeAll_blockWrites {s : State} (hc : s.clen ≤ Config.uf2DataLen)
    (hb : s.blk.length = Config.uf2BlockLen) :
    writeAll (blockWrites s) s.blk = uf2Block Config.familyId s.chunk s.taddr s.blkno s.nblk := by
  have := writeAll_placed (blockFields Config.familyId s.chunk s.taddr s.blkno s.nblk) [] s.blk
  rw [blockWrites_placed hc]
  simp only [List.length_nil, List.nil_append, flatten_blockFields] at this
  rw [this, length_uf2Block hc, ← hb, List.drop_length, List.append_nil]

theorem packBlock_blk_eq {s : State} (hc : s.clen ≤ Config.uf2DataLen)
    (hb : s.blk.length = Config.uf2BlockLen) :
    (packBlock s).blk = uf2Block Config.familyId s.chunk s.taddr s.blkno s.nblk :=
  writeAll_blockWrites hc hb

/-! ### Chunks -/

theorem chunkLen_le (size k : Nat) : chunkLen size k ≤ Config.uf2ChunkMax := Nat.min_le_left _ _

theorem length_chunkBytes (data : List Byte) (k : Nat) :
    (chunkBytes data k).length = chunkLen data.length k := by
  simp only [chunkBytes, chunkLen, List.length_take, List.length_drop]
  omega

theorem length_chunkBytes_le (data : List Byte) (k : Nat) :
    (chunkBytes data k).length ≤ Config.uf2DataLen := by
  rw [length_chunkBytes]
  exact le_trans (chunkLen_le _ _) (by decide)

theorem length_containerBlock (family base : Word) (data : List Byte) (k : Nat) :
    (containerBlock family base data k).length = Config.uf2BlockLen :=
  length_uf2Block (length_chunkBytes_le data k)

theorem containerUpTo_succ (family base : Word) (data : List Byte) (k : Nat) :
    containerUpTo family base data (k + 1) =
      containerUpTo family base data k ++ containerBlock family base data k := by
  simp [containerUpTo, List.range_succ]

theorem length_containerUpTo (family base : Word) (data : List Byte) (k : Nat) :
    (containerUpTo family base data k).length = Config.uf2BlockLen * k := by
  induction k with
  | zero => simp [containerUpTo]
  | succ k ih =>
    rw [containerUpTo_succ, List.length_append, ih, length_containerBlock, Nat.mul_add_one]

/-- The block of chunk `J`, in `BLK`. -/
theorem packChunk_blk {s : State} (hb : s.blk.length = Config.uf2BlockLen) :
    (packChunk s).blk = containerBlock Config.familyId s.base s.src.bytes s.j := by
  have hc : (chunkBytes s.src.bytes s.j).length ≤ Config.uf2DataLen := length_chunkBytes_le _ _
  rw [show containerBlock Config.familyId s.base s.src.bytes s.j =
    uf2Block Config.familyId (chunkBytes s.src.bytes s.j) (blockAddress s.base s.j)
      (BitVec.ofNat 32 s.j) (BitVec.ofNat 32 (blockCount s.src.len)) by
    rw [containerBlock, Memory.length_bytes]]
  exact writeAll_blockWrites (s := { s with
      chunk := chunkBytes s.src.bytes s.j
      taddr := blockAddress s.base s.j
      blkno := BitVec.ofNat 32 s.j
      nblk := BitVec.ofNat 32 (blockCount s.src.len) }) hc hb

/-! ### The loop of ASSEMBLE -/

/-- What the loop of ASSEMBLE leaves alone. -/
theorem packChunk_keeps (s : State) :
    (packChunk s).src = s.src ∧ (packChunk s).base = s.base ∧ (packChunk s).dst = s.dst ∧
      (packChunk s).art = s.art ∧ (packChunk s).ioDraws = s.ioDraws ∧ (packChunk s).op = s.op :=
  ⟨rfl, rfl, rfl, rfl, rfl, rfl⟩

/-- The state after `k` more chunks of ASSEMBLE, when no read failed. -/
def packedState : Nat → State → State
  | 0, s => s
  | k + 1, s => packedState k (packChunk s.afterAccess)

/-- Everything the loop of ASSEMBLE can do: it packs all `k` chunks, or it ends at the first failing read
with `IOFailure` taken. -/
theorem packChunks_cases (k : Nat) (s : State) :
    (NoFailure s k ∧ packChunks k s = .going (packedState k s)) ∨
      ∃ m, m < k ∧ NoFailure s m ∧ (packedState m s).accessFails = true ∧
        packChunks k s = .ended (takeFault (.ioFailure .src .read) (packedState m s).afterAccess) := by
  induction k generalizing s with
  | zero => exact .inl ⟨noFailure_zero s, rfl⟩
  | succ k ih =>
    by_cases h : s.accessFails = true
    · exact .inr ⟨0, by omega, noFailure_zero s, h, by simp [packChunks, stepChunk, h, packedState]⟩
    · have h' : s.accessFails = false := by simpa using h
      rcases ih (packChunk s.afterAccess) with ⟨h1, h2⟩ | ⟨m, h1, h2, h3, h4⟩
      · exact .inl ⟨noFailure_succ.mpr ⟨h', (noFailure_congr rfl _).mp h1⟩,
          by simp only [packChunks, stepChunk, h']; exact h2⟩
      · exact .inr ⟨m + 1, by omega, noFailure_succ.mpr ⟨h', (noFailure_congr rfl _).mp h2⟩, h3,
          by simp only [packChunks, stepChunk, h']; exact h4⟩

/-- The loop of ASSEMBLE where no read fails. -/
theorem packChunks_going {k : Nat} {s : State} (h : NoFailure s k) :
    packChunks k s = .going (packedState k s) := by
  rcases packChunks_cases k s with ⟨_, h2⟩ | ⟨m, h1, h2, h3, _⟩
  · exact h2
  · exfalso
    clear * - h h1 h3
    induction m generalizing k s with
    | zero =>
      obtain ⟨k, rfl⟩ : ∃ j, k = j + 1 := ⟨k - 1, by omega⟩
      rw [packedState, (noFailure_succ.mp h).1] at h3
      exact absurd h3 (by decide)
    | succ m ih =>
      obtain ⟨k, rfl⟩ : ∃ j, k = j + 1 := ⟨k - 1, by omega⟩
      exact ih (k := k) (s := packChunk s.afterAccess)
        ((noFailure_congr rfl _).mpr (noFailure_succ.mp h).2) (by omega) h3

/-- What the loop has staged: with the blocks before `J` in `STAGE` at its start, the blocks before
`J + k` at its end (rules R127, R128). Nothing the host owns has changed. -/
theorem packedState_stage (k : Nat) (s : State) (hb : s.blk.length = Config.uf2BlockLen)
    (hs : s.stage = containerUpTo Config.familyId s.base s.src.bytes s.j) :
    (packedState k s).stage =
        containerUpTo Config.familyId s.base s.src.bytes (s.j + k) ∧
      (packedState k s).j = s.j + k ∧ (packedState k s).src = s.src ∧ (packedState k s).base = s.base ∧
      (packedState k s).dst = s.dst ∧ (packedState k s).art = s.art ∧
      (packedState k s).ioDraws = s.ioDraws.drop k ∧
      (packedState k s).blk.length = Config.uf2BlockLen := by
  induction k generalizing s with
  | zero => exact ⟨hs, rfl, rfl, rfl, rfl, rfl, rfl, hb⟩
  | succ k ih =>
    have hblk : (packChunk s.afterAccess).blk = containerBlock Config.familyId s.base s.src.bytes s.j :=
      packChunk_blk (s := s.afterAccess) hb
    have hst : (packChunk s.afterAccess).stage =
        containerUpTo Config.familyId s.base s.src.bytes (s.j + 1) := by
      rw [packChunk_stage, hblk, containerUpTo_succ, ← hs]; rfl
    obtain ⟨h1, h2, h3, h4, h5, h6, h7, h8⟩ := ih (packChunk s.afterAccess)
      (by rw [hblk, length_containerBlock]) hst
    have ej : s.j + 1 + k = s.j + (k + 1) := by omega
    refine ⟨?_, ?_, h3, h4, h5, h6, ?_, h8⟩
    · rw [packedState, h1, ← ej]; rfl
    · rw [packedState, h2, ← ej]; rfl
    · rw [packedState, h7]; simp [State.afterAccess, List.drop_tail]

/-! ### The commits -/

/-- Everything PATCH's commit can do: the four bytes of `CK` are in `ART[252,256)`, or `IOFailure` has been
taken and `ART` is as before (rules R101, R104). -/
theorem commitPatch_cases (s : State) :
    (s.accessFails = false ∧ commitPatch s =
        .going { s.afterAccess with stage := s.ck, art := s.art.write Config.bootCrcOff s.ck }) ∨
      (s.accessFails = true ∧ ∃ t, commitPatch s = .ended (takeFault (.ioFailure .art .write) t) ∧
        t = { s.afterAccess with stage := s.ck }) := by
  by_cases h : s.accessFails = true
  · refine .inr ⟨h, _, ?_, rfl⟩
    have h' : ({ s with stage := s.ck } : State).accessFails = true := h
    simp only [commitPatch, h', if_true]
    rfl
  · have hf : s.accessFails = false := by simpa using h
    have h' : ({ s with stage := s.ck } : State).accessFails = false := hf
    refine .inl ⟨hf, ?_⟩
    simp only [commitPatch, h']
    rfl

/-- Everything ASSEMBLE's commit can do (rule R134). -/
theorem commitAssemble_cases (s : State) :
    (s.accessFails = false ∧
        commitAssemble s = .going { s.afterAccess with dst := Memory.ofBytes s.stage }) ∨
      (s.accessFails = true ∧
        commitAssemble s = .ended (takeFault (.ioFailure .dst .write) s.afterAccess)) := by
  by_cases h : s.accessFails = true
  · exact .inr ⟨h, by simp [commitAssemble, h]⟩
  · exact .inl ⟨by simpa using h, by simp [commitAssemble, h]⟩

end Sys2Proof.Machine
end

