-- ==== Sys2Proof/Laws/PerInstr.lean ====
section
/-! SUPPORT. Laws of the operations as syntax, one lemma for each constructor: the two fields of an
operation's word, and the port that does not take it. -/

namespace Sys2Proof.Laws

/-- The high byte of a word made of two bytes. -/
theorem opField_pair (a b : Byte) : opField (a ++ b : BitVec (8 + 8)) = a := by
  unfold opField
  apply BitVec.eq_of_getLsbD_eq
  intro k hk
  rw [BitVec.getLsbD_extractLsb', BitVec.getLsbD_append]
  simp [hk]

/-- The low byte of a word made of two bytes. -/
theorem immField_pair (a b : Byte) : immField (a ++ b : BitVec (8 + 8)) = b := by
  unfold immField
  apply BitVec.eq_of_getLsbD_eq
  intro k hk
  rw [BitVec.getLsbD_extractLsb', BitVec.getLsbD_append]
  simp [hk]

/-- A word is made of its two bytes (rule R62). -/
theorem word_eq_fields (c : CmdWord) : (opField c ++ immField c : BitVec (8 + 8)) = c := by
  apply BitVec.eq_of_getLsbD_eq
  intro k hk
  simp only [opField, immField, BitVec.getLsbD_append, BitVec.getLsbD_extractLsb']
  by_cases h : k < 8
  · simp [h]
  · have h8 : 8 + (k - 8) = k := by omega
    simp [h, h8, show k - 8 < 8 by omega]

/-! ### The fields of the word are those of rule R66's row -/

/-- The word of an operation has the operation's code and immediate as its two fields. -/
def FieldsOfWord.Statement (i : Instr) : Prop :=
  opField (encode i) = i.opCode ∧ immField (encode i) = i.imm

theorem FieldsOfWord.crc : FieldsOfWord.Statement .crc := ⟨opField_pair _ _, immField_pair _ _⟩
theorem FieldsOfWord.patch : FieldsOfWord.Statement .patch := ⟨opField_pair _ _, immField_pair _ _⟩
theorem FieldsOfWord.encblk : FieldsOfWord.Statement .encblk := ⟨opField_pair _ _, immField_pair _ _⟩
theorem FieldsOfWord.assemble : FieldsOfWord.Statement .assemble := ⟨opField_pair _ _, immField_pair _ _⟩
theorem FieldsOfWord.crcSeed : FieldsOfWord.Statement .crcSeed := ⟨opField_pair _ _, immField_pair _ _⟩
theorem FieldsOfWord.crcLoad (b : Byte) : FieldsOfWord.Statement (.crcLoad b) := ⟨opField_pair _ _, immField_pair _ _⟩
theorem FieldsOfWord.crcBit : FieldsOfWord.Statement .crcBit := ⟨opField_pair _ _, immField_pair _ _⟩
theorem FieldsOfWord.crcByte (b : Byte) : FieldsOfWord.Statement (.crcByte b) := ⟨opField_pair _ _, immField_pair _ _⟩
theorem FieldsOfWord.crcSer : FieldsOfWord.Statement .crcSer := ⟨opField_pair _ _, immField_pair _ _⟩
theorem FieldsOfWord.crcRun : FieldsOfWord.Statement .crcRun := ⟨opField_pair _ _, immField_pair _ _⟩

/-! ### Each operation belongs to one port -/

/-- The port an operation belongs to (rule R66, "Level"). -/
def home (i : Instr) : Port :=
  match i.level with
  | .host => .command
  | .micro => .issue

/-- The word of an operation is decoded at its own port, and at the other it selects nothing
(rules R66, R68). -/
def OneHome.Statement (i : Instr) : Prop :=
  ∀ p : Port, (decodeAt p (encode i)).toOption = if p = home i then some i else none

theorem OneHome.crc : OneHome.Statement .crc := by intro p; cases p <;> rfl

theorem OneHome.patch : OneHome.Statement .patch := by intro p; cases p <;> rfl

theorem OneHome.encblk : OneHome.Statement .encblk := by intro p; cases p <;> rfl

theorem OneHome.assemble : OneHome.Statement .assemble := by intro p; cases p <;> rfl

theorem OneHome.crcSeed : OneHome.Statement .crcSeed := by intro p; cases p <;> rfl

theorem OneHome.crcLoad (b : Byte) : OneHome.Statement (.crcLoad b) := by
  obtain ⟨h1, h2⟩ := FieldsOfWord.crcLoad b
  intro p
  cases p
  · simp only [decodeAt, decodeCommand, h1]; rfl
  · simp only [decodeAt, decodeIssue, h1, h2]; rfl

theorem OneHome.crcBit : OneHome.Statement .crcBit := by intro p; cases p <;> rfl

theorem OneHome.crcByte (b : Byte) : OneHome.Statement (.crcByte b) := by
  obtain ⟨h1, h2⟩ := FieldsOfWord.crcByte b
  intro p
  cases p
  · simp only [decodeAt, decodeCommand, h1]; rfl
  · simp only [decodeAt, decodeIssue, h1, h2]; rfl

theorem OneHome.crcSer : OneHome.Statement .crcSer := by intro p; cases p <;> rfl

theorem OneHome.crcRun : OneHome.Statement .crcRun := by intro p; cases p <;> rfl

end Sys2Proof.Laws
end

