-- ==== Sys2Proof/Laws/Step.lean ====
section
/-! SUPPORT. What each host operation and each step can do, said once. -/

namespace Sys2Proof.Machine

/-! ### Preconditions -/

theorem checkPatch_cases (s : State) :
    (s.art.len < Config.bootMinLen ∧ checkPatch s = .raise (.bootImageTooShort s.art.len)) ∨
      (Config.bootMinLen ≤ s.art.len ∧ checkPatch s = .pass) := by
  unfold checkPatch
  split <;> simp_all

theorem checkEncblk_cases (s : State) :
    (Config.uf2ChunkMax < s.clen ∧ checkEncblk s = .raise (.chunkTooLarge s.clen)) ∨
      (s.clen ≤ Config.uf2ChunkMax ∧ checkEncblk s = .pass) := by
  unfold checkEncblk
  split <;> simp_all

theorem checkAssemble_cases (s : State) :
    (rangeOverflows s.base s.src.len = true ∧ checkAssemble s = .raise (.rangeOverflow s.base s.src.len)) ∨
      (rangeOverflows s.base s.src.len = false ∧ checkAssemble s = .pass) := by
  unfold checkAssemble
  split <;> simp_all

/-! ### The host operations -/

/-- `s` with everything cleared that the end of an operation overwrites. -/
def cleared (s : State) : State :=
  { s with
    r := 0, n := 0, w := 0, ck := [], blk := [], phase := .done, i := 0, j := 0, stage := [],
    result := .ok .noValue }

/-- The end of an operation depends on the state only through what it leaves alone. -/
theorem finish_congr {s t : State} (res : OpResult) (h : cleared s = cleared t) :
    finish res s = finish res t := by
  simp only [cleared, State.mk.injEq] at h
  simp only [finish, State.mk.injEq]
  simp_all

/-- The end of an operation, by `ok` or by fault, takes the operands of that operation and leaves the others,
and the marks of the host's writes (rules R15, R28). -/
theorem finish_operandsAfter (res : OpResult) (s : State) : OperandsAfter s.op s (finish res s) := by
  refine ⟨fun x h => ?_, rfl⟩
  cases x <;> simp [SameOperand, h]

/-- What the end of an operation leaves in the operands it took depends on neither what they held nor what the
operation did with them (rules R28, R148). -/
theorem finish_sameOperand (res res' : OpResult) {s t : State} {x : Operand} (hop : s.op = t.op)
    (hc : s.freeCount = t.freeCount) (hx : s.op.uses x = true) :
    SameOperand x (finish res s) (finish res' t) := by
  have hx' : t.op.uses x = true := hop ▸ hx
  cases x <;> simp [SameOperand, hx, hx', hc]

/-- An operation that takes no operand register leaves them all. -/
theorem finish_keepsOperands (res : OpResult) {s : State} (h : ∀ x, s.op.uses x = false) :
    KeepsOperands s (finish res s) := by
  refine ⟨?_, ?_, ?_, ?_, ?_, ?_⟩ <;> simp [h]

/-- Everything CRC can do: `ok` with the checksum of `SRC`, or `IOFailure` at the first failing read
(rule R85). -/
theorem execCrc_cases (s : State) :
    (NoFailure s s.src.len ∧ execCrc s = .next (complete (.checksum (checksum s.src.bytes))
        { s with op := .crc, run := crcRange s, ioDraws := s.ioDraws.drop s.src.len })) ∨
      ∃ m, m < s.src.len ∧ NoFailure s m ∧
        ((s.ioDraws.drop m).headD false && Config.ioCanFail) = true ∧
        execCrc s = .next (takeFault (.ioFailure .src .read)
          { s with op := .crc, run := crcRange s, ioDraws := s.ioDraws.drop (m + 1) }) := by
  have hrun : ({ s with op := .crc, run := crcRange s } : State).runBytes = some s.src.bytes :=
    Memory.slice_all s.src
  rcases crcRunThen_cases (fun t => .next (deliverCrc t)) { s with op := .crc, run := crcRange s } with
    ⟨h, _⟩ | ⟨bs, hb, hn, he⟩ | ⟨bs, m, hb, hm, hn, hf, he⟩
  · rw [hrun] at h; exact absurd h (by simp)
  · obtain rfl : s.src.bytes = bs := Option.some.inj (hrun.symm.trans hb)
    rw [Memory.length_bytes] at hn
    refine .inl ⟨(noFailure_congr rfl _).mp hn, ?_⟩
    show crcRunThen _ _ = _
    rw [he]
    congr 1
    apply finish_congr
    simp [cleared, ranState, fedState, engineSer, engineSeed]
  · obtain rfl : s.src.bytes = bs := Option.some.inj (hrun.symm.trans hb)
    rw [Memory.length_bytes] at hm
    have hlen : (s.src.bytes.take m).length = m := by simp; omega
    refine .inr ⟨m, hm, (noFailure_congr rfl _).mp hn, ?_, ?_⟩
    · simpa [State.accessFails, fedState, engineSeed, hlen] using hf
    · show crcRunThen _ _ = _
      rw [he]
      congr 1
      apply finish_congr
      simp [cleared, fedState, engineSeed, State.afterAccess, hlen]

/-- Everything PATCH can do (rules R99 to R104): `BootImageTooShort` before anything else, `IOFailure` with
`ART` as before, or `ok` with the checksum of `ART[0,252)` in `ART[252,256)`. -/
theorem execPatch_cases (s : State) :
    (s.art.len < Config.bootMinLen ∧
        execPatch s = .next (takeFault (.bootImageTooShort s.art.len) { s with op := .patch })) ∨
      (∃ m acc, Config.bootMinLen ≤ s.art.len ∧ m ≤ Config.bootCoverLen ∧ NoFailure s m ∧
        ((s.ioDraws.drop m).headD false && Config.ioCanFail) = true ∧
        acc = (if m = Config.bootCoverLen then Access.write else Access.read) ∧
        execPatch s = .next (takeFault (.ioFailure .art acc)
          { s with op := .patch, run := patchRange, ioDraws := s.ioDraws.drop (m + 1) })) ∨
      (Config.bootMinLen ≤ s.art.len ∧ NoFailure s (Config.bootCoverLen + 1) ∧
        execPatch s = .next (complete .noValue
          { s with
            op := .patch
            run := patchRange
            ioDraws := s.ioDraws.drop (Config.bootCoverLen + 1)
            art := s.art.write Config.bootCrcOff (checksum (s.art.bytes.take Config.bootCoverLen)) })) := by
  rcases checkPatch_cases s with ⟨h1, h2⟩ | ⟨h1, h2⟩
  · refine .inl ⟨h1, ?_⟩
    simp only [execPatch, h2, Verdict.thenRun]
  · right
    have hle : Config.bootCoverLen ≤ s.art.len := le_trans (by decide) h1
    have hrun : ({ s with op := .patch, run := patchRange } : State).runBytes =
        some (s.art.bytes.take Config.bootCoverLen) := Memory.slice_first hle
    have hlen : (s.art.bytes.take Config.bootCoverLen).length = Config.bootCoverLen := by
      simp; exact hle
    have hexec : execPatch s = crcRunThen (fun u => (commitPatch u).thenNext deliverPatch)
        { s with op := .patch, run := patchRange } := by
      simp only [execPatch, h2, Verdict.thenRun]
    rcases crcRunThen_cases (fun u => (commitPatch u).thenNext deliverPatch)
        { s with op := .patch, run := patchRange } with
      ⟨h, _⟩ | ⟨bs, hb, hn, he⟩ | ⟨bs, m, hb, hm, hn, hf, he⟩
    · rw [hrun] at h; exact absurd h (by simp)
    · obtain rfl : s.art.bytes.take Config.bootCoverLen = bs := Option.some.inj (hrun.symm.trans hb)
      rw [hlen] at hn
      have hn' : NoFailure s Config.bootCoverLen := (noFailure_congr rfl _).mp hn
      rcases commitPatch_cases (ranState (s.art.bytes.take Config.bootCoverLen)
          { s with op := .patch, run := patchRange }) with ⟨hc, hcp⟩ | ⟨hc, t, hcp, rfl⟩
      · refine .inr ⟨h1, ?_, ?_⟩
        · have hacc : ((s.ioDraws.drop Config.bootCoverLen).headD false && Config.ioCanFail) = false := by
            simpa [State.accessFails, ranState, fedState, engineSeed, hlen] using hc
          unfold NoFailure at hn' ⊢
          rw [List.take_add_one]
          intro d hd
          rcases List.mem_append.mp hd with hd | hd
          · exact hn' d hd
          · cases hx : s.ioDraws[Config.bootCoverLen]? with
            | none => simp [hx] at hd
            | some x =>
              have hd' : d = x := by simpa [hx] using hd
              have : (s.ioDraws.drop Config.bootCoverLen).headD false = x := by
                rw [List.headD_eq_head?_getD, List.head?_drop, hx]; rfl
              rw [hd', ← this]; exact hacc
        · rw [hexec, he]
          simp only [hcp, Attempt.thenNext]
          congr 1
          apply finish_congr
          simp [cleared, ranState, fedState, engineSeed, State.afterAccess, hlen]
          rfl
      · refine .inl ⟨Config.bootCoverLen, .write, h1, le_refl _, hn', ?_, by simp, ?_⟩
        · simpa [State.accessFails, ranState, fedState, engineSeed, hlen] using hc
        · rw [hexec, he]
          simp only [hcp, Attempt.thenNext]
          congr 1
          apply finish_congr
          simp [cleared, ranState, fedState, engineSeed, State.afterAccess, hlen]
    · obtain rfl : s.art.bytes.take Config.bootCoverLen = bs := Option.some.inj (hrun.symm.trans hb)
      rw [hlen] at hm
      have hlm : ((s.art.bytes.take Config.bootCoverLen).take m).length = m := by
        rw [List.length_take, hlen]; omega
      refine .inl ⟨m, .read, h1, by omega, (noFailure_congr rfl _).mp hn, ?_, by simp; omega, ?_⟩
      · simpa [State.accessFails, fedState, engineSeed, hlm] using hf
      · rw [hexec, he]
        congr 1
        apply finish_congr
        simp [cleared, fedState, engineSeed, State.afterAccess, hlm]

/-- Everything ENCBLK can do (rules R109, R110): `ChunkTooLarge`, or `ok` with the block. -/
theorem execEncblk_cases (s : State) :
    (Config.uf2ChunkMax < s.clen ∧
        execEncblk s = .next (takeFault (.chunkTooLarge s.clen) { s with op := .encblk })) ∨
      (s.clen ≤ Config.uf2ChunkMax ∧
        execEncblk s = .next (complete (.block (packBlock s).blk) { s with op := .encblk })) := by
  rcases checkEncblk_cases s with ⟨h2, h3⟩ | ⟨h2, h3⟩
  · refine .inl ⟨h2, ?_⟩
    simp only [execEncblk, h3, Verdict.thenRun]
  · refine .inr ⟨h2, ?_⟩
    simp only [execEncblk, h3, Verdict.thenRun]
    congr 1

/-- The state the loop of ASSEMBLE starts from. -/
def assembleStart (s : State) : State := { s with op := .assemble, stage := [], j := 0 }

/-- Everything ASSEMBLE can do (rules R126, R127, R134). -/
theorem execAssemble_cases (s : State) :
    (rangeOverflows s.base s.src.len = true ∧
        execAssemble s = .next (takeFault (.rangeOverflow s.base s.src.len) (assembleStart s))) ∨
      (∃ m, rangeOverflows s.base s.src.len = false ∧
        m < blockCount s.src.len ∧ NoFailure s m ∧ (packedState m (assembleStart s)).accessFails = true ∧
        execAssemble s = .next (takeFault (.ioFailure .src .read)
          (packedState m (assembleStart s)).afterAccess)) ∨
      (rangeOverflows s.base s.src.len = false ∧
        NoFailure s (blockCount s.src.len) ∧
        (packedState (blockCount s.src.len) (assembleStart s)).accessFails = true ∧
        execAssemble s = .next (takeFault (.ioFailure .dst .write)
          (packedState (blockCount s.src.len) (assembleStart s)).afterAccess)) ∨
      (rangeOverflows s.base s.src.len = false ∧
        NoFailure s (blockCount s.src.len) ∧
        (packedState (blockCount s.src.len) (assembleStart s)).accessFails = false ∧
        execAssemble s = .next (complete .noValue
          { (packedState (blockCount s.src.len) (assembleStart s)).afterAccess with
            dst := Memory.ofBytes (packedState (blockCount s.src.len) (assembleStart s)).stage })) := by
  rcases checkAssemble_cases s with ⟨h2, h3⟩ | ⟨h2, h3⟩
  · refine .inl ⟨h2, ?_⟩
    simp only [execAssemble, h3, Verdict.thenRun]
    congr 1
  · right
    rcases packChunks_cases (blockCount s.src.len) (assembleStart s) with ⟨hn, hp⟩ | ⟨m, hm, hn, hf, hp⟩
    · have hn' : NoFailure s (blockCount s.src.len) := (noFailure_congr rfl _).mp hn
      have hp' : packChunks (blockCount s.src.len) { s with op := .assemble, stage := [], j := 0 } = _ := hp
      rcases commitAssemble_cases (packedState (blockCount s.src.len) (assembleStart s)) with
        ⟨hc, hcp⟩ | ⟨hc, hcp⟩
      · refine .inr (.inr ⟨h2, hn', hc, ?_⟩)
        simp only [execAssemble, h3, Verdict.thenRun, hp', hcp, Attempt.thenNext]
        rfl
      · refine .inr (.inl ⟨h2, hn', hc, ?_⟩)
        simp only [execAssemble, h3, Verdict.thenRun, hp', hcp, Attempt.thenNext]
    · have hp' : packChunks (blockCount s.src.len) { s with op := .assemble, stage := [], j := 0 } = _ := hp
      refine .inl ⟨m, h2, hm, (noFailure_congr rfl _).mp hn, hf, ?_⟩
      simp only [execAssemble, h3, Verdict.thenRun, hp']

/-- The loop of ASSEMBLE leaves the operation, the marks of the host's writes and the counter of the free values
alone. -/
theorem packedState_keeps (k : Nat) (s : State) :
    (packedState k s).op = s.op ∧ (packedState k s).written = s.written ∧
      (packedState k s).freeCount = s.freeCount := by
  induction k generalizing s with
  | zero => exact ⟨rfl, rfl, rfl⟩
  | succ k ih => simpa [packedState] using ih (packChunk s.afterAccess)

/-- However a host operation answers, its answer is the end of that operation, with the marks of the host's writes
and the counter of the free values as at its start (rules R147, R148). -/
theorem execHost_ends {i : Instr} {s t : State} (hi : i.level = .host) (h : exec i s = .next t) :
    ∃ res u, t = finish res u ∧ u.op = operationOf i ∧ u.written = s.written ∧ u.freeCount = s.freeCount := by
  have keeps := fun k => packedState_keeps k (assembleStart s)
  cases i with
  | crc =>
    have h : execCrc s = .next t := h
    rcases execCrc_cases s with ⟨-, e⟩ | ⟨m, -, -, -, e⟩ <;> rw [e] at h <;> cases h <;>
      exact ⟨_, _, rfl, rfl, rfl, rfl⟩
  | patch =>
    have h : execPatch s = .next t := h
    rcases execPatch_cases s with ⟨-, e⟩ | ⟨m, acc, -, -, -, -, -, e⟩ | ⟨-, -, e⟩ <;> rw [e] at h <;> cases h <;>
      exact ⟨_, _, rfl, rfl, rfl, rfl⟩
  | encblk =>
    have h : execEncblk s = .next t := h
    rcases execEncblk_cases s with ⟨-, e⟩ | ⟨-, e⟩ <;> rw [e] at h <;> cases h <;>
      exact ⟨_, _, rfl, rfl, rfl, rfl⟩
  | assemble =>
    have h : execAssemble s = .next t := h
    rcases execAssemble_cases s with
      ⟨-, e⟩ | ⟨m, -, -, -, -, e⟩ | ⟨-, -, -, e⟩ | ⟨-, -, -, e⟩ <;> rw [e] at h <;> cases h
    · exact ⟨_, _, rfl, rfl, rfl, rfl⟩
    · exact ⟨_, _, rfl, keeps m⟩
    · exact ⟨_, _, rfl, keeps _⟩
    · exact ⟨_, _, rfl, keeps _⟩
  | crcSeed => cases hi
  | crcLoad b => cases hi
  | crcBit => cases hi
  | crcByte b => cases hi
  | crcSer => cases hi
  | crcRun => cases hi

/-- Every host operation answers, in every state (rule R159, "every presented operation has a step until its
result"). -/
theorem execHost_answers {i : Instr} (s : State) (hi : i.level = .host) : ∃ t, exec i s = .next t := by
  cases i with
  | crc => rcases execCrc_cases s with ⟨-, e⟩ | ⟨m, -, -, -, e⟩ <;> exact ⟨_, e⟩
  | patch =>
    rcases execPatch_cases s with ⟨-, e⟩ | ⟨m, acc, -, -, -, -, -, e⟩ | ⟨-, -, e⟩ <;> exact ⟨_, e⟩
  | encblk =>
    rcases execEncblk_cases s with ⟨-, e⟩ | ⟨-, e⟩ <;> exact ⟨_, e⟩
  | assemble =>
    rcases execAssemble_cases s with ⟨-, e⟩ | ⟨m, -, -, -, -, e⟩ | ⟨-, -, -, e⟩ | ⟨-, -, -, e⟩ <;> exact ⟨_, e⟩
  | crcSeed => cases hi
  | crcLoad b => cases hi
  | crcBit => cases hi
  | crcByte b => cases hi
  | crcSer => cases hi
  | crcRun => cases hi

/-! ### Steps -/

theorem step_no_input {s : State} (h : s.inputs = []) : step s = advance s := by
  simp only [step, h]

theorem step_input {s : State} {x : Input} {rest : List Input} (h : s.inputs = x :: rest) :
    step s = serve x rest s := by
  simp only [step, h]

/-- An idle core with no input waits (rule R161). -/
theorem step_idle {s : State} (h : s.inputs = []) (ho : s.op = .idle) : step s = .next s := by
  rw [step_no_input h, advance, if_pos ho]

/-- A busy core with no input lets the sequencer go on. -/
theorem step_busy {s : State} (h : s.inputs = []) (ho : s.op ≠ .idle) : step s = sequencerStep s := by
  rw [step_no_input h, advance, if_neg ho]

/-- Everything a command word at the port of an idle core can do. -/
theorem runCommand_cases (c : CmdWord) (s : State) :
    (∃ i, decodeCommand c = .op i ∧ runCommand c s = exec i s) ∨
      ∃ e, decodeCommand c = .illegal e ∧ runCommand c s = .next (takeFault (.illegalOp c) s) := by
  unfold runCommand
  cases decodeCommand c with
  | op i => exact .inl ⟨i, rfl, rfl⟩
  | illegal e => exact .inr ⟨e, rfl, rfl⟩

/-- The command port decodes host operations only (rule R75). -/
theorem decodeCommand_level {c : CmdWord} {i : Instr} (h : decodeCommand c = .op i) : i.level = .host := by
  unfold decodeCommand withoutImm at h
  split_ifs at h <;> cases h <;> rfl

/-- The issue line decodes micro-operations only (rule R66). -/
theorem decodeIssue_level {c : CmdWord} {i : Instr} (h : decodeIssue c = .op i) : i.level = .micro := by
  unfold decodeIssue withoutImm at h
  split_ifs at h <;> cases h <;> rfl

end Sys2Proof.Machine
end

