-- ==== Sys2Proof/Tests/Slice0.lean ====
section
/-! SUPPORT. Tests: the words of spec/30_encoding.md rule R66 written out, one or two vectors of
spec/95_test_vectors.md for each operation, and for each statement with hypotheses a state that meets them. -/

namespace Sys2Proof.Tests

open Sys2Proof.Machine

/-! ### Helpers -/

/-- The next state, or the reset state where there is none. -/
def after : Host.Outcome State Fault Refusal → State
  | .next t => t
  | .fault _ => State.reset
  | .refused _ => State.reset

/-- Whether there is a next state. -/
def goesOn : Host.Outcome State Fault Refusal → Bool
  | .next _ => true
  | .fault _ => false
  | .refused _ => false

theorem eq_next_after {o : Host.Outcome State Fault Refusal} (h : goesOn o = true) : o = .next (after o) := by
  cases o with
  | next t => rfl
  | fault f => cases h
  | refused f => cases h

/-- A state after reset with bytes in `SRC`. -/
def withSrc (bs : List Byte) : State := { State.reset with src := Memory.ofBytes bs }

/-- A state after reset with bytes in `ART`. -/
def withArt (bs : List Byte) : State := { State.reset with art := Memory.ofBytes bs }

/-- All operand registers written. -/
def allWritten : Written := { chunk := true, taddr := true, blkno := true, nblk := true, base := true }

/-- A state after reset with the operands of ENCBLK written. -/
def withBlock (chunk : List Byte) (taddr blkno nblk : Word) : State :=
  { State.reset with chunk := chunk, taddr := taddr, blkno := blkno, nblk := nblk, written := allWritten }

/-- A state after reset with `SRC` and `BASE` presented. -/
def withImage (bs : List Byte) (base : Word) : State :=
  { withSrc bs with base := base, written := allWritten }

/-- A state after reset with one input of the host to come. -/
def withInput (x : Input) : State := { State.reset with inputs := [x] }

/-- "123456789" (S3 of spec/95_test_vectors.md). -/
def nineDigits : List Byte := [0x31, 0x32, 0x33, 0x34, 0x35, 0x36, 0x37, 0x38, 0x39]

theorem noFailure_reset (k : Nat) : NoFailure State.reset k := by
  intro d hd
  exact absurd hd (by simp [State.reset])

/-- `BLK` has its size after reset, and so in every state the helpers build. -/
theorem blk_length_reset : State.reset.blk.length = 512 := List.length_replicate

/-! ### WellFormed: every check refuses an ill-formed term -/

theorem test_wellFormed_micro_at_command : Instr.wellFormed .command .crcBit = false := by decide
theorem test_wellFormed_host_on_issue_line : Instr.wellFormed .issue .patch = false := by decide

/-! ### Words written out from rule R66: bits 15 to 8 the code, bits 7 to 0 the immediate -/

theorem test_decode_crc : decodeCommand 0b0000000100000000 = .op .crc := by decide
theorem test_decode_patch : decodeCommand 0b0000001000000000 = .op .patch := by decide
theorem test_decode_encblk : decodeCommand 0b0000001100000000 = .op .encblk := by decide
theorem test_decode_assemble : decodeCommand 0b0000010000000000 = .op .assemble := by decide
theorem test_decode_crcSeed : decodeIssue 0b0001000000000000 = .op .crcSeed := by decide
theorem test_decode_crcLoad : decodeIssue 0b0001000100110001 = .op (.crcLoad 0x31) := by decide
theorem test_decode_crcBit : decodeIssue 0b0001001000000000 = .op .crcBit := by decide
theorem test_decode_crcByte : decodeIssue 0b0001001110000001 = .op (.crcByte 0x81) := by decide
theorem test_decode_crcSer : decodeIssue 0b0001010000000000 = .op .crcSer := by decide
theorem test_decode_crcRun : decodeIssue 0b0001010100000000 = .op .crcRun := by decide

/-- Words spec/95_test_vectors.md, "Command decode", lists as illegal. -/
theorem test_decode_illegal :
    [(0x0000 : CmdWord), 0x0101, 0x0401, 0x0500, 0x0F00, 0x1000, 0x1131, 0x1500, 0x1600, 0xFFFF].all
      (fun c => (decodeCommand c).toOption.isNone) = true := by decide

theorem test_table_word : decodeTableWord 16 0x13FF = some (.crcByte 0xFF) := by decide

/-- Every row's word is the first thing that runs after reset, and it runs. -/
theorem test_rows_run_from_reset :
    [0x0100, 0x0200, 0x0300, 0x0400, 0x1000, 0x1131, 0x1200, 0x1331, 0x1400, 0x1500].all
      (fun w => goesOn (step (State.reset.withFetchWord 16 w))) = true := by decide +kernel

/-! ### One or two vectors for each operation -/

/-- V-SEED-2. -/
theorem test_crcSeed : (after (exec .crcSeed { State.reset with r := 0x0376E6E7 })).r = 0xFFFFFFFF := by decide

/-- V-LOAD-3. -/
theorem test_crcLoad :
    (after (exec (.crcLoad 0x31) State.reset)).w = 0x31000000 ∧
      (after (exec (.crcLoad 0x31) State.reset)).n = 8 := by decide

/-- V-BIT-5: the bit that leaves at the top is lost, and the polynomial comes in. -/
theorem test_crcBit_feedback :
    (after (exec .crcBit { State.reset with r := 0xFFFFFFFF, n := 1 })).r = 0xFB3EE249 := by decide

/-- V-BIT-7. -/
theorem test_crcBit_no_feedback :
    (after (exec .crcBit { State.reset with r := 0x7FFFFFFF, w := 0x31000000, n := 8 })).r = 0xFFFFFFFE ∧
      (after (exec .crcBit { State.reset with r := 0x7FFFFFFF, w := 0x31000000, n := 8 })).w = 0x62000000 := by
  decide

/-- V-BYTE-2. -/
theorem test_crcByte :
    (after (exec (.crcByte 0x31) { State.reset with r := 0xFFFFFFFF })).r = 0x9EFBCF93 := by decide +kernel

/-- V-SER-1. -/
theorem test_crcSer :
    (after (exec .crcSer { State.reset with r := 0x0376E6E7 })).ck = [0xE7, 0xE6, 0x76, 0x03] := by decide

/-- V-RUN-8, over three bytes in the middle of a buffer. -/
theorem test_crcRun :
    (after (exec .crcRun { withSrc [0xFF, 0x61, 0x62, 0x63, 0xFF] with
      run := { buf := .src, off := 1, len := 3 } })).r = 0x9B73448C := by decide +kernel

/-- S3: `crc("123456789")`. -/
theorem test_crc :
    (after (exec .crc (withSrc nineDigits))).result = .ok (.checksum [0xE7, 0xE6, 0x76, 0x03]) := by
  decide +kernel

/-- V-RUN-11 in four pieces: the engine over 252 bytes of 00. -/
theorem crcRegister_zeros_252 : crcRegister (zeros 252) = 0x7065399A := by
  have h : zeros 252 = zeros 63 ++ (zeros 63 ++ (zeros 63 ++ zeros 63)) := by simp [zeros]
  have h1 : crcFrom 0xFFFFFFFF (zeros 63) = 3634670312#32 := by decide +kernel
  have h2 : crcFrom 3634670312#32 (zeros 63) = 995742895#32 := by decide +kernel
  have h3 : crcFrom 995742895#32 (zeros 63) = 3193787731#32 := by decide +kernel
  have h4 : crcFrom 3193787731#32 (zeros 63) = 0x7065399A := by decide +kernel
  rw [crcRegister, h, crcFrom_append, crcFrom_append, crcFrom_append, Config.crcInit, h1, h2, h3, h4]

/-- V-PATCH-1: 256 bytes of 00. -/
theorem test_patch_zeros :
    ∃ t, exec .patch (withArt (zeros 256)) = .next t ∧ t.result = .ok .noValue ∧
      t.art.cells = [(252, 0x9A), (253, 0x39), (254, 0x65), (255, 0x70)] := by
  have hb : ((withArt (zeros 256)).art.bytes.take Config.bootCoverLen) = zeros 252 := by
    show (Memory.ofBytes (zeros 256)).bytes.take 252 = zeros 252
    rw [Memory.bytes_ofBytes, zeros, zeros, List.take_replicate, show min 252 256 = 252 from rfl]
  have hn : ∀ m, ((withArt (zeros 256)).ioDraws.drop m).headD false = false := by
    intro m; simp [withArt, State.reset]
  rcases execPatch_cases (withArt (zeros 256)) with ⟨h, _⟩ | ⟨m, _, _, _, _, h, _⟩ | ⟨_, _, h⟩
  · simp [withArt, Config.bootMinLen] at h
  · rw [hn] at h; simp at h
  · refine ⟨_, h, rfl, ?_⟩
    rw [complete_eq, finish_art, hb, checksum, crcRegister_zeros_252]
    decide +kernel

/-- V-PATCH-5: 255 bytes. -/
theorem test_patch_too_short :
    (after (exec .patch (withArt (zeros 255)))).result = .fault (.bootImageTooShort 255) := by decide +kernel

/-- V-ENC-1: the first 32 bytes of the block, with the vector's family id (instantiation B). -/
theorem test_encblk_header :
    (uf2Block 0x11223344 [0xAA, 0xBB, 0xCC] 0x20000000 0 1).take 36 =
      [0x55, 0x46, 0x32, 0x0A, 0x57, 0x51, 0x5D, 0x9E, 0x00, 0x20, 0x00, 0x00, 0x00, 0x00, 0x00, 0x20,
       0x00, 0x01, 0x00, 0x00, 0x00, 0x00, 0x00, 0x00, 0x01, 0x00, 0x00, 0x00, 0x44, 0x33, 0x22, 0x11,
       0xAA, 0xBB, 0xCC, 0x00] := by decide +kernel

/-- V-ENC-5: a chunk of 257 bytes. -/
theorem test_encblk_too_large :
    (after (exec .encblk (withBlock (zeros 257) 0 0 1))).result = .fault (.chunkTooLarge 257) := by
  decide +kernel

/-- S9: 300 bytes give two blocks. -/
theorem test_assemble_two_blocks :
    (after (exec .assemble (withImage (zeros 300) 0x10000000))).dst.len = 1024 := by decide +kernel

/-- Two blocks at a base whose second address does not fit (rule R126). -/
theorem test_assemble_range :
    (after (exec .assemble (withImage (zeros 257) 0xFFFFFF00))).result =
      .fault (.rangeOverflow 0xFFFFFF00 257) := by decide +kernel

/-! ### Witnesses: a state that meets the hypotheses of each statement -/

theorem witness_CommandDecodeIsTotal_host :
    [(0x0100 : CmdWord), 0x0400].all (fun c => decide (0x01 ≤ opField c ∧ opField c ≤ 0x04 ∧ immField c = 0)) =
      true := by decide

theorem witness_CommandDecodeIsTotal_illegal :
    [(0x0000 : CmdWord), 0x0401, 0x0500, 0xFFFF].all (fun c =>
      decide (¬ (0x01 ≤ opField c ∧ opField c ≤ 0x04 ∧ immField c = 0) ∧
        (withInput (.present c)).inputs = [.present c] ∧ (withInput (.present c)).op = .idle)) = true := by
  decide

theorem witness_CommandDecodeIsTotal_issue :
    (withInput (.issue 0x1500)).op = .idle ∧ (withInput (.issue 0x1500)).inputs = [.issue 0x1500] ∧
      decodeIssue 0x1500 = .op .crcRun := by decide

theorem witness_DecodeAndEncodeAgree :
    decodeAt .command 0x0400 = .op .assemble ∧ Instr.wellFormed .command .assemble = true ∧
      encode .assemble = 0x0400 ∧ decodeAt .issue 0x11FF = .op (.crcLoad 0xFF) ∧
      Instr.wellFormed .issue (.crcLoad 0xFF) = true ∧ encode (.crcLoad 0xFF) = 0x11FF := by decide

theorem witness_IllegalOpForEveryOtherWord :
    (∀ i : Instr, i.level = .host → encode i ≠ 0x0500) ∧
      (withInput (.present 0x0500)).op = .idle ∧ (withInput (.present 0x0500)).inputs = [.present 0x0500] ∧
      (withInput (.presentStepped 0x0500)).op = .idle ∧
      (withInput (.presentStepped 0x0500)).inputs = [.presentStepped 0x0500] := by
  refine ⟨?_, by decide⟩
  intro i h
  cases i <;> first | decide | cases h

theorem witness_StepRunsTheDecodedOperation :
    (withInput (.present 0x0100)).op = .idle ∧ (withInput (.present 0x0100)).inputs = [.present 0x0100] ∧
      decodeCommand 0x0100 = .op .crc ∧ (withInput (.issue 0x1131)).inputs = [.issue 0x1131] ∧
      decodeIssue 0x1131 = .op (.crcLoad 0x31) := by decide

/-- CRC over "1" at a phase of the sequencer. -/
def crcAt (phase : Phase) (n : BitVec 4) : State :=
  { withSrc [0x31] with op := .crc, phase := phase, n := n, run := { buf := .src, off := 0, len := 1 } }

theorem witness_SequencerIssuesMicroOperations :
    (crcAt .load 0).inputs = [] ∧ (crcAt .load 0).op = .crc ∧ (crcAt .seed 0).phase = .seed ∧
      (crcAt .load 0).phase = .load ∧
      ((crcAt .load 0).buffer .src).read ((crcAt .load 0).run.off + (crcAt .load 0).i) = some 0x31 ∧
      (crcAt .load 0).accessFails = false ∧ (crcAt .bit 2).phase = .bit ∧ (crcAt .bit 2).n ≠ 0 ∧
      (crcAt .bit 2).n ≠ 1 ∧ (crcAt .bit 1).n = 1 ∧ (crcAt .ser 0).phase = .ser := by decide

theorem witness_ResetLeavesTheCoreIdle :
    (withInput .reset).inputs = [.reset] ∧ (withInput .reset).op = .idle ∧
      ({ crcAt .seed 0 with inputs := [.reset] } : State).inputs = [.reset] ∧ (crcAt .seed 0).op ≠ .idle := by
  decide

/-- A reset in the middle of an operation is a fault of that operation (decision D7), of an idle core it is not. -/
theorem test_reset_faults_the_operation :
    (after (step { crcAt .seed 0 with inputs := [.reset] })).result = .fault .resetDuringOperation ∧
      (after (step (withInput .reset))).result = .ok .noValue := by decide

theorem witness_BusyCoreRefusesTheHost :
    (crcAt .seed 0).op ≠ .idle ∧
      ({ crcAt .seed 0 with inputs := [.write (.taddr 0)] } : State).inputs = [.write (.taddr 0)] ∧
      ({ crcAt .seed 0 with inputs := [.read .dst] } : State).inputs = [.read .dst] ∧
      ({ crcAt .seed 0 with inputs := [.present 0x0100] } : State).inputs = [.present 0x0100] ∧
      ({ crcAt .seed 0 with inputs := [.presentStepped 0x0100] } : State).inputs = [.presentStepped 0x0100] ∧
      ({ crcAt .seed 0 with inputs := [.issue 0x1000] } : State).inputs = [.issue 0x1000] := by decide

/-- The state after reset, with any inputs, meets the invariant: for the witnesses below. -/
theorem inv_idle (s : State) (ha : s.art.wf = true) (hs : s.src.wf = true) (hd : s.dst.wf = true)
    (hc : s.ck.length = 4) (hb : s.blk.length = 512) (hn : s.n.toNat ≤ 8) (ho : s.op = .idle)
    (hst : s.stage = []) : Inv s :=
  ⟨ha, hs, hd, hc, hb, hn, by simp [Position, ho, hst]⟩

/-- CRC over "1", one bit step done: the sequencer in the middle of a byte. -/
def midByte : State :=
  { crcAt .bit 7 with r := bitStep 0xFFFFFFFF (loadWord 0x31), w := loadWord 0x31 <<< 1 }

theorem inv_midByte : Inv midByte := by
  have hs : midByte.src.bytes = [0x31] := Memory.bytes_ofBytes _
  refine ⟨by decide, by decide, by decide, by decide, blk_length_reset, by decide, ?_⟩
  refine ⟨fun _ => rfl, ?_⟩
  rw [hs]
  exact ⟨0x31, rfl, by decide, by decide, rfl, rfl⟩

theorem witness_StepKeepsTheInvariant :
    Inv midByte ∧ step midByte = .next (after (step midByte)) :=
  ⟨inv_midByte, eq_next_after (by decide +kernel)⟩

theorem witness_DutifulHostIsAnswered : Inv midByte ∧ InputAllowed midByte := ⟨inv_midByte, trivial⟩

theorem witness_DutifulHostIsAnswered_idle :
    Inv { withImage [0x31] 0 with inputs := [.present 0x0400] } ∧
      InputAllowed { withImage [0x31] 0 with inputs := [.present 0x0400] } :=
  ⟨inv_idle _ (by decide) (by decide) (by decide) (by decide) blk_length_reset (by decide) rfl rfl, rfl⟩

theorem witness_SequencedRunIsTheBigStep :
    [((0x0100 : CmdWord), Instr.crc), (0x0200, .patch), (0x0300, .encblk), (0x0400, .assemble)].all (fun x =>
      decide ((withInput (.presentStepped x.1)).op = .idle ∧ decodeCommand x.1 = .op x.2 ∧
        (withInput (.presentStepped x.1)).inputs = [.presentStepped x.1])) = true := by decide

/-- A state that differs from `s` in everything no operation may depend on. -/
def disturbed (s : State) : State :=
  { s with r := 1, w := 2, n := 3, ck := [1, 2, 3, 4], stage := [0x07], i := 4, j := 5, result := .fault (.illegalOp 0) }

/-- For each operation two states that agree on its inputs only. -/
theorem witness_ResultDependsOnInputsAlone :
    SameInputs .crc (withSrc [0x31]) (disturbed (withImage [0x31] 7)) ∧
      SameInputs .patch (withArt (zeros 256)) (disturbed { withImage [0x31] 7 with art := Memory.ofBytes (zeros 256) }) ∧
      SameInputs .encblk (withBlock [0x31] 1 2 3) (disturbed { withBlock [0x31] 1 2 3 with base := 9 }) ∧
      SameInputs .assemble (withImage [0x31] 7) (disturbed { withImage [0x31] 7 with taddr := 9, chunk := [0x05] }) ∧
      (withSrc [0x31]).blk.length = Config.uf2BlockLen :=
  ⟨⟨rfl, rfl⟩, ⟨rfl, rfl⟩, ⟨rfl, rfl, rfl, rfl⟩, ⟨rfl, rfl, rfl⟩, blk_length_reset⟩

theorem witness_OperandsLastForOneOperation :
    (∃ t, exec .encblk (withBlock [0x31] 0 0 1) = .next t) ∧
      (∃ t, exec .encblk (withBlock (zeros 257) 0 0 1) = .next t) ∧
      ∃ t, exec .assemble (withImage [0x31] 0) = .next t :=
  ⟨⟨_, eq_next_after (by decide +kernel)⟩, ⟨_, eq_next_after (by decide +kernel)⟩,
    ⟨_, eq_next_after (by decide +kernel)⟩⟩

/-- ENCBLK twice with operands written once: the second runs, on "any value" (U10). -/
theorem test_encblk_runs_again : ∃ u, exec .encblk (after (exec .encblk (withBlock [0x31] 0 0 1))) = .next u :=
  execHost_answers (i := .encblk) _ rfl

/-- ENCBLK presented right after reset, no operand written: it answers with a block. -/
theorem test_encblk_runs_from_reset :
    (match (after (exec .encblk State.reset)).result with
      | .ok (.block b) => b.length
      | _ => 0) = 512 := by decide +kernel

/-- Write `BASE`, PATCH, reset, ASSEMBLE: `BASE` is there for ASSEMBLE as without the reset (rule R30). -/
theorem test_base_survives_reset :
    (resetCore (after (exec .patch { withArt (zeros 255) with base := 0x10000000, written := allWritten }))).base =
        0x10000000 ∧
      (resetCore (after (exec .patch { withArt (zeros 255) with base := 0x10000000, written := allWritten }))).written =
        allWritten := by
  decide +kernel

theorem witness_ResetBetweenOperationsChangesNoResult :
    [((0x0100 : CmdWord), Instr.crc), (0x0200, .patch), (0x0300, .encblk), (0x0400, .assemble)].all (fun x =>
      decide (decodeCommand x.1 = .op x.2)) = true ∧
      decodeCommand 0x1200 = .illegal (.microFromHost 0x12) ∧ (withBlock [0x31] 0 0 1).op = .idle ∧
      (withBlock [0x31] 0 0 1).blk.length = 512 ∧
      ({ withBlock [0x31] 0 0 1 with inputs := [.reset, .present 0x0300] } : State).inputs = [.reset, .present 0x0300] ∧
      ({ withBlock [0x31] 0 0 1 with inputs := [.reset, .presentStepped 0x0300] } : State).inputs =
        [.reset, .presentStepped 0x0300] ∧
      ({ withBlock [0x31] 0 0 1 with inputs := [.reset, .write (.taddr 0)] } : State).inputs =
        [.reset, .write (.taddr 0)] :=
  ⟨by decide, by decide, rfl, blk_length_reset, rfl, rfl, rfl⟩

/-- `BASE` written before PATCH is there for ASSEMBLE (program P4 of spec/95_test_vectors.md). -/
theorem test_base_survives_patch :
    (after (exec .patch { withArt (zeros 255) with base := 0x10000000, written := allWritten })).base = 0x10000000 ∧
      (after (exec .patch { withArt (zeros 255) with base := 0x10000000, written := allWritten })).written =
        allWritten := by
  decide +kernel

theorem witness_NothingIsCommittedInProgress :
    step midByte = .next (after (step midByte)) ∧ (after (step midByte)).op ≠ .idle ∧
      midByte.op ≠ .idle ∧ ({ midByte with inputs := [.reset] } : State).inputs = [.reset] :=
  ⟨eq_next_after (by decide +kernel), by decide +kernel, by decide, rfl⟩

theorem witness_FaultCommitsNothing :
    Instr.level .patch = .host ∧ exec .patch State.reset = .next (after (exec .patch State.reset)) ∧
      (after (exec .patch State.reset)).result = .fault (.bootImageTooShort 0) :=
  ⟨rfl, eq_next_after (by decide), by decide⟩

theorem witness_CrcLoadAlignsTheByte : Inv (crcAt .load 0 |> engineSeed) ∧
    (crcAt .load 0 |> engineSeed).op = .crc ∧ (crcAt .load 0 |> engineSeed).phase = .load := by
  have hs : (crcAt .load 0 |> engineSeed).src.bytes = [0x31] := Memory.bytes_ofBytes _
  refine ⟨⟨by decide, by decide, by decide, by decide, blk_length_reset, by decide, fun _ => rfl, ?_⟩, rfl, rfl⟩
  rw [hs]
  exact ⟨rfl, by decide, rfl⟩

theorem witness_CrcBitIsOneSerialStep :
    (crcAt .bit 1).n ≠ 0 ∧ (crcAt .bit 0).n = 0 ∧ midByte.op = .crc ∧ midByte.phase = .bit ∧ Inv midByte :=
  ⟨by decide, rfl, rfl, rfl, inv_midByte⟩

theorem witness_CrcBitIsAShiftRegisterWithTaps : midByte.n ≠ 0 ∧ 0 < 1 ∧ 31 < 32 := by decide

/-- CRC.RUN over the middle of a buffer. -/
def runInBuffer : State :=
  { withSrc [0xFF, 0x61, 0x62] with run := { buf := .src, off := 1, len := 2 } }

theorem witness_CrcRunFoldsTheRange : runInBuffer.runBytes = some [0x61, 0x62] ∧ NoFailure runInBuffer 2 :=
  ⟨by decide, noFailure_reset 2⟩

/-- The bounds of the range: all of it, none of it at the end. -/
theorem witness_CrcRunFoldsTheRange_bounds :
    ({ runInBuffer with run := { buf := .src, off := 0, len := 3 } } : State).runBytes = some [0xFF, 0x61, 0x62] ∧
      ({ runInBuffer with run := { buf := .src, off := 3, len := 0 } } : State).runBytes = some [] := by decide

/-- The least range that leaves its buffer: one byte from its end. -/
def runBeyondBuffer : State := { runInBuffer with run := { buf := .src, off := 3, len := 1 } }

theorem witness_CrcRunStaysInItsBuffer :
    (runBeyondBuffer.buffer runBeyondBuffer.run.buf).len <
      runBeyondBuffer.run.off + runBeyondBuffer.run.len := by decide

/-- CRC.RUN over two bytes whose second read fails; `IO_CAN_FAIL` is an open parameter (log entry 1). -/
theorem witness_CrcRunFailsAtTheFirstFailingRead :
    ({ runInBuffer with ioDraws := [false, true] } : State).runBytes = some [0x61, 0x62] ∧
      1 < [(0x61 : Byte), 0x62].length ∧
      (∀ d ∈ ({ runInBuffer with ioDraws := [false, true] } : State).ioDraws.take 1, d = false) ∧
      ({ runInBuffer with ioDraws := [false, true] } : State).ioDraws[1]? = some true := by decide

theorem witness_CrcReturnsTheChecksum : NoFailure (withSrc nineDigits) (withSrc nineDigits).src.len :=
  noFailure_reset _

theorem witness_CrcOfNothingIsAllOnes :
    (withSrc []).src.len = 0 ∧ (withSrc []).run.len = 0 ∧ (withSrc []).run.off ≤ ((withSrc []).buffer .src).len := by
  decide

/-- Two reads are answered well, the third fails. -/
def thirdFails : State := { withSrc nineDigits with ioDraws := [false, false, true] }

theorem witness_CrcFailsAtTheFirstFailingRead :
    2 < thirdFails.src.len ∧ (∀ d ∈ thirdFails.ioDraws.take 2, d = false) ∧ thirdFails.ioDraws[2]? = some true := by
  decide

/-- The empty sequence, whose register is the seed. -/
theorem witness_ResidueIsZeroInBigEndianOrder :
    (withSrc [0xFF, 0xFF, 0xFF, 0xFF]).src.bytes = [] ++ be32 (crcRegister []) ∧
      NoFailure (withSrc [0xFF, 0xFF, 0xFF, 0xFF]) (withSrc [0xFF, 0xFF, 0xFF, 0xFF]).src.len :=
  ⟨by decide, noFailure_reset _⟩

theorem witness_EngineIsLinear : (nineDigits.take 4).length = (zeros 4).length := by decide

theorem witness_PatchRejectsAShortImage : (withArt (zeros 255)).art.len < 256 := by
  simp [withArt]

/-- An artifact of 260 bytes, longer than the patched image. -/
theorem witness_PatchWritesTheChecksum :
    256 ≤ (withArt (zeros 260)).art.len ∧ 256 < (withArt (zeros 260)).art.len ∧
      NoFailure (withArt (zeros 260)) 253 :=
  ⟨by simp [withArt], by simp [withArt], noFailure_reset _⟩

theorem witness_PatchWritesTheChecksum_least :
    256 ≤ (withArt (zeros 256)).art.len ∧ NoFailure (withArt (zeros 256)) 253 :=
  ⟨by simp [withArt], noFailure_reset _⟩

/-- PATCH at the start of a sequenced run. -/
def patchStart : State := { withArt (zeros 256) with op := .patch }

theorem witness_PatchCommitsWholeOrNotAtAll :
    (∃ t, exec .patch (withArt (zeros 256)) = .next t) ∧ Inv patchStart ∧ patchStart.op = .patch ∧
      step patchStart = .next (after (step patchStart)) := by
  refine ⟨test_patch_zeros.imp fun _ h => h.1, ?_, rfl, eq_next_after (by decide +kernel)⟩
  refine ⟨Memory.wf_ofBytes _, rfl, rfl, rfl, blk_length_reset, by decide, ?_⟩
  exact ⟨fun h => absurd rfl h, rfl⟩

theorem witness_PatchIsIdempotent :
    ∃ t u, exec .patch (withArt (zeros 256)) = .next t ∧ t.result = .ok .noValue ∧ exec .patch t = .next u := by
  obtain ⟨t, h1, h2, _⟩ := test_patch_zeros
  rcases execPatch_cases t with ⟨_, h⟩ | ⟨_, _, _, _, _, _, _, h⟩ | ⟨_, _, h⟩ <;> exact ⟨t, _, h1, h2, h⟩

/-- PATCH of an artifact long enough, no access failing. -/
theorem patch_ok (bs : List Byte) (h : 256 ≤ bs.length) :
    ∃ t, exec .patch (withArt bs) = .next t ∧ t.result = .ok .noValue := by
  have hn : ∀ m, ((withArt bs).ioDraws.drop m).headD false = false := by
    intro m; simp [withArt, State.reset]
  rcases execPatch_cases (withArt bs) with ⟨h1, _⟩ | ⟨m, _, _, _, _, h1, _⟩ | ⟨_, _, h1⟩
  · have h2 : bs.length < 256 := h1
    omega
  · rw [hn] at h1; simp at h1
  · exact ⟨_, h1, rfl⟩

/-- Two artifacts that agree in [0,252) and differ after it. -/
theorem witness_PatchIsIdempotent_agree :
    (∃ t, exec .patch (withArt (zeros 256)) = .next t ∧ t.result = .ok .noValue) ∧
    (∃ t, exec .patch (withArt (zeros 252 ++ [1, 2, 3, 4])) = .next t ∧ t.result = .ok .noValue) ∧
    (withArt (zeros 256)).art.bytes.take 252 = (withArt (zeros 252 ++ [1, 2, 3, 4])).art.bytes.take 252 := by
  refine ⟨patch_ok _ (by simp), patch_ok _ (by simp), ?_⟩
  rw [show (withArt (zeros 256)).art.bytes = zeros 256 from Memory.bytes_ofBytes _,
    show (withArt (zeros 252 ++ [1, 2, 3, 4])).art.bytes = zeros 252 ++ [1, 2, 3, 4] from Memory.bytes_ofBytes _,
    List.take_append_of_le_length (by simp), zeros, zeros, List.take_replicate, List.take_replicate]
  rfl

/-- An artifact of 256 bytes where access `m` is the first that fails. -/
def patchFailsAt (m : Nat) : State :=
  { withArt (zeros 256) with ioDraws := List.replicate m false ++ [true] }

theorem witness_PatchFailsWithTheArtifactIntact (m : Nat) :
    256 ≤ (patchFailsAt m).art.len ∧ (∀ d ∈ (patchFailsAt m).ioDraws.take m, d = false) ∧
      (patchFailsAt m).ioDraws[m]? = some true := by
  refine ⟨by simp [patchFailsAt, withArt], ?_, by simp [patchFailsAt]⟩
  intro d hd
  have hd' : ¬m = 0 ∧ d = false := by simpa [patchFailsAt] using hd
  exact hd'.2

/-- The first read and the commit, the bounds of `m`. -/
theorem witness_PatchFailsWithTheArtifactIntact_bounds :
    (patchFailsAt 0).ioDraws[0]? = some true ∧ (patchFailsAt 252).ioDraws[252]? = some true :=
  ⟨(witness_PatchFailsWithTheArtifactIntact 0).2.2, (witness_PatchFailsWithTheArtifactIntact 252).2.2⟩

theorem witness_EncblkReturnsTheRecord :
    (withBlock (zeros 256) 0xFFFFFFFF 7 3).clen ≤ 256 ∧
      (withBlock (zeros 256) 0xFFFFFFFF 7 3).blk.length = 512 :=
  ⟨by simp [withBlock, State.clen], blk_length_reset⟩

theorem witness_EncblkRejectsALongChunk :
    256 < (withBlock (zeros 257) 0 0 1).clen ∧
      exec .assemble (withImage [] 0) = .next (after (exec .assemble (withImage [] 0))) :=
  ⟨by simp [withBlock, State.clen], eq_next_after (by decide)⟩

/-- A block returned: the hypotheses of `EncblkPadsWithZeros` and, twice, of `EncblkConstantsAcrossBlocks`. -/
theorem witness_EncblkBlock (chunk : List Byte) (h : chunk.length ≤ 256) :
    (withBlock chunk 0 0 1).blk.length = 512 ∧ ∃ t b, exec .encblk (withBlock chunk 0 0 1) = .next t ∧
      t.result = .ok (.block b) := by
  refine ⟨blk_length_reset, ?_⟩
  rcases execEncblk_cases (withBlock chunk 0 0 1) with ⟨h1, _⟩ | ⟨_, h1⟩
  · exact absurd h1 (by simpa [withBlock, State.clen, Config.uf2ChunkMax] using h)
  · exact ⟨_, _, h1, rfl⟩

theorem witness_EncblkPadsWithZeros_bounds : ([] : List Byte).length ≤ 256 ∧ (zeros 256).length ≤ 256 := by
  simp

/-- From reset: no operand written, for either operation; a chunk on either side of the bound; a range that does
not fit. -/
theorem witness_OperandsNeverWrittenAreReadAsTheyStand :
    State.reset.blk.length = 512 ∧ State.reset.clen ≤ 256 ∧ 256 < (withBlock (zeros 257) 0 0 1).clen ∧
      rangeOverflows (withImage (zeros 257) 0xFFFFFF00).base (withImage (zeros 257) 0xFFFFFF00).src.len = true ∧
      (withInput (.present 0x0300)).op = .idle ∧ (withInput (.present 0x0300)).inputs = [.present 0x0300] ∧
      decodeCommand 0x0300 = .op .encblk ∧ ¬ OperandsWritten (withInput (.present 0x0300)) .encblk ∧
      decodeCommand 0x0400 = .op .assemble ∧ ¬ OperandsWritten (withInput (.present 0x0400)) .assemble := by
  refine ⟨blk_length_reset, by decide, by simp [withBlock, State.clen], by decide +kernel, rfl, rfl, by decide, ?_,
    by decide, ?_⟩
  · show ¬ State.reset.written.missing encblkOperands = none
    decide
  · show ¬ State.reset.written.missing assembleOperands = none
    decide

theorem witness_AssembleReplacesTheContainer :
    rangeOverflows (withImage (zeros 300) 0x10000000).base (withImage (zeros 300) 0x10000000).src.len = false ∧
      (withImage (zeros 300) 0x10000000).blk.length = 512 ∧
      NoFailure (withImage (zeros 300) 0x10000000) (((withImage (zeros 300) 0x10000000).src.len + 255) / 256 + 1) :=
  ⟨by decide +kernel, blk_length_reset, noFailure_reset _⟩

/-- ASSEMBLE before the second of two chunks, at the highest base whose range fits. -/
def packSecond : State :=
  { withImage (zeros 257) 0xFFFFFEFF with
    op := .assemble
    phase := .pack
    j := 1
    stage := containerUpTo Config.familyId 0xFFFFFEFF (zeros 257) 1 }

theorem witness_AssembleWritesTheOperandsOfEachBlock :
    Inv packSecond ∧ packSecond.inputs = [] ∧ packSecond.op = .assemble ∧ packSecond.phase = .pack ∧
      packSecond.accessFails = false := by
  refine ⟨⟨rfl, Memory.wf_ofBytes _, rfl, rfl, blk_length_reset, by decide, ?_⟩, rfl, rfl, rfl, rfl⟩
  refine ⟨by decide +kernel, by decide +kernel, ?_⟩
  show containerUpTo _ _ (zeros 257) 1 = containerUpTo _ _ (Memory.ofBytes (zeros 257)).bytes 1
  rw [Memory.bytes_ofBytes]
  rfl

/-- The read of the one chunk fails; the commit fails. -/
theorem witness_AssembleFailsWithTheContainerIntact :
    rangeOverflows (withImage [0x31] 0).base (withImage [0x31] 0).src.len = false ∧
      0 ≤ ((withImage [0x31] 0).src.len + 255) / 256 ∧ 1 ≤ ((withImage [0x31] 0).src.len + 255) / 256 ∧
      ({ withImage [0x31] 0 with ioDraws := [true] } : State).ioDraws[0]? = some true ∧
      ({ withImage [0x31] 0 with ioDraws := [false, true] } : State).ioDraws[1]? = some true ∧
      (∀ d ∈ ({ withImage [0x31] 0 with ioDraws := [false, true] } : State).ioDraws.take 1, d = false) := by
  decide

theorem witness_AssembleChecksTheRangeFirst :
    0 < ((withImage (zeros 257) 0xFFFFFF00).src.len + 255) / 256 ∧
      0xFFFFFFFF < (withImage (zeros 257) 0xFFFFFF00).base.toNat +
        256 * (((withImage (zeros 257) 0xFFFFFF00).src.len + 255) / 256 - 1) ∧
      exec .assemble (withImage (zeros 257) 0xFFFFFF00) =
        .next (after (exec .assemble (withImage (zeros 257) 0xFFFFFF00))) :=
  ⟨by decide +kernel, by decide +kernel, eq_next_after (by decide +kernel)⟩

theorem witness_AssembleOfNothingIsEmpty :
    (withImage [] 0xFFFFFFFF).src.len = 0 ∧ NoFailure (withImage [] 0xFFFFFFFF) 1 :=
  ⟨rfl, noFailure_reset _⟩

/-- A container made: the hypotheses of `ContainerRoundTrip`, `AssembleCommitsWholeOrNotAtAll` and
`AssembledBlocksHaveTheirFields`, the last for both blocks. -/
theorem witness_AssembledBlocksHaveTheirFields :
    (withImage (zeros 257) 0x10000000).blk.length = 512 ∧
      exec .assemble (withImage (zeros 257) 0x10000000) =
        .next (after (exec .assemble (withImage (zeros 257) 0x10000000))) ∧
      (after (exec .assemble (withImage (zeros 257) 0x10000000))).result = .ok .noValue ∧
      0 < ((withImage (zeros 257) 0x10000000).src.len + 255) / 256 ∧
      1 < ((withImage (zeros 257) 0x10000000).src.len + 255) / 256 :=
  ⟨blk_length_reset, eq_next_after (by decide +kernel),
    by decide +kernel, by decide +kernel, by decide +kernel⟩

theorem witness_ChunksPartitionTheImage : 0 < blockCount (zeros 256).length ∧ 1 < blockCount (zeros 257).length ∧
    0 + 1 = blockCount (zeros 256).length := by decide +kernel

/-- ASSEMBLE at its commit: no bytes, so nothing to pack. -/
def commitStart : State := { withImage [] 0 with op := .assemble, phase := .commit }

theorem witness_AssembleCommitsWholeOrNotAtAll :
    Inv commitStart ∧ commitStart.op = .assemble ∧ step commitStart = .next (after (step commitStart)) := by
  refine ⟨⟨rfl, rfl, rfl, rfl, blk_length_reset, by decide, ?_⟩, rfl, eq_next_after (by decide)⟩
  exact ⟨by decide, rfl⟩

/-- `FLASH_BASE` is open, so the one block is the longest image whose range fits for every value of it. -/
theorem witness_FlashImageStartsAtFlashBase :
    0 < (withSrc (zeros 256)).src.len ∧
      rangeOverflows Config.flashBase (withSrc (zeros 256)).src.len = false ∧
      (withSrc (zeros 256)).blk.length = 512 ∧
      NoFailure (withSrc (zeros 256)) (((withSrc (zeros 256)).src.len + 255) / 256 + 1) := by
  refine ⟨by simp [withSrc], ?_, blk_length_reset, noFailure_reset _⟩
  have h := Config.flashBase.isLt
  have hl : (withSrc (zeros 256)).src.len = 256 := by simp [withSrc]
  simp [rangeOverflows, blockCount, hl, Config.uf2ChunkMax]
  omega

theorem witness_BufferWritesAreExact :
    2 + [(0x01 : Byte)].length ≤ (Memory.ofBytes [0x0A, 0x00, 0x0C]).len ∧
      (Memory.ofBytes [0x0A, 0x00, 0x0C]).len < 3 + [(0x01 : Byte)].length ∧
      (Memory.ofBytes [0x0A, 0x00, 0x0C]).wf = true := by decide

theorem witness_HostWritesBetweenOperations :
    (withInput (.write (.taddr 7))).op = .idle ∧
      (withInput (.write (.taddr 7))).inputs = [.write (.taddr 7)] ∧
      (withInput (.write (.blkno 7))).inputs = [.write (.blkno 7)] ∧
      (withInput (.write (.nblk 7))).inputs = [.write (.nblk 7)] ∧
      (withInput (.write (.base 7))).inputs = [.write (.base 7)] ∧
      (withInput (.write (.chunk [0x07]))).inputs = [.write (.chunk [0x07])] ∧
      (withInput (.write (.buffer .src [0x07]))).inputs = [.write (.buffer .src [0x07])] ∧
      (withInput (.write .baseFlash)).inputs = [.write .baseFlash] ∧
      (withInput (.write (.range .none))).inputs = [.write (.range .none)] ∧
      (withInput (.write (.copy .art .src))).inputs = [.write (.copy .art .src)] ∧
      (withInput (.read .dst)).inputs = [.read .dst] := by decide

end Sys2Proof.Tests
end

section
/-! The CRC engine's own operations (spec/40_crc_engine.md): CRC.SEED, CRC.LOAD, CRC.BIT, CRC.SER, and what
CRC and CRC.RUN leave over no bytes. First what each operation's meaning and word are, what the invariant
says of the sequencer's position, and what the loop of CRC.RUN does with nothing to read; then the
statements. -/

namespace Sys2Proof.Machine

open Sys2Proof.Laws

/-! ### The meanings of the micro-operations -/

@[simp] theorem exec_crcSeed (s : State) : exec .crcSeed s = .next (engineSeed s) := rfl

@[simp] theorem exec_crcLoad (b : Byte) (s : State) : exec (.crcLoad b) s = .next (engineLoad b s) := rfl

@[simp] theorem exec_crcSer (s : State) : exec .crcSer s = .next (engineSer s) := rfl

theorem exec_crcBit_of_bits_left {s : State} (h : s.n ≠ 0) : exec .crcBit s = .next (engineBit s) := if_neg h

theorem exec_crcBit_of_no_bits {s : State} (h : s.n = 0) : exec .crcBit s = .refused .bitWithoutByte := if_pos h

/-- CRC.LOAD with `W` as rule R80 writes it, a zero-extension and a shift. -/
theorem engineLoad_eq_shift (b : Byte) (s : State) :
    engineLoad b s = { s with w := b.setWidth 32 <<< 24, n := 8 } := by
  rw [← loadWord_eq_shift]
  rfl

/-! ### Words of the operations -/

/-- The word `{op, imm8}` as a number (rule R62). -/
theorem toNat_encode (i : Instr) : (encode i).toNat = i.opCode.toNat * 256 + i.imm.toNat := by
  have himm : i.imm.toNat < 2 ^ 8 := i.imm.isLt
  calc (encode i).toNat = i.opCode.toNat <<< 8 ||| i.imm.toNat := BitVec.toNat_append _ _
    _ = i.opCode.toNat <<< 8 + i.imm.toNat := (Nat.shiftLeft_add_eq_or_of_lt himm _).symm
    _ = i.opCode.toNat * 256 + i.imm.toNat := by rw [Nat.shiftLeft_eq]

/-- At a port it does not belong to, an operation's word gives no operation (rules R66, R68). -/
theorem decodeAt_ne_op_of_ne_home {i : Instr} (hi : OneHome.Statement i) {p : Port} (hp : p ≠ home i)
    (j : Instr) : decodeAt p (encode i) ≠ .op j := by
  intro hj
  have hnone := hi p
  rw [hj, if_neg hp] at hnone
  cases hnone

/-! ### The engine's position in CRC and PATCH -/

/-- CRC and PATCH in progress are runs of the engine over some bytes (rules R85, R99). -/
theorem Inv.enginePosition {s : State} (h : Inv s) (hop : s.op = .crc ∨ s.op = .patch) :
    ∃ data, EnginePosition s data := by
  rcases hop with hop | hop
  · obtain ⟨_, hengine⟩ : CrcPosition s := by simpa only [Position, hop] using h.position
    exact ⟨_, hengine⟩
  · obtain ⟨_, hengine⟩ : PatchPosition s := by simpa only [Position, hop] using h.position
    exact ⟨_, hengine⟩

theorem EnginePosition.no_bits_of_load {s : State} {data : List Byte} (h : EnginePosition s data)
    (hp : s.phase = .load) : s.n = 0 := by
  unfold EnginePosition at h
  rw [hp] at h
  obtain ⟨hn, _, _⟩ := h
  exact hn

theorem EnginePosition.bits_left_of_bit {s : State} {data : List Byte} (h : EnginePosition s data)
    (hp : s.phase = .bit) : s.n ≠ 0 := by
  unfold EnginePosition at h
  rw [hp] at h
  obtain ⟨_, _, hpos, _, _, _⟩ := h
  intro hn
  rw [hn] at hpos
  exact absurd hpos (by decide)

/-! ### No bytes -/

theorem Memory.bytes_eq_nil {m : Memory} (h : m.len = 0) : m.bytes = [] :=
  List.eq_nil_of_length_eq_zero (by rw [Memory.length_bytes, h])

/-- An empty range inside a buffer, its end included. -/
theorem Memory.slice_none_of_bytes {m : Memory} {a : Nat} (h : a ≤ m.len) : m.slice a 0 = some [] := by
  rw [Memory.slice_eq_some]
  exact ⟨h, List.take_zero.symm⟩

/-- The checksum of nothing is the seed as it stands: no final XOR (rule R86). -/
@[simp] theorem checksum_nil : checksum [] = [0xFF, 0xFF, 0xFF, 0xFF] := by decide

theorem exec_crcRun_of_no_bytes {s : State} (hlen : s.run.len = 0)
    (hoff : s.run.off ≤ (s.buffer s.run.buf).len) : exec .crcRun s = .next (ranState [] s) := by
  have hbytes : s.runBytes = some [] := by
    unfold State.runBytes
    rw [hlen]
    exact Memory.slice_none_of_bytes hoff
  exact crcRunThen_going hbytes (noFailure_zero s)

/-! ### The statements -/

/-- Settles O19: the two cases of `N`, and the invariant's position in the bit phase. -/
theorem crcBitIsOneSerialStep : Obligations.CrcBitIsOneSerialStep := by
  refine ⟨fun s hn => ?_, by decide, fun s hn => exec_crcBit_of_no_bits hn, fun s hinv hop hphase => ?_⟩
  · rw [exec_crcBit_of_bits_left hn]
    rfl
  · obtain ⟨data, hengine⟩ := hinv.enginePosition hop
    exact hengine.bits_left_of_bit hphase

/-- Settles O17: at the command port a micro-operation's word is not at its own port. -/
theorem crcSeedWritesTheSeed : Obligations.CrcSeedWritesTheSeed := by
  refine ⟨fun s => exec_crcSeed s, by decide, fun i => ?_⟩
  have hport : Port.command ≠ home .crcSeed := by decide
  exact decodeAt_ne_op_of_ne_home OneHome.crcSeed hport i

/-- Settles O18: the loaded word is the shifted byte, and the invariant's position in the load phase. -/
theorem crcLoadAlignsTheByte : Obligations.CrcLoadAlignsTheByte := by
  refine ⟨fun b s => ?_, fun b => ?_, fun s hinv hop hphase => ?_⟩
  · rw [exec_crcLoad, engineLoad_eq_shift]
  · have hword : (encode (.crcLoad b)).toNat = 0x11 * 256 + b.toNat := toNat_encode _
    bv_omega
  · obtain ⟨data, hengine⟩ := hinv.enginePosition hop
    exact hengine.no_bits_of_load hphase

/-- Settles O23: CRC.SER stores `R` by `le32`, whose bytes rule R83 writes out. -/
theorem crcSerIsLittleEndian : Obligations.CrcSerIsLittleEndian :=
  ⟨fun s => exec_crcSer s, by decide⟩

/-- Settles O28: with no byte to read no read can fail, so only the runs to the end are left. -/
theorem crcOfNothingIsAllOnes : Obligations.CrcOfNothingIsAllOnes := by
  refine ⟨fun s hlen => ?_, fun s hlen hoff => ?_⟩
  · rcases execCrc_cases s with ⟨_, hexec⟩ | ⟨m, hm, _⟩
    · refine ⟨_, hexec, ?_⟩
      rw [complete, finish_result, Memory.bytes_eq_nil hlen, checksum_nil]
    · exact absurd hm (by omega)
  · refine ⟨_, exec_crcRun_of_no_bytes hlen hoff, rfl, ?_⟩
    rw [ranState_ck, checksum_nil]

end Sys2Proof.Machine
end

section
/-! The boot-image patcher PATCH (spec/41_boot_image_patcher.md): what it writes, what it leaves alone, and
what a failing access does. First which of the coming accesses fails first, what a byte range reads after it
was written, and which of its ends PATCH takes; then the statements. -/

namespace Sys2Proof.Machine

/-! ### The coming accesses to host buffers (rules R104, R141) -/

/-- No failure among `k` accesses, said of each of them, in the spelling in which the laws of the operations
name the access that failed. -/
theorem noFailure_iff_forall_lt {s : State} {k : Nat} :
    NoFailure s k ↔ ∀ m < k, ((s.ioDraws.drop m).headD false && Config.ioCanFail) = false := by
  induction k generalizing s with
  | zero => simp
  | succ k ih =>
    rw [noFailure_succ, ih, Nat.forall_lt_succ_left]
    simp [State.accessFails]

/-- An access that fails is not among those that did not. -/
theorem NoFailure.le_of_fails {s : State} {k m : Nat} (hn : NoFailure s k)
    (hf : ((s.ioDraws.drop m).headD false && Config.ioCanFail) = true) : k ≤ m := by
  by_contra hlt
  have hm := noFailure_iff_forall_lt.mp hn m (by omega)
  exact absurd (hf.symm.trans hm) (by decide)

theorem noFailure_of_answers_false {s : State} {k : Nat} (h : ∀ d ∈ s.ioDraws.take k, d = false) :
    NoFailure s k := by
  intro d hd
  rw [h d hd, Bool.false_and]

/-- Where the platform's buffers cannot fail no access does, whatever the answers are. -/
theorem noFailure_of_reliable (s : State) (k : Nat) (h : Config.ioCanFail = false) : NoFailure s k := by
  intro d _
  rw [h, Bool.and_false]

/-! ### A byte range after it was written -/

theorem Memory.slice_write_same {m : Memory} {a : Nat} {bs : List Byte} (hle : a + bs.length ≤ m.len) :
    (m.write a bs).slice a bs.length = some bs := by
  have hpre : (m.bytes.take a).length = a := by simp; omega
  rw [Memory.slice_eq_some, Memory.len_write, Memory.bytes_write hle, splice, List.append_assoc,
    List.drop_left' hpre, List.take_left]
  exact ⟨hle, rfl⟩

@[simp] theorem length_checksum (bs : List Byte) : (checksum bs).length = 4 := length_le32 _

/-- The checksum as rule R84 writes it, a fold of the byte step from the seed. -/
theorem checksum_eq_foldl (bs : List Byte) : checksum bs = le32 (bs.foldl stepByte 0xFFFFFFFF) := rfl

/-! ### The ends of PATCH -/

theorem exec_patch (s : State) : exec .patch s = execPatch s := rfl

/-- PATCH where none of its 252 reads and its commit fails (rule R99). -/
theorem exec_patch_of_noFailure {s : State} (hlen : 256 ≤ s.art.len) (hn : NoFailure s 253) :
    exec .patch s = .next (complete .noValue
      { s with
        op := .patch
        run := patchRange
        ioDraws := s.ioDraws.drop 253
        art := s.art.write 252 (checksum (s.art.bytes.take 252)) }) := by
  rw [exec_patch]
  rcases execPatch_cases s with ⟨hshort, _⟩ | ⟨m, _, _, hm, _, hf, _⟩ | ⟨_, _, hexec⟩
  · exact absurd hlen (Nat.not_le.mpr hshort)
  · exact absurd (le_trans (hn.le_of_fails hf) hm) (by decide)
  · exact hexec

/-- PATCH where access `m` is the first that fails: reads 0 to 251, then the commit (rule R104). -/
theorem exec_patch_of_first_failure {s : State} {m : Nat} (hlen : 256 ≤ s.art.len) (hm : m ≤ 252)
    (hn : NoFailure s m) (hf : ((s.ioDraws.drop m).headD false && Config.ioCanFail) = true) :
    exec .patch s = .next (takeFault (.ioFailure .art (if m = 252 then .write else .read))
      { s with op := .patch, run := patchRange, ioDraws := s.ioDraws.drop (m + 1) }) := by
  rw [exec_patch]
  rcases execPatch_cases s with ⟨hshort, _⟩ | ⟨m', acc, _, _, hn', hf', rfl, hexec⟩ | ⟨_, hn', _⟩
  · exact absurd hlen (Nat.not_le.mpr hshort)
  · obtain rfl : m' = m := le_antisymm (hn'.le_of_fails hf) (hn.le_of_fails hf')
    exact hexec
  · exact absurd (le_trans (hn'.le_of_fails hf) hm) (by decide)

/-- However PATCH ends, it ends, with `ART` as before or with the checksum in `ART[252,256)`, and the other
buffers as before (rules R101, R102). -/
theorem exec_patch_buffers (s : State) : ∃ t, exec .patch s = .next t ∧
    (t.art = s.art ∨ t.art = s.art.write 252 (checksum (s.art.bytes.take 252))) ∧
    t.src = s.src ∧ t.dst = s.dst := by
  rcases execPatch_cases s with ⟨_, hexec⟩ | ⟨_, _, _, _, _, _, _, hexec⟩ | ⟨_, _, hexec⟩
  · exact ⟨_, hexec, .inl rfl, rfl, rfl⟩
  · exact ⟨_, hexec, .inl rfl, rfl, rfl⟩
  · exact ⟨_, hexec, .inr rfl, rfl, rfl⟩

/-- The commit of PATCH leaves every byte outside `ART[252,256)` as it was (rule R102). -/
theorem read_write_checksum_outside (m : Memory) (bs : List Byte) {a : Nat} (ha : a < 252 ∨ 256 ≤ a) :
    (m.write 252 (checksum bs)).read a = m.read a :=
  m.read_write_outside (by simpa using ha)

/-! ### The statements -/

/-- Settles O33: the end of PATCH without a failing access, and the range written read back. -/
theorem patchWritesTheChecksum : Obligations.PatchWritesTheChecksum := by
  intro s hlen hn
  refine ⟨_, exec_patch_of_noFailure hlen hn, ⟨rfl, rfl, rfl, rfl⟩, ?_, ?_, ?_, ?_, rfl, rfl, rfl⟩
  · rw [← checksum_eq_foldl]
    exact Memory.slice_write_same hlen
  · exact Memory.len_write _ _ _
  · exact fun a ha => read_write_checksum_outside _ _ ha
  · exact finish_keepsOperands _ fun _ => rfl

/-- Settles O34: `ART` is as before or has the checksum written, and neither touches the bytes outside. -/
theorem patchLeavesOtherBytesAlone : Obligations.PatchLeavesOtherBytesAlone := by
  intro s
  obtain ⟨t, hexec, hart, hsrc, hdst⟩ := exec_patch_buffers s
  refine ⟨t, hexec, ?_, fun a ha => ?_, hsrc, hdst, fun hlong hn => ?_⟩
  · rcases hart with hart | hart <;> simp [hart]
  · rcases hart with hart | hart <;> rw [hart]
    exact read_write_checksum_outside _ _ ha
  · rw [exec_patch_of_noFailure (le_of_lt hlong) hn] at hexec
    obtain rfl := Host.Outcome.next.inj hexec
    rfl

/-- Settles O37: where buffers can fail access `m` is the first failing one; where they cannot, none fails. -/
theorem patchFailsWithTheArtifactIntact : Obligations.PatchFailsWithTheArtifactIntact := by
  intro s m hlen hm hbefore hat
  cases hio : Config.ioCanFail with
  | true =>
    have hf : ((s.ioDraws.drop m).headD false && Config.ioCanFail) = true := by
      simp [List.headD_eq_head?_getD, List.head?_drop, hat, hio]
    have hexec := exec_patch_of_first_failure hlen hm (noFailure_of_answers_false hbefore) hf
    exact ⟨_, hexec, fun _ => ⟨rfl, rfl, rfl, rfl, rfl⟩, nofun⟩
  | false =>
    exact ⟨_, exec_patch_of_noFailure hlen (noFailure_of_reliable s 253 hio), nofun, fun _ => rfl⟩

end Sys2Proof.Machine
end

section
/-! The UF2 block formatter ENCBLK (spec/42_uf2_block_formatter.md): the bytes of a block that are the same in
every block. First what a byte range inside a sequence reads, where the regions of a block stand, and which
block ENCBLK returns; then the statements. -/

namespace Sys2Proof.Machine

/-! ### Byte ranges inside a sequence -/

theorem field_middle {pre mid post : List Byte} {a n : Nat} (ha : pre.length = a) (hn : mid.length = n) :
    field (pre ++ mid ++ post) a n = mid := by
  subst ha hn
  rw [field, List.append_assoc, List.drop_left, List.take_left]

/-- A range inside another range is a range of what that one reads. -/
theorem field_eq_field_field {bs : List Byte} {a n c m : Nat} (hlo : a ≤ c) (hhi : c + m ≤ a + n) :
    field bs c m = field (field bs a n) (c - a) m := by
  simp only [field]
  rw [List.drop_take, List.take_take, List.drop_drop, Nat.add_sub_cancel' hlo, Nat.min_eq_left (by omega)]

theorem field_zeros {k a n : Nat} (h : a + n ≤ k) : field (zeros k) a n = zeros n := by
  rw [field, zeros, zeros, List.drop_replicate, List.take_replicate, Nat.min_eq_left (by omega)]

/-- A range inside a range of zeros is zero. -/
theorem field_eq_zeros_of_within {bs : List Byte} {a n c m : Nat} (hz : field bs a n = zeros n)
    (hlo : a ≤ c) (hhi : c + m ≤ a + n) : field bs c m = zeros m := by
  rw [field_eq_field_field hlo hhi, hz, field_zeros (by omega)]

/-! ### The regions of a block (rule R110) -/

section

variable (family : Word) (chunk : List Byte) (taddr blkno nblk : Word)

/-- Every field before the chunk is four bytes of fixed place, so these three regions compute. -/
theorem field_uf2Block_magicsAndFlags : field (uf2Block family chunk taddr blkno nblk) 0 12 =
    le32 Config.uf2MagicStart0 ++ le32 Config.uf2MagicStart1 ++ le32 Config.uf2Flags := rfl

theorem field_uf2Block_payloadSize :
    field (uf2Block family chunk taddr blkno nblk) 16 4 = le32 Config.uf2PayloadSize := rfl

theorem field_uf2Block_family : field (uf2Block family chunk taddr blkno nblk) 28 4 = le32 family := rfl

/-- The bytes from the chunk to the end marker (rule R114). -/
theorem field_uf2Block_padding :
    field (uf2Block family chunk taddr blkno nblk) (32 + chunk.length) (476 - chunk.length) =
      zeros (476 - chunk.length) :=
  field_middle (by simp only [List.length_append, length_le32]) (length_zeros _)

variable {chunk}

/-- The padding reaches the end marker, so what lies beyond the longest payload is zero whatever the chunk
(rule R114). -/
theorem field_uf2Block_beyond_payload (h : chunk.length ≤ 256) :
    field (uf2Block family chunk taddr blkno nblk) 288 220 = zeros 220 :=
  field_eq_zeros_of_within (field_uf2Block_padding family chunk taddr blkno nblk) (by omega) (by omega)

theorem field_uf2Block_endMarker (h : chunk.length ≤ 476) :
    field (uf2Block family chunk taddr blkno nblk) 508 4 = le32 Config.uf2MagicEnd := by
  rw [uf2Block, ← List.append_nil (_ ++ le32 Config.uf2MagicEnd)]
  refine field_middle ?_ (length_le32 _)
  simp only [List.length_append, length_le32, length_zeros, Config.uf2DataLen]
  omega

end

/-! ### The block ENCBLK returns -/

theorem exec_encblk (s : State) : exec .encblk s = execEncblk s := rfl

/-- ENCBLK returns a block only for a chunk of at most 256 bytes, and then the block of its operands (rules
R109, R110). -/
theorem block_of_exec_encblk {s t : State} {b : List Byte} (hblk : s.blk.length = 512)
    (hexec : exec .encblk s = .next t) (hres : t.result = .ok (.block b)) :
    s.clen ≤ 256 ∧ b = uf2Block Config.familyId s.chunk s.taddr s.blkno s.nblk := by
  rw [exec_encblk] at hexec
  rcases execEncblk_cases s with ⟨_, hfault⟩ | ⟨hclen, hok⟩
  · obtain rfl := Host.Outcome.next.inj (hfault.symm.trans hexec)
    cases hres
  · obtain rfl := Host.Outcome.next.inj (hok.symm.trans hexec)
    cases hres
    exact ⟨hclen, packBlock_blk_eq (le_trans hclen (by decide)) hblk⟩

/-! ### The statements -/

/-- Settles O40: the padding of the block of the operands, and the part of it no chunk reaches. -/
theorem encblkPadsWithZeros : Obligations.EncblkPadsWithZeros := by
  intro s t b hblk hexec hres
  obtain ⟨hclen, rfl⟩ := block_of_exec_encblk hblk hexec hres
  exact ⟨field_uf2Block_padding _ _ _ _ _, field_uf2Block_beyond_payload _ _ _ _ hclen⟩

/-- Settles O41: both blocks read the same constants in these five regions. -/
theorem encblkConstantsAcrossBlocks : Obligations.EncblkConstantsAcrossBlocks := by
  intro s s' t t' b b' hblk hblk' hexec hexec' hres hres'
  obtain ⟨hclen, rfl⟩ := block_of_exec_encblk hblk hexec hres
  obtain ⟨hclen', rfl⟩ := block_of_exec_encblk hblk' hexec' hres'
  refine ⟨?_, ?_, ?_, ?_, ?_⟩
  · rw [field_uf2Block_magicsAndFlags, field_uf2Block_magicsAndFlags]
  · rw [field_uf2Block_payloadSize, field_uf2Block_payloadSize]
  · rw [field_uf2Block_family, field_uf2Block_family]
  · rw [field_uf2Block_beyond_payload _ _ _ _ hclen, field_uf2Block_beyond_payload _ _ _ _ hclen']
  · rw [field_uf2Block_endMarker _ _ _ _ (le_trans hclen (by decide)),
      field_uf2Block_endMarker _ _ _ _ (le_trans hclen' (by decide))]

end Sys2Proof.Machine
end

section
/-! The UF2 file assembler ASSEMBLE (spec/43_uf2_file_assembler.md): how it cuts the image into chunks, and what
of the image the container holds. First how consecutive ranges of one width join, how many chunks there are and
which bytes each has, what a block of the container reads, and which container ASSEMBLE leaves; then the
statements. -/

namespace Sys2Proof.Machine

/-! ### Byte ranges of a joined sequence -/

theorem field_append_left {as bs : List Byte} {a n : Nat} (h : a + n ≤ as.length) :
    field (as ++ bs) a n = field as a n := by
  rw [field, field, List.drop_append_of_le_length (by omega), List.take_append_of_le_length (by simp; omega)]

theorem field_append_right (as bs : List Byte) (a n : Nat) : field (as ++ bs) (as.length + a) n = field bs a n := by
  rw [field, field, List.drop_length_add_append]

theorem field_add (bs : List Byte) (a m n : Nat) : field bs a (m + n) = field bs a m ++ field bs (a + m) n := by
  rw [field, field, field, List.take_add, List.drop_drop]

/-- Consecutive ranges of one width, joined in order, are the bytes up to where the last one ends. -/
theorem flatMap_field_range (bs : List Byte) (width n : Nat) :
    (List.range n).flatMap (fun k => field bs (width * k) width) = bs.take (width * n) := by
  induction n with
  | zero => simp
  | succ n ih =>
    rw [List.range_succ, List.flatMap_append, ih, List.flatMap_singleton, field, Nat.mul_add_one, List.take_add]

/-! ### The chunks (rules R123, R124) -/

/-- There is a chunk `k` where the image has a byte for it. -/
theorem lt_blockCount_iff {size k : Nat} : k < blockCount size ↔ 256 * k < size := by
  simp only [blockCount, Config.uf2ChunkMax]
  omega

theorem le_mul_blockCount (size : Nat) : size ≤ 256 * blockCount size :=
  Nat.le_of_not_lt fun h => Nat.lt_irrefl _ (lt_blockCount_iff.mpr h)

/-- A chunk is the range of 256 bytes at its place, cut off at the end of the image. -/
theorem chunkBytes_eq_field (data : List Byte) (k : Nat) : chunkBytes data k = field data (256 * k) 256 := by
  rw [chunkBytes, field, chunkLen, ← List.length_drop, ← List.take_eq_take_min]
  rfl

/-- A chunk filled up with zeros is the whole range of 256 bytes of the image followed by zeros. -/
theorem chunkBytes_append_zeros (data : List Byte) {k : Nat} (h : 256 * k ≤ data.length) :
    chunkBytes data k ++ zeros (256 - (chunkBytes data k).length) = field (data ++ zeros 256) (256 * k) 256 := by
  rw [chunkBytes_eq_field, field, field, List.drop_append_of_le_length h, List.take_append]
  congr 1
  rw [zeros, zeros, List.take_replicate, List.length_take]
  congr 1
  omega

/-! ### The blocks of a container (rules R110, R128) -/

section

variable (family : Word) (chunk : List Byte) (taddr blkno nblk : Word)

theorem field_uf2Block_chunk : field (uf2Block family chunk taddr blkno nblk) 32 chunk.length = chunk := by
  rw [uf2Block, List.append_assoc _ (zeros _)]
  exact field_middle rfl rfl

variable {chunk}

/-- The 256 payload bytes of a block are the chunk, then zeros. -/
theorem field_uf2Block_payload (h : chunk.length ≤ 256) :
    field (uf2Block family chunk taddr blkno nblk) 32 256 = chunk ++ zeros (256 - chunk.length) := by
  have hzeros : field (uf2Block family chunk taddr blkno nblk) (32 + chunk.length) (256 - chunk.length) =
      zeros (256 - chunk.length) :=
    field_eq_zeros_of_within (field_uf2Block_padding family chunk taddr blkno nblk) (le_refl _) (by omega)
  calc field (uf2Block family chunk taddr blkno nblk) 32 256
      = field (uf2Block family chunk taddr blkno nblk) 32 (chunk.length + (256 - chunk.length)) := by
        rw [Nat.add_sub_cancel' h]
    _ = chunk ++ zeros (256 - chunk.length) := by rw [field_add, field_uf2Block_chunk, hzeros]

end

/-- Block `k` of a container starts at byte `512 * k`. -/
theorem field_containerUpTo (family base : Word) (data : List Byte) {n k a m : Nat} (hk : k < n) (ha : a + m ≤ 512) :
    field (containerUpTo family base data n) (512 * k + a) m = field (containerBlock family base data k) a m := by
  have hlen : ∀ j, (containerUpTo family base data j).length = 512 * j := length_containerUpTo family base data
  induction n with
  | zero => exact absurd hk (Nat.not_lt_zero k)
  | succ n ih =>
    rw [containerUpTo_succ]
    rcases Nat.lt_succ_iff_lt_or_eq.mp hk with hlt | rfl
    · rw [field_append_left (by rw [hlen]; omega), ih hlt]
    · rw [← hlen, field_append_right]

/-- The payloads of a container's blocks, joined in order and cut to the length of the image, are the image. -/
theorem take_payloads_container (family base : Word) (data : List Byte) :
    ((List.range (blockCount data.length)).flatMap
      (fun k => field (container family base data) (512 * k + 32) 256)).take data.length = data := by
  have hpayload : ∀ k ∈ List.range (blockCount data.length),
      field (container family base data) (512 * k + 32) 256 = field (data ++ zeros 256) (256 * k) 256 := by
    intro k hk
    have hk := List.mem_range.mp hk
    have hchunk : (chunkBytes data k).length ≤ 256 := by
      rw [length_chunkBytes]
      exact chunkLen_le _ _
    rw [container, field_containerUpTo _ _ _ hk (by decide), containerBlock, field_uf2Block_payload _ _ _ _ hchunk,
      chunkBytes_append_zeros _ (le_of_lt (lt_blockCount_iff.mp hk))]
  rw [List.flatMap_congr hpayload, flatMap_field_range, List.take_take,
    Nat.min_eq_left (le_mul_blockCount _), List.take_left]

/-! ### The ends of ASSEMBLE -/

theorem exec_assemble (s : State) : exec .assemble s = execAssemble s := rfl

/-- Where ASSEMBLE ends in `ok`, `DST` is the container of `SRC` at `BASE` (rule R127). -/
theorem dst_of_exec_assemble_ok {s t : State} (hblk : s.blk.length = 512) (hexec : exec .assemble s = .next t)
    (hres : t.result = .ok .noValue) :
    t.dst = Memory.ofBytes (container Config.familyId s.base s.src.bytes) := by
  rw [exec_assemble] at hexec
  rcases execAssemble_cases s with ⟨_, hend⟩ | ⟨_, _, _, _, _, hend⟩ | ⟨_, _, _, hend⟩ | ⟨_, _, _, hend⟩ <;>
    obtain rfl := Host.Outcome.next.inj (hend.symm.trans hexec)
  case inr.inr.inr =>
    obtain ⟨hstage, _⟩ := packedState_stage (blockCount s.src.len) (assembleStart s) hblk rfl
    rw [complete, finish_dst, hstage, container, Memory.length_bytes]
    simp only [assembleStart, Nat.zero_add]
  all_goals cases hres

/-- ASSEMBLE of no bytes: no chunk to read, an address range that fits whatever `BASE` is, and a commit (rule
R129). -/
theorem exec_assemble_of_no_bytes {s : State} (hlen : s.src.len = 0) (hn : NoFailure s 1) :
    exec .assemble s =
      .next (complete .noValue { (assembleStart s).afterAccess with dst := Memory.ofBytes [] }) := by
  have hcount : blockCount s.src.len = 0 := by rw [hlen]; rfl
  have hcommit : s.accessFails = false := (noFailure_succ.mp hn).1
  rw [exec_assemble]
  rcases execAssemble_cases s with ⟨hover, _⟩ | ⟨_, _, hm, _⟩ | ⟨_, _, hfails, _⟩ | ⟨_, _, _, hend⟩
  · simp [rangeOverflows, hcount] at hover
  · exact absurd hm (by omega)
  · rw [hcount] at hfails
    exact absurd (hfails.symm.trans hcommit) (by decide)
  · rw [hend, hcount]
    rfl

/-! ### The statements -/

/-- Settles O49: `DST` is the container, and its payloads joined are the image. -/
theorem containerRoundTrip : Obligations.ContainerRoundTrip := by
  intro s t hblk hexec hres
  rw [dst_of_exec_assemble_ok hblk hexec hres, Memory.len_ofBytes, Memory.bytes_ofBytes, ← Memory.length_bytes s.src]
  exact ⟨length_containerUpTo _ _ _ _, take_payloads_container _ _ _⟩

/-- Settles O50: the chunks are consecutive ranges of 256 bytes, the last cut off at the end of the image. -/
theorem chunksPartitionTheImage : Obligations.ChunksPartitionTheImage := by
  refine ⟨rfl, fun s => rfl, fun data => ⟨?_, fun k hk => ?_⟩⟩
  · rw [funext (chunkBytes_eq_field data), flatMap_field_range,
      List.take_of_length_le (le_mul_blockCount data.length)]
  · have hlen : (chunkBytes data k).length = min 256 (data.length - 256 * k) := length_chunkBytes data k
    have hpos : 256 * k < data.length := lt_blockCount_iff.mp hk
    refine ⟨rfl, by omega, by omega, fun hnext => ?_, fun hlast => ?_⟩
    · have hnextPos : 256 * (k + 1) < data.length := lt_blockCount_iff.mp hnext
      omega
    · have hcover : data.length ≤ 256 * blockCount data.length := le_mul_blockCount data.length
      omega

/-- Settles O47: without a byte there is no chunk, so nothing is staged when ASSEMBLE commits. -/
theorem assembleOfNothingIsEmpty : Obligations.AssembleOfNothingIsEmpty := fun _ hlen hn =>
  ⟨_, exec_assemble_of_no_bytes hlen hn, rfl, rfl, rfl⟩

end Sys2Proof.Machine
end

section
/-! The exceptions (spec/60_exceptions.md): the length check of PATCH. First the end PATCH takes on a short
artifact; then the statement. -/

namespace Sys2Proof.Machine

/-- PATCH of an artifact shorter than 256 bytes faults from the state it was presented in, its two other ends
being those of a longer artifact (rules R100, R146). -/
theorem exec_patch_of_short {s : State} (hlen : s.art.len < 256) :
    exec .patch s = .next (takeFault (.bootImageTooShort s.art.len) { s with op := .patch }) := by
  rw [exec_patch]
  rcases execPatch_cases s with ⟨_, hexec⟩ | ⟨_, _, hlong, _⟩ | ⟨hlong, _⟩
  · exact hexec
  · exact absurd hlen (Nat.not_lt.mpr hlong)
  · exact absurd hlen (Nat.not_lt.mpr hlong)

/-- Settles O32: the fault is taken before any access, and PATCH takes no operand register. -/
theorem patchRejectsAShortImage : Obligations.PatchRejectsAShortImage := by
  intro s hlen
  refine ⟨_, exec_patch_of_short hlen, ⟨rfl, rfl, rfl, rfl⟩, rfl, ?_, rfl, rfl, rfl, rfl⟩
  exact finish_keepsOperands _ fun _ => rfl

end Sys2Proof.Machine
end

section
/-! The command word (spec/30_encoding.md section 3): decoding at both ports is the inverse of the encoder, and
what an input does at the ports of an idle and of a busy core. First the encoder as a pair of fields, the codes
of the host operations, and one equation of `step` for each input; then the statements. -/

namespace Sys2Proof.Machine

open Sys2Proof.Laws

/-! ### Words and operations -/

/-- The word of an operation is the one word with its two fields (rules R62, R66). -/
theorem encode_eq_iff {i : Instr} {c : CmdWord} : encode i = c ↔ opField c = i.opCode ∧ immField c = i.imm := by
  constructor
  · rintro rfl
    exact ⟨opField_pair _ _, immField_pair _ _⟩
  · rintro ⟨hop, himm⟩
    rw [← word_eq_fields c, hop, himm]
    rfl

/-- Every operation's word is decoded at its own port and nowhere else (rules R66, R68). -/
theorem oneHome (i : Instr) : OneHome.Statement i := by
  cases i with
  | crc => exact OneHome.crc
  | patch => exact OneHome.patch
  | encblk => exact OneHome.encblk
  | assemble => exact OneHome.assemble
  | crcSeed => exact OneHome.crcSeed
  | crcLoad b => exact OneHome.crcLoad b
  | crcBit => exact OneHome.crcBit
  | crcByte b => exact OneHome.crcByte b
  | crcSer => exact OneHome.crcSer
  | crcRun => exact OneHome.crcRun

/-- An operation may be issued at the port it belongs to, and only there. -/
theorem wellFormed_iff_home {p : Port} {i : Instr} : i.wellFormed p = true ↔ p = home i := by
  unfold Instr.wellFormed home
  rw [decide_eq_true_eq]
  cases p <;> cases i.level <;> simp [Port.level]

theorem Decoded.toOption_eq_some {d : Decoded} {i : Instr} : d.toOption = some i ↔ d = .op i := by
  cases d <;> simp [Decoded.toOption]

theorem wellFormed_of_decodeAt {p : Port} {c : CmdWord} {i : Instr} (h : decodeAt p c = .op i) :
    i.wellFormed p = true := by
  cases p with
  | command => exact decide_eq_true (decodeCommand_level h)
  | issue => exact decide_eq_true (decodeIssue_level h)

/-- No bit of a decoded word is dropped: each test of the decoder fixes one of the word's two fields. -/
theorem encode_of_decodeAt {p : Port} {c : CmdWord} {i : Instr} (h : decodeAt p c = .op i) : encode i = c := by
  rw [encode_eq_iff]
  cases p with
  | command =>
    simp only [decodeAt, decodeCommand, withoutImm] at h
    split_ifs at h <;> cases h <;> constructor <;> assumption
  | issue =>
    simp only [decodeAt, decodeIssue, withoutImm] at h
    split_ifs at h <;> cases h <;> simp_all [Instr.opCode, Instr.imm]

/-- The host operations have the codes 0x01 to 0x04 and no immediate (rules R66, R69). -/
theorem fields_of_host {i : Instr} (hi : i.level = .host) : 0x01 ≤ i.opCode ∧ i.opCode ≤ 0x04 ∧ i.imm = 0 := by
  cases i with
  | crc | patch | encblk | assemble => decide
  | crcSeed | crcLoad b | crcBit | crcByte b | crcSer | crcRun => cases hi

theorem exists_host_of_code {a : Byte} (hlo : 0x01 ≤ a) (hhi : a ≤ 0x04) :
    ∃ i : Instr, i.level = .host ∧ i.opCode = a ∧ i.imm = 0 := by
  have ha : a = 0x01 ∨ a = 0x02 ∨ a = 0x03 ∨ a = 0x04 := by bv_omega
  rcases ha with rfl | rfl | rfl | rfl
  · exact ⟨.crc, rfl, rfl, rfl⟩
  · exact ⟨.patch, rfl, rfl, rfl⟩
  · exact ⟨.encblk, rfl, rfl, rfl⟩
  · exact ⟨.assemble, rfl, rfl, rfl⟩

/-! ### A step with an input -/

section

variable {s : State} {rest : List Input} {c : CmdWord}

theorem step_present_of_idle (h : s.inputs = .present c :: rest) (ho : s.op = .idle) :
    step s = runCommand c { s with inputs := rest } := (step_input h).trans (if_pos ho)

theorem step_presentStepped_of_idle (h : s.inputs = .presentStepped c :: rest) (ho : s.op = .idle) :
    step s = startCommand c { s with inputs := rest } := (step_input h).trans (if_pos ho)

theorem step_issue_of_idle (h : s.inputs = .issue c :: rest) (ho : s.op = .idle) :
    step s = runIssue c { s with inputs := rest } := (step_input h).trans (if_pos ho)

theorem step_write_of_idle {a : HostWrite} (h : s.inputs = .write a :: rest) (ho : s.op = .idle) :
    step s = .next (hostWrite a { s with inputs := rest }) := (step_input h).trans (if_pos ho)

theorem step_read_of_idle {b : BufferId} (h : s.inputs = .read b :: rest) (ho : s.op = .idle) :
    step s = .next { s with inputs := rest } := (step_input h).trans (if_pos ho)

theorem step_reset (h : s.inputs = .reset :: rest) : step s = .next (resetCore { s with inputs := rest }) :=
  step_input h

theorem step_wait (h : s.inputs = .wait :: rest) : step s = advance { s with inputs := rest } := step_input h

/-- To wait until the core is idle is to wait, but that a busy core keeps the input. -/
theorem step_await_of_idle (h : s.inputs = .await :: rest) (ho : s.op = .idle) :
    step s = .next { s with inputs := rest } := (step_input h).trans (if_pos ho)

theorem step_await_of_busy (h : s.inputs = .await :: rest) (ho : s.op ≠ .idle) : step s = sequencerStep s :=
  (step_input h).trans (if_neg ho)

end

/-! ### The two ports -/

theorem runCommand_of_op {c : CmdWord} {i : Instr} (h : decodeCommand c = .op i) (s : State) :
    runCommand c s = exec i s := by
  simp only [runCommand, h]

theorem startCommand_of_op {c : CmdWord} {i : Instr} (h : decodeCommand c = .op i) (s : State) :
    startCommand c s = .next (accept i s) := by
  simp only [startCommand, h]

theorem runIssue_of_op {c : CmdWord} {i : Instr} (h : decodeIssue c = .op i) (s : State) :
    runIssue c s = exec i s := by
  simp only [runIssue, h]

/-- A word that selects no operation is answered alike in either way of presenting it (rule R142). -/
theorem command_of_no_op {c : CmdWord} (h : ∀ i, decodeCommand c ≠ .op i) (s : State) :
    runCommand c s = .next (takeFault (.illegalOp c) s) ∧
      startCommand c s = .next (takeFault (.illegalOp c) s) := by
  unfold runCommand startCommand
  cases hd : decodeCommand c with
  | op i => exact absurd hd (h i)
  | illegal e => exact ⟨rfl, rfl⟩

/-- `IllegalOp` on an idle core takes no operand register and touches nothing of the host's (rules R142, R146). -/
theorem illegalOp_keepsOperands {s : State} (c : CmdWord) (ho : s.op = .idle) :
    KeepsOperands s (takeFault (.illegalOp c) s) := by
  refine finish_keepsOperands _ fun x => ?_
  rw [ho]
  rfl

/-! ### The statements -/

/-- Settles O2: forward each test of the decoder fixes a field of the word; backward an operation's word is
decoded at its own port. -/
theorem decodeAndEncodeAgree : Obligations.DecodeAndEncodeAgree := by
  intro p c i
  constructor
  · exact fun h => ⟨wellFormed_of_decodeAt h, encode_of_decodeAt h⟩
  · rintro ⟨hport, rfl⟩
    have hhome := oneHome i p
    rwa [if_pos (wellFormed_iff_home.mp hport), Decoded.toOption_eq_some] at hhome

theorem decodeCommand_eq_op_iff {c : CmdWord} {i : Instr} :
    decodeCommand c = .op i ↔ i.level = .host ∧ encode i = c := by
  rw [show decodeCommand c = decodeAt .command c from rfl, decodeAndEncodeAgree, Instr.wellFormed, decide_eq_true_eq]
  rfl

/-- Settles O1: the codes 0x01 to 0x04 without an immediate are exactly those of the host operations. -/
theorem commandDecodeIsTotal : Obligations.CommandDecodeIsTotal := by
  refine ⟨fun c ⟨hlo, hhi, himm⟩ => ?_, fun s c rest ho hin hno => ?_, fun s c i rest ho hin hdec => ?_⟩
  · obtain ⟨i, hhost, hcode, hzero⟩ := exists_host_of_code hlo hhi
    have hword : encode i = c := encode_eq_iff.mpr ⟨hcode.symm, himm.trans hzero.symm⟩
    exact ⟨i, decodeCommand_eq_op_iff.mpr ⟨hhost, hword⟩, hhost, hcode⟩
  · have hillegal : ∀ i, decodeCommand c ≠ .op i := by
      intro i hdec
      obtain ⟨hhost, hword⟩ := decodeCommand_eq_op_iff.mp hdec
      obtain ⟨hcode, himm⟩ := encode_eq_iff.mp hword
      exact hno (hcode ▸ himm ▸ fields_of_host hhost)
    rw [step_present_of_idle hin ho]
    exact ⟨_, (command_of_no_op hillegal _).1, rfl⟩
  · rw [step_issue_of_idle hin ho, runIssue_of_op hdec]

/-- Settles O4: by the encoding such a word is not decoded, and then both ways of presenting it take the fault. -/
theorem illegalOpForEveryOtherWord : Obligations.IllegalOpForEveryOtherWord := by
  intro s c rest ho hin hno
  have hillegal : ∀ i, decodeCommand c ≠ .op i := fun i hdec =>
    have hword := decodeCommand_eq_op_iff.mp hdec
    hno i hword.1 hword.2
  obtain ⟨hrun, hstart⟩ := command_of_no_op hillegal { s with inputs := rest }
  have hstep : step s = .next (takeFault (.illegalOp c) { s with inputs := rest }) := by
    rcases hin with hin | hin
    · rw [step_present_of_idle hin ho, hrun]
    · rw [step_presentStepped_of_idle hin ho, hstart]
  exact ⟨_, hstep, rfl, rfl, rfl, rfl, rfl,
    illegalOp_keepsOperands (s := { s with inputs := rest }) c ho, rfl, rfl, rfl, rfl⟩

/-- Settles O3, by computing the fields of the ten words. -/
theorem tableWordsDecode : Obligations.TableWordsDecode := by
  unfold Obligations.TableWordsDecode
  decide

/-- Settles O5. -/
theorem stepRunsTheDecodedOperation : Obligations.StepRunsTheDecodedOperation := by
  intro s c i rest ho
  refine ⟨fun hin hdec => ⟨wellFormed_of_decodeAt (p := .command) hdec, ?_⟩,
    fun hin hdec => ⟨wellFormed_of_decodeAt (p := .issue) hdec, ?_⟩⟩
  · rw [step_present_of_idle hin ho, runCommand_of_op hdec]
  · rw [step_issue_of_idle hin ho, runIssue_of_op hdec]

/-- Settles O8: every input but a reset and the two waits asks for an idle core. -/
theorem busyCoreRefusesTheHost : Obligations.BusyCoreRefusesTheHost := fun _ _ ho =>
  ⟨fun _ hin => (step_input hin).trans (if_neg ho), fun _ hin => (step_input hin).trans (if_neg ho),
    fun _ hin => (step_input hin).trans (if_neg ho), fun _ hin => (step_input hin).trans (if_neg ho),
    fun _ hin => (step_input hin).trans (if_neg ho)⟩

/-! ### Reset -/

/-- A reset takes the operands of the operation in progress and leaves the others, with the marks of the host's
writes (log entry 8). -/
theorem resetCore_operandsAfter (s : State) : OperandsAfter s.op s (resetCore s) := by
  refine ⟨fun x h => ?_, resetCore_written s⟩
  cases x <;> simp [SameOperand, h]

theorem resetCore_keepsOperands {s : State} (ho : s.op = .idle) : KeepsOperands s (resetCore s) := by
  refine ⟨?_, ?_, ?_, ?_, ?_, ?_⟩ <;> simp [ho, Operation.uses]

/-- Settles O7: the reset state by its definition, and a host's reset field by field. -/
theorem resetLeavesTheCoreIdle : Obligations.ResetLeavesTheCoreIdle := by
  refine ⟨⟨rfl, rfl, rfl, rfl⟩, fun s rest hin => ?_⟩
  refine ⟨_, step_reset hin, rfl, rfl, rfl, fun ho => ?_, fun ho => ?_, fun ho => ?_,
    resetCore_operandsAfter { s with inputs := rest }, ?_, ?_, ?_, ?_⟩
  · rw [resetCore_result, if_pos ho]
  · rw [resetCore_result, if_neg ho]
    exact ⟨rfl, Nat.succ_ne_zero _⟩
  · exact resetCore_keepsOperands (s := { s with inputs := rest }) ho
  · exact resetCore_art _
  · exact resetCore_src _
  · exact resetCore_dst _
  · exact resetCore_inputs _

/-! ### Buffers and the host's writes -/

theorem setBuffer_buffer_same (s : State) (b : BufferId) (m : Memory) : (s.setBuffer b m).buffer b = m := by
  cases b <;> rfl

theorem setBuffer_buffer_other {s : State} {b c : BufferId} {m : Memory} (h : c ≠ b) :
    (s.setBuffer b m).buffer c = s.buffer c := by
  cases b <;> cases c <;> simp_all [State.setBuffer, State.buffer]

/-- To replace a buffer changes nothing outside the buffers. -/
theorem setBuffer_eq_buffers (s : State) (b : BufferId) (m : Memory) :
    s.setBuffer b m =
      { s with art := (s.setBuffer b m).art, src := (s.setBuffer b m).src, dst := (s.setBuffer b m).dst } := by
  cases b <;> rfl

/-- Settles O53: a write that fits is a splice of the contents, another does nothing, and canonical buffers are
their contents. -/
theorem bufferWritesAreExact : Obligations.BufferWritesAreExact := by
  refine ⟨fun m a p bs hle => ?_, fun m a bs => ⟨m.len_write a bs, fun hout => ?_, fun hwf => m.wf_write hwf a bs⟩,
    fun m m' hwf hwf' => Memory.ext_bytes hwf hwf'⟩
  · split
    · next hp => exact m.read_write_inside hle hp.1 hp.2
    · next hp => exact m.read_write_outside (by omega)
  · exact if_neg (Nat.not_le.mpr hout)

/-- Settles O54: each write of an idle core is `hostWrite` once the input is used up. -/
theorem hostWritesBetweenOperations : Obligations.HostWritesBetweenOperations := by
  intro s rest ho
  have hwrite : ∀ a, s.inputs = .write a :: rest → step s = .next (hostWrite a { s with inputs := rest }) := by
    intro a hin
    rw [step_write_of_idle hin ho]
  refine ⟨fun v hin => hwrite _ hin, fun v hin => hwrite _ hin, fun v hin => hwrite _ hin, fun v hin => hwrite _ hin,
    fun hin => hwrite _ hin, fun bs hin => hwrite _ hin, fun run hin => hwrite _ hin, fun b bs hin => ?_,
    fun x y hin => ?_, fun b hin => ?_⟩
  · refine ⟨_, hwrite _ hin, ?_, ?_, ?_, fun c hc => ?_, setBuffer_eq_buffers _ _ _⟩
    · rw [hostWrite, setBuffer_buffer_same, Memory.bytes_ofBytes]
    · rw [hostWrite, setBuffer_buffer_same, Memory.len_ofBytes]
    · rw [hostWrite, setBuffer_buffer_same, Memory.wf_ofBytes]
    · exact setBuffer_buffer_other hc
  · exact ⟨_, hwrite _ hin, setBuffer_buffer_same _ _ _, fun c hc => setBuffer_buffer_other hc,
      setBuffer_eq_buffers _ _ _⟩
  · rw [step_read_of_idle hin ho]

end Sys2Proof.Machine
end

section
/-! The sequencer (spec/10_state.md rule R22): one equation of `sequencerStep` for each phase that an operation
has, and what every step of it leaves alone; then the statements that follow from these equations. -/

namespace Sys2Proof.Machine

/-! ### The phases of CRC and PATCH -/

theorem sequencerStep_seed {s : State} (ho : s.op.runsEngine = true) (hp : s.phase = .seed) :
    sequencerStep s = .next { engineSeed s with phase := afterByte (engineSeed s) } := by
  simp only [sequencerStep, hp, enginePhase, ho, if_true, seqSeed]

theorem sequencerStep_load {s : State} {b : Byte} (ho : s.op.runsEngine = true) (hp : s.phase = .load)
    (hb : (s.buffer s.run.buf).read (s.run.off + s.i) = some b) (hf : s.accessFails = false) :
    sequencerStep s = .next { engineLoad b s.afterAccess with phase := .bit } := by
  simp only [sequencerStep, hp, enginePhase, ho, if_true, seqLoad, hb, hf]
  rfl

theorem sequencerStep_load_fails {s : State} {b : Byte} (ho : s.op.runsEngine = true) (hp : s.phase = .load)
    (hb : (s.buffer s.run.buf).read (s.run.off + s.i) = some b) (hf : s.accessFails = true) :
    sequencerStep s = .next (takeFault (.ioFailure s.run.buf .read) s.afterAccess) := by
  simp only [sequencerStep, hp, enginePhase, ho, if_true, seqLoad, hb, hf]

/-- A bit step within a byte. -/
theorem sequencerStep_bit {s : State} (ho : s.op.runsEngine = true) (hp : s.phase = .bit) (h0 : s.n ≠ 0)
    (h1 : s.n ≠ 1) : sequencerStep s = .next (engineBit s) := by
  have hmore : (engineBit s).n ≠ 0 := fun h => h1 (sub_eq_zero.mp h)
  simp only [sequencerStep, hp, enginePhase, ho, if_true, seqBit, if_neg h0, if_neg hmore]

/-- The last bit step of a byte: `I` moves on (rule R22). -/
theorem sequencerStep_bit_last {s : State} (ho : s.op.runsEngine = true) (hp : s.phase = .bit) (h1 : s.n = 1) :
    sequencerStep s =
      .next { engineBit s with i := s.i + 1, phase := if s.i + 1 < s.run.len then .load else .ser } := by
  have h0 : s.n ≠ 0 := by rw [h1]; decide
  have hlast : (engineBit s).n = 0 := by rw [engineBit_n, h1]; rfl
  simp only [sequencerStep, hp, enginePhase, ho, if_true, seqBit, if_neg h0, if_pos hlast]
  rfl

theorem sequencerStep_ser {s : State} (ho : s.op.runsEngine = true) (hp : s.phase = .ser) :
    sequencerStep s = .next { engineSer s with phase := .commit } := by
  simp only [sequencerStep, hp, enginePhase, ho, if_true, seqSer]

/-! ### The phase `check` -/

section

variable {s : State} (hp : s.phase = .check)

include hp

theorem sequencerStep_check_crc (ho : s.op = .crc) :
    sequencerStep s = .next { s with run := crcRange s, i := 0, phase := .seed } := by
  simp only [sequencerStep, hp, seqCheck, ho]

theorem sequencerStep_check_patch (ho : s.op = .patch) : sequencerStep s =
    (checkPatch s).thenRun s fun t => .next { t with run := patchRange, i := 0, phase := .seed } := by
  simp only [sequencerStep, hp, seqCheck, ho]

theorem sequencerStep_check_encblk (ho : s.op = .encblk) :
    sequencerStep s = (checkEncblk s).thenRun s fun t => .next { t with phase := .pack } := by
  simp only [sequencerStep, hp, seqCheck, ho]

theorem sequencerStep_check_assemble (ho : s.op = .assemble) : sequencerStep s =
    (checkAssemble s).thenRun s fun t =>
      .next { t with stage := [], j := 0, phase := if blockCount t.src.len = 0 then .commit else .pack } := by
  simp only [sequencerStep, hp, seqCheck, ho]

end

/-! ### The phases `pack` and `commit` -/

theorem sequencerStep_pack_encblk {s : State} (hp : s.phase = .pack) (ho : s.op = .encblk) :
    sequencerStep s = .next { packBlock s with phase := .commit } := by
  simp only [sequencerStep, hp, seqPack, ho]

theorem sequencerStep_pack_assemble {s : State} (hp : s.phase = .pack) (ho : s.op = .assemble)
    (hf : s.accessFails = false) : sequencerStep s =
      .next { packChunk s.afterAccess with
        phase := if s.j + 1 < blockCount s.src.len then .pack else .commit } := by
  simp only [sequencerStep, hp, seqPack, ho, stepChunk, hf]
  rfl

theorem sequencerStep_pack_assemble_fails {s : State} (hp : s.phase = .pack) (ho : s.op = .assemble)
    (hf : s.accessFails = true) :
    sequencerStep s = .next (takeFault (.ioFailure .src .read) s.afterAccess) := by
  simp only [sequencerStep, hp, seqPack, ho, stepChunk, hf]
  rfl

section

variable {s : State} (hp : s.phase = .commit)

include hp

theorem sequencerStep_commit_crc (ho : s.op = .crc) : sequencerStep s = .next (deliverCrc s) := by
  simp only [sequencerStep, hp, seqCommit, ho]

theorem sequencerStep_commit_patch (ho : s.op = .patch) :
    sequencerStep s = (commitPatch s).thenNext deliverPatch := by
  simp only [sequencerStep, hp, seqCommit, ho]

theorem sequencerStep_commit_encblk (ho : s.op = .encblk) : sequencerStep s = .next (deliverEncblk s) := by
  simp only [sequencerStep, hp, seqCommit, ho]

theorem sequencerStep_commit_assemble (ho : s.op = .assemble) :
    sequencerStep s = (commitAssemble s).thenNext deliverAssemble := by
  simp only [sequencerStep, hp, seqCommit, ho]

end

/-! ### What a step of the sequencer leaves alone -/

theorem keepsBuffers_refl (s : State) : KeepsBuffers s s := ⟨rfl, rfl, rfl⟩

/-- A precondition's verdict: the fault, taken, or the operation goes on. -/
theorem thenRun_eq_next {v : Verdict} {s t : State} {k : State → Host.Outcome State Fault Refusal}
    (h : v.thenRun s k = .next t) : (∃ f, t = takeFault f s) ∨ k s = .next t := by
  cases v with
  | pass => exact .inr h
  | raise f => exact .inl ⟨f, (Host.Outcome.next.inj h).symm⟩

/-- An engine phase answers only for an operation that has it. -/
theorem enginePhase_eq_next {s t : State} {k : State → Host.Outcome State Fault Refusal}
    (h : enginePhase s k = .next t) : s.op.runsEngine = true ∧ k s = .next t := by
  unfold enginePhase at h
  split at h
  · next ho => exact ⟨ho, h⟩
  · cases h

theorem seqCheck_keepsBuffers {s t : State} (h : seqCheck s = .next t) : KeepsBuffers s t := by
  unfold seqCheck at h
  split at h
  · cases h
    exact keepsBuffers_refl s
  · cases h
    exact keepsBuffers_refl s
  all_goals
    rcases thenRun_eq_next h with ⟨f, rfl⟩ | h
    · exact keepsBuffers_refl s
    · cases h
      exact keepsBuffers_refl s

theorem seqLoad_keepsBuffers {s t : State} (h : seqLoad s = .next t) : KeepsBuffers s t := by
  unfold seqLoad at h
  split at h
  · cases h
  · split at h <;> cases h <;> exact keepsBuffers_refl s

theorem seqBit_keepsBuffers {s t : State} (h : seqBit s = .next t) : KeepsBuffers s t := by
  simp only [seqBit] at h
  split_ifs at h <;> cases h <;> exact keepsBuffers_refl s

theorem seqPack_keepsBuffers {s t : State} (h : seqPack s = .next t) : KeepsBuffers s t := by
  unfold seqPack at h
  split at h
  · cases h
    exact keepsBuffers_refl s
  · unfold stepChunk at h
    split at h <;> cases h <;> exact keepsBuffers_refl s
  all_goals cases h

/-- No phase but the commit touches a host buffer (rules R26, R134). -/
theorem sequencerStep_keepsBuffers {s t : State} (h : sequencerStep s = .next t) (hp : s.phase ≠ .commit) :
    KeepsBuffers s t := by
  cases hphase : s.phase <;> simp only [sequencerStep, hphase] at h
  case check => exact seqCheck_keepsBuffers h
  case seed =>
    cases (enginePhase_eq_next h).2
    exact keepsBuffers_refl s
  case load => exact seqLoad_keepsBuffers (enginePhase_eq_next h).2
  case bit => exact seqBit_keepsBuffers (enginePhase_eq_next h).2
  case ser =>
    cases (enginePhase_eq_next h).2
    exact keepsBuffers_refl s
  case pack => exact seqPack_keepsBuffers h
  case commit => exact absurd hphase hp
  case done => cases h

/-- The commits of PATCH and ASSEMBLE end the operation either way (rules R101, R134). -/
theorem commitPatch_thenNext_idle {s t : State} (h : (commitPatch s).thenNext deliverPatch = .next t) :
    t.op = .idle := by
  rcases commitPatch_cases s with ⟨_, hc⟩ | ⟨_, u, hc, _⟩ <;> rw [hc] at h <;> cases h <;> rfl

theorem commitAssemble_thenNext_idle {s t : State} (h : (commitAssemble s).thenNext deliverAssemble = .next t) :
    t.op = .idle := by
  rcases commitAssemble_cases s with ⟨_, hc⟩ | ⟨_, hc⟩ <;> rw [hc] at h <;> cases h <;> rfl

/-- The commit is the last step of an operation (rule R22). -/
theorem sequencerStep_commit_idle {s t : State} (h : sequencerStep s = .next t) (hp : s.phase = .commit) :
    t.op = .idle := by
  simp only [sequencerStep, hp] at h
  cases ho : s.op <;> simp only [seqCommit, ho] at h
  case idle => cases h
  case crc => cases h; rfl
  case patch => exact commitPatch_thenNext_idle h
  case encblk => cases h; rfl
  case assemble => exact commitAssemble_thenNext_idle h

/-! ### What a step can do -/

/-- What a step does once its input is used up. -/
inductive Move (s t : State) : Prop where
  /-- An idle core waits, or the host reads a buffer. -/
  | stay (ho : s.op = .idle) (e : t = s)
  /-- The sequencer goes on with the operation in progress. -/
  | sequenced (ho : s.op ≠ .idle) (e : sequencerStep s = .next t)
  /-- An operation runs as one big step. -/
  | operation (i : Instr) (ho : s.op = .idle) (e : exec i s = .next t)
  /-- A command word selects no operation. -/
  | illegal (c : CmdWord) (ho : s.op = .idle) (e : t = takeFault (.illegalOp c) s)
  /-- A host operation is left to the sequencer. -/
  | accepted (i : Instr) (ho : s.op = .idle) (hi : i.level = .host) (e : t = accept i s)
  /-- The host writes. -/
  | written (a : HostWrite) (ho : s.op = .idle) (e : t = hostWrite a s)
  /-- The host resets the core. -/
  | reset (e : t = resetCore s)

theorem advance_move {s t : State} (h : advance s = .next t) : Move s t := by
  unfold advance at h
  split at h
  · next ho => exact .stay ho (Host.Outcome.next.inj h).symm
  · next ho => exact .sequenced ho h

/-- What only an idle core does is answered by an idle core. -/
theorem whenIdle_eq_next {s t : State} {why : Refusal} {k : State → Host.Outcome State Fault Refusal}
    (h : whenIdle s why k = .next t) : s.op = .idle ∧ k s = .next t := by
  unfold whenIdle at h
  split at h
  · next ho => exact ⟨ho, h⟩
  · cases h

/-- Everything a step that answers can do. -/
theorem step_move {s t : State} (h : step s = .next t) : ∃ rest, Move { s with inputs := rest } t := by
  cases hin : s.inputs with
  | nil =>
    rw [step_no_input hin] at h
    exact ⟨s.inputs, advance_move h⟩
  | cons x rest =>
    rw [step_input hin] at h
    cases x with
    | wait => exact ⟨rest, advance_move h⟩
    | await =>
      simp only [serve] at h
      split at h
      · next ho => exact ⟨rest, .stay ho (Host.Outcome.next.inj h).symm⟩
      · next ho => exact ⟨s.inputs, .sequenced ho h⟩
    | present c =>
      obtain ⟨ho, h⟩ := whenIdle_eq_next h
      rcases runCommand_cases c { s with inputs := rest } with ⟨i, _, hrun⟩ | ⟨e, _, hrun⟩ <;> rw [hrun] at h
      · exact ⟨rest, .operation i ho h⟩
      · exact ⟨rest, .illegal c ho (Host.Outcome.next.inj h).symm⟩
    | presentStepped c =>
      obtain ⟨ho, h⟩ := whenIdle_eq_next h
      cases hdec : decodeCommand c <;> simp only [startCommand, hdec] at h
      case op i => exact ⟨rest, .accepted i ho (decodeCommand_level hdec) (Host.Outcome.next.inj h).symm⟩
      case illegal e => exact ⟨rest, .illegal c ho (Host.Outcome.next.inj h).symm⟩
    | issue c =>
      obtain ⟨ho, h⟩ := whenIdle_eq_next h
      cases hdec : decodeIssue c <;> simp only [runIssue, hdec] at h
      case op i => exact ⟨rest, .operation i ho h⟩
      case illegal e => cases h
    | write a =>
      obtain ⟨ho, h⟩ := whenIdle_eq_next (k := fun u => .next (hostWrite a u)) h
      exact ⟨rest, .written a ho (Host.Outcome.next.inj h).symm⟩
    | read b =>
      obtain ⟨ho, h⟩ := whenIdle_eq_next h
      exact ⟨rest, .stay ho (Host.Outcome.next.inj h).symm⟩
    | reset => exact ⟨rest, .reset (Host.Outcome.next.inj h).symm⟩

/-- What a step of a busy core can do: the sequencer goes on, or the host resets it. -/
theorem step_move_of_busy {s t : State} (ho : s.op ≠ .idle) (h : step s = .next t) :
    ∃ rest, sequencerStep { s with inputs := rest } = .next t ∨ t = resetCore { s with inputs := rest } := by
  obtain ⟨rest, hmove⟩ := step_move h
  refine ⟨rest, ?_⟩
  cases hmove with
  | sequenced _ e => exact .inl e
  | reset e => exact .inr e
  | stay hidle _ | operation _ hidle _ | illegal _ hidle _ | accepted _ hidle _ _ | written _ hidle _ =>
    exact absurd hidle ho

theorem resetCore_keepsBuffers (s : State) : KeepsBuffers s (resetCore s) :=
  ⟨resetCore_art s, resetCore_src s, resetCore_dst s⟩

/-! ### The statements -/

/-- Settles O6: the phase equations, in each of which `step` is the sequencer's. -/
theorem sequencerIssuesMicroOperations : Obligations.SequencerIssuesMicroOperations := by
  intro s hin hop
  have hengine : s.op.runsEngine = true := by rcases hop with ho | ho <;> rw [ho] <;> rfl
  have hbusy : s.op ≠ .idle := by rcases hop with ho | ho <;> rw [ho] <;> decide
  rw [step_busy hin hbusy]
  refine ⟨fun hp => ?_, fun b hp hb hf => ?_, fun hp h0 h1 => ?_, fun hp h1 => ?_, fun hp => ?_⟩
  · exact ⟨_, exec_crcSeed s, sequencerStep_seed hengine hp⟩
  · exact ⟨_, exec_crcLoad b _, sequencerStep_load hengine hp hb hf⟩
  · rw [exec_crcBit_of_bits_left h0, sequencerStep_bit hengine hp h0 h1]
  · have h0 : s.n ≠ 0 := by rw [h1]; decide
    exact ⟨_, _, exec_crcBit_of_bits_left h0, rfl, sequencerStep_bit_last hengine hp h1⟩
  · exact ⟨_, exec_crcSer s, sequencerStep_ser hengine hp⟩

end Sys2Proof.Machine
end

section
/-! The invariant (rules R15, R18, R22, R84, R127): first what the end of an operation, a micro-operation and a
host's write keep of it; then the sequencer's position, one lemma for each operation; then the statements about
every step. -/

namespace Sys2Proof.Machine

/-! ### Steps of the CRC engine -/

/-- A step of the CRC engine: nothing but the engine's registers, the position, and the answers of the buffers
changes, and `N` and `CK` keep their sizes (rule R15). -/
structure EngineStep (s t : State) : Prop where
  frame : t = { s with
    r := t.r, n := t.n, w := t.w, ck := t.ck, i := t.i, phase := t.phase, ioDraws := t.ioDraws }
  bitsLeft : s.n.toNat ≤ 8 → t.n.toNat ≤ 8
  ckLen : s.ck.length = Config.crcOutLen → t.ck.length = Config.crcOutLen

namespace EngineStep

variable {s t : State} (h : EngineStep s t)

include h

theorem op_eq : t.op = s.op := (congrArg State.op h.frame :)
theorem run_eq : t.run = s.run := (congrArg State.run h.frame :)
theorem art_eq : t.art = s.art := (congrArg State.art h.frame :)
theorem src_eq : t.src = s.src := (congrArg State.src h.frame :)
theorem dst_eq : t.dst = s.dst := (congrArg State.dst h.frame :)
theorem blk_eq : t.blk = s.blk := (congrArg State.blk h.frame :)
theorem stage_eq : t.stage = s.stage := (congrArg State.stage h.frame :)

/-- The invariant's sizes and forms are kept; its position is left to be shown. -/
theorem inv (hs : Inv s) (hpos : Position t) : Inv t where
  artWf := by rw [h.art_eq]; exact hs.artWf
  srcWf := by rw [h.src_eq]; exact hs.srcWf
  dstWf := by rw [h.dst_eq]; exact hs.dstWf
  ckLen := h.ckLen hs.ckLen
  blkLen := by rw [h.blk_eq]; exact hs.blkLen
  bitsLeft := h.bitsLeft hs.bitsLeft
  position := hpos

end EngineStep

theorem toNat_sub_one {n : BitVec 4} (h : n ≠ 0) : (n - 1).toNat = n.toNat - 1 := by
  bv_omega

section

variable (s : State) (p : Phase) (k : Nat)

theorem engineSeed_step : EngineStep s { engineSeed s with i := k, phase := p } := ⟨rfl, id, id⟩

theorem engineLoad_step (b : Byte) : EngineStep s { engineLoad b s.afterAccess with phase := p } :=
  ⟨rfl, fun _ => le_refl 8, id⟩

theorem engineSer_step : EngineStep s { engineSer s with phase := p } := ⟨rfl, id, fun _ => rfl⟩

variable {s}

theorem engineBit_step (h : s.n ≠ 0) : EngineStep s { engineBit s with i := k, phase := p } :=
  ⟨rfl, fun hle => by simp only [engineBit_n, toNat_sub_one h]; omega, id⟩

end

theorem engineByte_step (b : Byte) (s : State) : EngineStep s (engineByte b s) := by
  rw [engineByte_eq]
  exact ⟨rfl, fun _ => Nat.zero_le 8, id⟩

theorem ranState_step (bs : List Byte) (s : State) : EngineStep s (ranState bs s) := by
  refine ⟨rfl, fun hle => ?_, fun _ => rfl⟩
  show (if bs = [] then s.n else 0).toNat ≤ 8
  split
  · exact hle
  · exact Nat.zero_le 8

/-- Everything a micro-operation that answers can do: a step of the engine, or, for CRC.RUN, the fault of a
failing read (rules R79 to R84). -/
theorem exec_micro_cases {i : Instr} {s t : State} (hi : i.level = .micro) (h : exec i s = .next t) :
    EngineStep s t ∨ ∃ f u, t = takeFault f u ∧ KeepsBuffers s u := by
  cases i with
  | crc | patch | encblk | assemble => cases hi
  | crcSeed =>
    cases h
    exact .inl (engineSeed_step s s.phase s.i)
  | crcLoad b =>
    cases h
    exact .inl ⟨rfl, fun _ => le_refl 8, id⟩
  | crcBit =>
    by_cases h0 : s.n = 0
    · rw [exec_crcBit_of_no_bits h0] at h
      cases h
    · rw [exec_crcBit_of_bits_left h0] at h
      cases h
      exact .inl (engineBit_step s.phase s.i h0)
  | crcByte b =>
    cases h
    exact .inl (engineByte_step b s)
  | crcSer =>
    cases h
    exact .inl (engineSer_step s s.phase)
  | crcRun =>
    have h : crcRunThen .next s = .next t := h
    rcases crcRunThen_cases .next s with ⟨_, he⟩ | ⟨bs, _, _, he⟩ | ⟨bs, m, _, _, _, _, he⟩ <;>
      rw [he] at h <;> cases h
    · exact .inl (ranState_step bs s)
    · exact .inr ⟨_, _, rfl, keepsBuffers_refl s⟩

/-! ### The ends of an operation -/

theorem freeBitCount_le (k : Nat) : (BitVec.ofNat 4 (Config.freeBitCount k).val).toNat ≤ 8 := by
  have := (Config.freeBitCount k).isLt
  rw [BitVec.toNat_ofNat]
  omega

/-- The end of an operation meets the invariant wherever the host's buffers are in canonical form. -/
theorem inv_finish (res : OpResult) {s : State} (hart : s.art.wf = true) (hsrc : s.src.wf = true)
    (hdst : s.dst.wf = true) : Inv (finish res s) where
  artWf := hart
  srcWf := hsrc
  dstWf := hdst
  ckLen := by rw [finish_ck, length_freeBytes]
  blkLen := by rw [finish_blk, length_freeBytes]
  bitsLeft := freeBitCount_le s.freeCount
  position := rfl

/-- A fault, which commits nothing, keeps the invariant. -/
theorem Inv.takeFault {s u : State} (h : Inv s) (f : OpFault) (hk : KeepsBuffers s u) : Inv (takeFault f u) := by
  obtain ⟨hart, hsrc, hdst⟩ := hk
  exact inv_finish _ (hart ▸ h.artWf) (hsrc ▸ h.srcWf) (hdst ▸ h.dstWf)

theorem Inv.complete {s u : State} (h : Inv s) (v : OkValue) (hk : KeepsBuffers s u) : Inv (complete v u) := by
  obtain ⟨hart, hsrc, hdst⟩ := hk
  exact inv_finish _ (hart ▸ h.artWf) (hsrc ▸ h.srcWf) (hdst ▸ h.dstWf)

/-- PATCH completes with the checksum written, which keeps the form of `ART` (rule R99). -/
theorem Inv.complete_patch {s u : State} (h : Inv s) {a : Nat} {bs : List Byte} (hart : u.art = s.art.write a bs)
    (hsrc : u.src = s.src) (hdst : u.dst = s.dst) : Inv (Machine.complete .noValue u) :=
  inv_finish _ (hart ▸ Memory.wf_write h.artWf a bs) (hsrc ▸ h.srcWf) (hdst ▸ h.dstWf)

/-- ASSEMBLE completes with `DST` made of the staged bytes (rule R134). -/
theorem Inv.complete_assemble {s u : State} (h : Inv s) {bs : List Byte} (hart : u.art = s.art)
    (hsrc : u.src = s.src) (hdst : u.dst = Memory.ofBytes bs) : Inv (Machine.complete .noValue u) :=
  inv_finish _ (hart ▸ h.artWf) (hsrc ▸ h.srcWf) (hdst ▸ Memory.wf_ofBytes bs)

/-- What the loop of ASSEMBLE leaves of the host's buffers. -/
theorem packedState_keepsBuffers (k : Nat) (s : State) : KeepsBuffers s (packedState k s) := by
  induction k generalizing s with
  | zero => exact keepsBuffers_refl s
  | succ k ih => exact ih (packChunk s.afterAccess)

theorem Inv.exec_host {i : Instr} {s t : State} (h : Inv s) (hi : i.level = .host) (he : exec i s = .next t) :
    Inv t := by
  cases i with
  | crc =>
    have he : execCrc s = .next t := he
    rcases execCrc_cases s with ⟨_, e⟩ | ⟨_, _, _, _, e⟩ <;> rw [e] at he <;> cases he
    · exact h.complete _ (keepsBuffers_refl s)
    · exact h.takeFault _ (keepsBuffers_refl s)
  | patch =>
    have he : execPatch s = .next t := he
    rcases execPatch_cases s with ⟨_, e⟩ | ⟨_, _, _, _, _, _, _, e⟩ | ⟨_, _, e⟩ <;> rw [e] at he <;> cases he
    · exact h.takeFault _ (keepsBuffers_refl s)
    · exact h.takeFault _ (keepsBuffers_refl s)
    · exact h.complete_patch rfl rfl rfl
  | encblk =>
    have he : execEncblk s = .next t := he
    rcases execEncblk_cases s with ⟨_, e⟩ | ⟨_, e⟩ <;> rw [e] at he <;> cases he
    · exact h.takeFault _ (keepsBuffers_refl s)
    · exact h.complete _ (keepsBuffers_refl s)
  | assemble =>
    have he : execAssemble s = .next t := he
    have hk := fun k => packedState_keepsBuffers k (assembleStart s)
    rcases execAssemble_cases s with ⟨_, e⟩ | ⟨_, _, _, _, _, e⟩ | ⟨_, _, _, e⟩ | ⟨_, _, _, e⟩ <;>
      rw [e] at he <;> cases he
    · exact h.takeFault _ (keepsBuffers_refl s)
    · exact h.takeFault _ (hk _)
    · exact h.takeFault _ (hk _)
    · obtain ⟨hart, hsrc, _⟩ := hk (blockCount s.src.len)
      exact h.complete_assemble hart hsrc rfl
  | crcSeed | crcLoad b | crcBit | crcByte b | crcSer | crcRun => cases hi

/-! ### An idle core -/

theorem position_of_idle {s : State} (ho : s.op = .idle) (hst : s.stage = []) : Position s := by
  simpa only [Position, ho] using hst

theorem Inv.stage_of_idle {s : State} (h : Inv s) (ho : s.op = .idle) : s.stage = [] := by
  simpa only [Position, ho] using h.position

theorem Inv.exec {i : Instr} {s t : State} (h : Inv s) (ho : s.op = .idle) (he : exec i s = .next t) : Inv t := by
  cases hi : i.level with
  | host => exact h.exec_host hi he
  | micro =>
    rcases exec_micro_cases hi he with hstep | ⟨f, u, rfl, hk⟩
    · exact hstep.inv h (position_of_idle (hstep.op_eq.trans ho) (hstep.stage_eq.trans (h.stage_of_idle ho)))
    · exact h.takeFault f hk

theorem Inv.buffer {s : State} (h : Inv s) (b : BufferId) : (s.buffer b).wf = true := by
  cases b with
  | art => exact h.artWf
  | src => exact h.srcWf
  | dst => exact h.dstWf

/-- To replace a buffer by one in canonical form keeps the invariant of an idle core. -/
theorem Inv.setBuffer {s : State} (h : Inv s) (ho : s.op = .idle) (b : BufferId) {m : Memory} (hm : m.wf = true) :
    Inv (s.setBuffer b m) := by
  have hst := h.stage_of_idle ho
  cases b with
  | art => exact ⟨hm, h.srcWf, h.dstWf, h.ckLen, h.blkLen, h.bitsLeft, position_of_idle ho hst⟩
  | src => exact ⟨h.artWf, hm, h.dstWf, h.ckLen, h.blkLen, h.bitsLeft, position_of_idle ho hst⟩
  | dst => exact ⟨h.artWf, h.srcWf, hm, h.ckLen, h.blkLen, h.bitsLeft, position_of_idle ho hst⟩

theorem Inv.hostWrite {s : State} (h : Inv s) (ho : s.op = .idle) (a : HostWrite) : Inv (hostWrite a s) := by
  have hst := h.stage_of_idle ho
  cases a with
  | buffer b bs => exact h.setBuffer ho b (Memory.wf_ofBytes bs)
  | copy source target => exact h.setBuffer ho target (h.buffer source)
  | chunk bs | taddr v | blkno v | nblk v | base v | baseFlash | range run =>
    exact ⟨h.artWf, h.srcWf, h.dstWf, h.ckLen, h.blkLen, h.bitsLeft, position_of_idle ho hst⟩

theorem Inv.accept {s : State} (h : Inv s) {i : Instr} (hi : i.level = .host) : Inv (accept i s) := by
  refine ⟨h.artWf, h.srcWf, h.dstWf, h.ckLen, h.blkLen, Nat.zero_le 8, ?_⟩
  cases i with
  | crc => exact ⟨fun hp => absurd rfl hp, rfl⟩
  | patch => exact ⟨fun hp => absurd rfl hp, rfl⟩
  | encblk => trivial
  | assemble => trivial
  | crcSeed | crcLoad b | crcBit | crcByte b | crcSer | crcRun => cases hi

theorem Inv.resetCore {s : State} (h : Inv s) : Inv (resetCore s) where
  artWf := by rw [resetCore_art]; exact h.artWf
  srcWf := by rw [resetCore_src]; exact h.srcWf
  dstWf := by rw [resetCore_dst]; exact h.dstWf
  ckLen := by rw [resetCore_ck]; rfl
  blkLen := by rw [resetCore_blk]; exact List.length_replicate
  bitsLeft := Nat.zero_le 8
  position := rfl

/-! ### The sequencer in CRC and PATCH -/

/-- A byte of the range is the byte of its buffer at that offset (rule R84). -/
theorem read_of_runBytes {s : State} {data : List Byte} (h : s.runBytes = some data) {i : Nat}
    (hi : i < data.length) : (s.buffer s.run.buf).read (s.run.off + i) = data[i]? := by
  have hlen : data.length = s.run.len := Memory.slice_length h
  obtain ⟨_, rfl⟩ := Memory.slice_eq_some.mp h
  rw [Memory.read_eq_bytes, List.getElem?_take_of_lt (by omega), List.getElem?_drop]

theorem enginePosition_afterByte {s : State} {data : List Byte} (hn : s.n = 0) (hi : s.i ≤ data.length)
    (hr : s.r = crcRegister (data.take s.i)) :
    EnginePosition { s with phase := if s.i < data.length then .load else .ser } data := by
  split
  · next hlt => exact ⟨hn, hlt, hr⟩
  · next hge =>
    have heq : s.i = data.length := by omega
    exact ⟨heq, by rw [hr, heq, List.take_length]⟩

/-- A bit step within a byte, on the partial result of the invariant (rules R18, R81). -/
theorem enginePosition_bit {s : State} {data : List Byte} (hp : s.phase = .bit) (h : EnginePosition s data)
    (h1 : s.n ≠ 1) : EnginePosition (engineBit s) data := by
  simp only [EnginePosition, hp] at h
  obtain ⟨b, hb, hpos, hle, hw, hr⟩ := h
  have hone : s.n.toNat ≠ 1 := fun h => h1 (BitVec.eq_of_toNat_eq h)
  have hzero : s.n ≠ 0 := by
    intro h0
    rw [h0] at hpos
    exact absurd hpos (by decide)
  have hn : (s.n - 1).toNat = s.n.toNat - 1 := toNat_sub_one hzero
  have hdone : 8 - (s.n.toNat - 1) = 8 - s.n.toNat + 1 := by omega
  simp only [EnginePosition, engineBit_phase, hp, engineBit_n, hn, engineBit_i, engineBit_w, engineBit_r, hdone]
  refine ⟨b, hb, by omega, by omega, ?_, ?_⟩
  · rw [hw, BitVec.shiftLeft_add]
  · rw [bitSteps_last, hr, hw]

/-- The last bit step of a byte completes `step_byte` (rule R84). -/
theorem bitStep_of_last {s : State} {data : List Byte} (hp : s.phase = .bit) (h : EnginePosition s data)
    (h1 : s.n = 1) : s.i < data.length ∧ bitStep s.r s.w = crcRegister (data.take (s.i + 1)) := by
  simp only [EnginePosition, hp] at h
  obtain ⟨b, hb, _, _, hw, hr⟩ := h
  refine ⟨(List.getElem?_eq_some_iff.mp hb).1, ?_⟩
  have hdone : 8 - s.n.toNat = 7 := by rw [h1]; rfl
  rw [crcRegister_take_succ hb, hr, hw, hdone, ← bitSteps_last]
  rfl

/-- The engine's phases keep its position in the range, or a read fails (rule R84). -/
theorem engine_advances {s : State} {data : List Byte} (ho : s.op.runsEngine = true)
    (hrun : s.runBytes = some data) (hpos : EnginePosition s data) (hcheck : s.phase ≠ .check)
    (hcommit : s.phase ≠ .commit) :
    (∃ f, sequencerStep s = .next (takeFault f s.afterAccess)) ∨
      ∃ t, sequencerStep s = .next t ∧ EngineStep s t ∧ EnginePosition t data := by
  have hlen : data.length = s.run.len := Memory.slice_length hrun
  cases hp : s.phase with
  | check => exact absurd hp hcheck
  | commit => exact absurd hp hcommit
  | pack | done => exact absurd hpos (by simp only [EnginePosition, hp, not_false_eq_true])
  | seed =>
    simp only [EnginePosition, hp] at hpos
    obtain ⟨hn, hi⟩ := hpos
    refine .inr ⟨_, sequencerStep_seed ho hp, engineSeed_step s _ s.i, ?_⟩
    rw [afterByte, engineSeed_i, engineSeed_run, ← hlen]
    exact enginePosition_afterByte (s := engineSeed s) hn (by simp [hi]) (by rw [engineSeed_i, hi]; rfl)
  | load =>
    simp only [EnginePosition, hp] at hpos
    obtain ⟨_, hi, hr⟩ := hpos
    have hbyte := (read_of_runBytes hrun hi).trans (List.getElem?_eq_getElem hi)
    cases hf : s.accessFails with
    | true => exact .inl ⟨_, sequencerStep_load_fails ho hp hbyte hf⟩
    | false =>
      refine .inr ⟨_, sequencerStep_load ho hp hbyte hf, engineLoad_step s _ _, ?_⟩
      exact ⟨data[s.i], List.getElem?_eq_getElem hi, (by decide : 0 < (8 : BitVec 4).toNat), le_refl 8,
        (BitVec.shiftLeft_zero _).symm, hr⟩
  | bit =>
    by_cases h1 : s.n = 1
    · obtain ⟨hi, hr⟩ := bitStep_of_last hp hpos h1
      have h0 : s.n ≠ 0 := by rw [h1]; decide
      refine .inr ⟨_, sequencerStep_bit_last ho hp h1, engineBit_step _ _ h0, ?_⟩
      rw [← hlen]
      exact enginePosition_afterByte (s := { engineBit s with i := s.i + 1 })
        (by simp only [engineBit_n, h1]; rfl) hi hr
    · have h0 := hpos.bits_left_of_bit hp
      exact .inr ⟨_, sequencerStep_bit ho hp h0 h1, engineBit_step _ _ h0, enginePosition_bit hp hpos h1⟩
  | ser =>
    simp only [EnginePosition, hp] at hpos
    obtain ⟨_, hr⟩ := hpos
    refine .inr ⟨_, sequencerStep_ser ho hp, engineSer_step s _, ?_⟩
    simp only [EnginePosition, engineSer_ck, hr, checksum]

theorem Inv.crcPosition {s : State} (h : Inv s) (ho : s.op = .crc) : CrcPosition s := by
  simpa only [Position, ho] using h.position

theorem Inv.patchPosition {s : State} (h : Inv s) (ho : s.op = .patch) : PatchPosition s := by
  simpa only [Position, ho] using h.position

theorem Inv.encblkPosition {s : State} (h : Inv s) (ho : s.op = .encblk) : EncblkPosition s := by
  simpa only [Position, ho] using h.position

theorem Inv.assemblePosition {s : State} (h : Inv s) (ho : s.op = .assemble) : AssemblePosition s := by
  simpa only [Position, ho] using h.position

/-- CRC in progress goes on, and its position stays that of the invariant (rule R85). -/
theorem Inv.sequencer_crc {s : State} (h : Inv s) (ho : s.op = .crc) : ∃ t, sequencerStep s = .next t ∧ Inv t := by
  obtain ⟨hrange, hpos⟩ := h.crcPosition ho
  by_cases hcheck : s.phase = .check
  · refine ⟨_, sequencerStep_check_crc hcheck ho, h.artWf, h.srcWf, h.dstWf, h.ckLen, h.blkLen, h.bitsLeft, ?_⟩
    simp only [EnginePosition, hcheck] at hpos
    simp only [Position, ho]
    exact ⟨fun _ => rfl, hpos, rfl⟩
  by_cases hcommit : s.phase = .commit
  · exact ⟨_, sequencerStep_commit_crc hcommit ho, h.complete _ (keepsBuffers_refl s)⟩
  have hrun : s.runBytes = some s.src.bytes := by
    rw [State.runBytes, hrange hcheck]
    exact Memory.slice_all s.src
  rcases engine_advances (by rw [ho]; rfl) hrun hpos hcheck hcommit with ⟨f, hf⟩ | ⟨t, ht, hstep, hpos'⟩
  · exact ⟨_, hf, h.takeFault f (keepsBuffers_refl s)⟩
  · refine ⟨t, ht, hstep.inv h ?_⟩
    simp only [Position, hstep.op_eq, ho, CrcPosition, crcRange, hstep.src_eq, hstep.run_eq]
    exact ⟨fun _ => hrange hcheck, hpos'⟩

/-- PATCH in progress goes on, and its position stays that of the invariant (rule R99). -/
theorem Inv.sequencer_patch {s : State} (h : Inv s) (ho : s.op = .patch) :
    ∃ t, sequencerStep s = .next t ∧ Inv t := by
  obtain ⟨hrange, hpos⟩ := h.patchPosition ho
  by_cases hcheck : s.phase = .check
  · rw [sequencerStep_check_patch hcheck ho]
    rcases checkPatch_cases s with ⟨_, hv⟩ | ⟨hlen, hv⟩ <;> rw [hv]
    · exact ⟨_, rfl, h.takeFault _ (keepsBuffers_refl s)⟩
    · refine ⟨_, rfl, h.artWf, h.srcWf, h.dstWf, h.ckLen, h.blkLen, h.bitsLeft, ?_⟩
      simp only [EnginePosition, hcheck] at hpos
      simp only [Position, ho]
      exact ⟨fun _ => ⟨rfl, hlen⟩, hpos, rfl⟩
  by_cases hcommit : s.phase = .commit
  · rw [sequencerStep_commit_patch hcommit ho]
    rcases commitPatch_cases s with ⟨_, hc⟩ | ⟨_, u, hc, rfl⟩ <;> rw [hc]
    · exact ⟨_, rfl, h.complete_patch rfl rfl rfl⟩
    · exact ⟨_, rfl, h.takeFault _ (keepsBuffers_refl s)⟩
  obtain ⟨hpatch, hlen⟩ := hrange hcheck
  have hrun : s.runBytes = some (s.art.bytes.take Config.bootCoverLen) := by
    rw [State.runBytes, hpatch]
    exact Memory.slice_first (le_trans (by decide) hlen)
  rcases engine_advances (by rw [ho]; rfl) hrun hpos hcheck hcommit with ⟨f, hf⟩ | ⟨t, ht, hstep, hpos'⟩
  · exact ⟨_, hf, h.takeFault f (keepsBuffers_refl s)⟩
  · refine ⟨t, ht, hstep.inv h ?_⟩
    simp only [Position, hstep.op_eq, ho, PatchPosition, hstep.art_eq, hstep.run_eq]
    exact ⟨fun _ => ⟨hpatch, hlen⟩, hpos'⟩

/-! ### The sequencer in ENCBLK and ASSEMBLE -/

theorem clen_le_of_check {s : State} (h : checkEncblk s = .pass) : s.clen ≤ Config.uf2ChunkMax := by
  rcases checkEncblk_cases s with ⟨_, hv⟩ | ⟨hle, _⟩
  · rw [hv] at h
    cases h
  · exact hle

/-- ENCBLK in progress: the block is that of the operands once `pack` is done (rule R110). -/
theorem Inv.sequencer_encblk {s : State} (h : Inv s) (ho : s.op = .encblk) :
    ∃ t, sequencerStep s = .next t ∧ Inv t := by
  have hpos := h.encblkPosition ho
  cases hp : s.phase with
  | check =>
    rw [sequencerStep_check_encblk hp ho]
    rcases checkEncblk_cases s with ⟨_, hv⟩ | ⟨_, hv⟩ <;> rw [hv]
    · exact ⟨_, rfl, h.takeFault _ (keepsBuffers_refl s)⟩
    · refine ⟨_, rfl, h.artWf, h.srcWf, h.dstWf, h.ckLen, h.blkLen, h.bitsLeft, ?_⟩
      simp only [Position, ho, EncblkPosition]
      exact hv
  | pack =>
    simp only [EncblkPosition, hp] at hpos
    have hblk : (packBlock s).blk = uf2Block Config.familyId s.chunk s.taddr s.blkno s.nblk :=
      packBlock_blk_eq (le_trans (clen_le_of_check hpos) (by decide)) h.blkLen
    refine ⟨_, sequencerStep_pack_encblk hp ho, h.artWf, h.srcWf, h.dstWf, h.ckLen, ?_, h.bitsLeft, ?_⟩
    · exact hblk ▸ length_uf2Block (le_trans (clen_le_of_check hpos) (by decide))
    · simp only [Position, packBlock_op, ho, EncblkPosition]
      exact hblk
  | commit => exact ⟨_, sequencerStep_commit_encblk hp ho, h.complete _ (keepsBuffers_refl s)⟩
  | seed | load | bit | ser | done => exact absurd hpos (by simp only [EncblkPosition, hp, not_false_eq_true])

/-- With the blocks of the chunks before `J` staged, either chunk `J` is next or the container is whole (rule
R127). -/
theorem assemblePosition_next {s : State} (hv : checkAssemble s = .pass) (hj : s.j ≤ blockCount s.src.len)
    (hst : s.stage = containerUpTo Config.familyId s.base s.src.bytes s.j) :
    AssemblePosition { s with phase := if s.j < blockCount s.src.len then .pack else .commit } := by
  split
  · next hlt => exact ⟨hv, hlt, hst⟩
  · next hge =>
    have hall : s.j = blockCount s.src.len := by omega
    exact ⟨hv, by rw [hst, hall, container, Memory.length_bytes]⟩

/-- The phase after the check: without a chunk the commit is next (rules R127, R129). -/
theorem phase_after_check (n : Nat) :
    (if n = 0 then Phase.commit else .pack) = if 0 < n then .pack else .commit := by
  cases n <;> simp

/-- ASSEMBLE in progress: each pass of the loop stages the block of chunk `J` (rules R127, R128). -/
theorem Inv.sequencer_assemble {s : State} (h : Inv s) (ho : s.op = .assemble) :
    ∃ t, sequencerStep s = .next t ∧ Inv t := by
  have hpos := h.assemblePosition ho
  cases hp : s.phase with
  | check =>
    rw [sequencerStep_check_assemble hp ho]
    rcases checkAssemble_cases s with ⟨_, hv⟩ | ⟨_, hv⟩ <;> rw [hv]
    · exact ⟨_, rfl, h.takeFault _ (keepsBuffers_refl s)⟩
    · refine ⟨_, rfl, h.artWf, h.srcWf, h.dstWf, h.ckLen, h.blkLen, h.bitsLeft, ?_⟩
      simp only [Position, ho, phase_after_check]
      exact assemblePosition_next (s := { s with stage := [], j := 0 }) hv (Nat.zero_le _) rfl
  | pack =>
    simp only [AssemblePosition, hp] at hpos
    obtain ⟨hv, hj, hst⟩ := hpos
    cases hf : s.accessFails with
    | true => exact ⟨_, sequencerStep_pack_assemble_fails hp ho hf, h.takeFault _ (keepsBuffers_refl s)⟩
    | false =>
      have hblk : (packChunk s.afterAccess).blk = containerBlock Config.familyId s.base s.src.bytes s.j :=
        packChunk_blk (s := s.afterAccess) h.blkLen
      refine ⟨_, sequencerStep_pack_assemble hp ho hf, h.artWf, h.srcWf, h.dstWf, h.ckLen, ?_, h.bitsLeft, ?_⟩
      · rw [hblk, length_containerBlock]
      · simp only [Position, packChunk_op, afterAccess_op, ho]
        refine assemblePosition_next (s := packChunk s.afterAccess) hv hj ?_
        rw [packChunk_stage, hblk, afterAccess_stage, hst, ← containerUpTo_succ]
        rfl
  | commit =>
    rw [sequencerStep_commit_assemble hp ho]
    rcases commitAssemble_cases s with ⟨_, hc⟩ | ⟨_, hc⟩ <;> rw [hc]
    · exact ⟨_, rfl, h.complete_assemble rfl rfl rfl⟩
    · exact ⟨_, rfl, h.takeFault _ (keepsBuffers_refl s)⟩
  | seed | load | bit | ser | done => exact absurd hpos (by simp only [AssemblePosition, hp, not_false_eq_true])

/-- An operation in progress has a step, which keeps the invariant (rule R159). -/
theorem Inv.sequencer {s : State} (h : Inv s) (ho : s.op ≠ .idle) : ∃ t, sequencerStep s = .next t ∧ Inv t := by
  cases hop : s.op with
  | idle => exact absurd hop ho
  | crc => exact h.sequencer_crc hop
  | patch => exact h.sequencer_patch hop
  | encblk => exact h.sequencer_encblk hop
  | assemble => exact h.sequencer_assemble hop

/-! ### The statements -/

/-- The invariant does not speak of the coming inputs. -/
theorem Inv.withInputs {s : State} (h : Inv s) (rest : List Input) : Inv { s with inputs := rest } :=
  ⟨h.artWf, h.srcWf, h.dstWf, h.ckLen, h.blkLen, h.bitsLeft, h.position⟩

theorem Inv.move {s t : State} (h : Inv s) (hm : Move s t) : Inv t := by
  cases hm with
  | stay _ e => exact e ▸ h
  | sequenced ho e =>
    obtain ⟨t', ht', hinv⟩ := h.sequencer ho
    obtain rfl := Host.Outcome.next.inj (ht'.symm.trans e)
    exact hinv
  | operation i ho e => exact h.exec ho e
  | illegal c _ e => exact e ▸ h.takeFault _ (keepsBuffers_refl s)
  | accepted i _ hi e => exact e ▸ h.accept hi
  | written a ho e => exact e ▸ h.hostWrite ho a
  | reset e => exact e ▸ h.resetCore

/-- Settles O10: whatever a step does once its input is used up keeps the invariant. -/
theorem stepKeepsTheInvariant : Obligations.StepKeepsTheInvariant := by
  intro s t h hstep
  obtain ⟨rest, hmove⟩ := step_move hstep
  exact (h.withInputs rest).move hmove

/-- Settles O9: of the reset state, too, a reset leaves nothing in progress. -/
theorem resetMeetsTheInvariant : Obligations.ResetMeetsTheInvariant :=
  ⟨rfl, rfl, rfl, rfl, List.length_replicate, Nat.zero_le 8, rfl⟩

/-! ### Every allowed input is answered -/

theorem answers_next (s : State) : Answers (.next s) := ⟨s, rfl⟩

theorem Inv.advance_answers {s : State} (h : Inv s) : Answers (advance s) := by
  unfold advance
  split
  · exact answers_next s
  · next ho =>
    obtain ⟨t, ht, _⟩ := h.sequencer ho
    exact ⟨t, ht⟩

/-- A command word is answered in either way of presenting it, by the operation or by `IllegalOp` (rule R75). -/
theorem command_answers (c : CmdWord) (s : State) : Answers (runCommand c s) ∧ Answers (startCommand c s) := by
  by_cases hdec : ∃ i, decodeCommand c = .op i
  · obtain ⟨i, hdec⟩ := hdec
    rw [runCommand_of_op hdec, startCommand_of_op hdec]
    exact ⟨execHost_answers s (decodeCommand_level hdec), answers_next _⟩
  · obtain ⟨hrun, hstart⟩ := command_of_no_op (not_exists.mp hdec) s
    rw [hrun, hstart]
    exact ⟨answers_next _, answers_next _⟩

/-- A micro-operation is answered where rules R81 and R84 allow it. -/
theorem exec_micro_answers {i : Instr} {s : State} (hi : i.level = .micro) (hbit : i = .crcBit → s.n ≠ 0)
    (hrun : i = .crcRun → s.runBytes ≠ none) : Answers (exec i s) := by
  cases i with
  | crc | patch | encblk | assemble => cases hi
  | crcSeed | crcLoad b | crcByte b | crcSer => exact answers_next _
  | crcBit => exact ⟨_, exec_crcBit_of_bits_left (hbit rfl)⟩
  | crcRun =>
    rcases crcRunThen_cases .next s with ⟨hnone, _⟩ | ⟨bs, _, _, he⟩ | ⟨bs, m, _, _, _, _, he⟩
    · exact absurd hnone (hrun rfl)
    · exact ⟨_, he⟩
    · exact ⟨_, he⟩

/-- Settles O11: the sequencer by the invariant, a host operation in every state, the rest by the host's duties. -/
theorem dutifulHostIsAnswered : Obligations.DutifulHostIsAnswered := by
  intro s h hallowed
  cases hin : s.inputs with
  | nil =>
    rw [step_no_input hin]
    exact h.advance_answers
  | cons x rest =>
    simp only [InputAllowed, hin] at hallowed
    cases x with
    | wait =>
      rw [step_wait hin]
      exact (h.withInputs rest).advance_answers
    | await =>
      by_cases ho : s.op = .idle
      · exact ⟨_, step_await_of_idle hin ho⟩
      · obtain ⟨t, ht, _⟩ := h.sequencer ho
        exact ⟨t, (step_await_of_busy hin ho).trans ht⟩
    | present c =>
      rw [step_present_of_idle hin hallowed]
      exact (command_answers c _).1
    | presentStepped c =>
      rw [step_presentStepped_of_idle hin hallowed]
      exact (command_answers c _).2
    | issue c =>
      obtain ⟨ho, i, hdec, hbit, hrun⟩ := hallowed
      rw [step_issue_of_idle hin ho, runIssue_of_op hdec]
      exact exec_micro_answers (decodeIssue_level hdec) hbit hrun
    | write a =>
      obtain ⟨ho, _⟩ := hallowed
      exact ⟨_, step_write_of_idle hin ho⟩
    | read b => exact ⟨_, step_read_of_idle hin hallowed⟩
    | reset => exact ⟨_, step_reset hin⟩

/-! ### Nothing is committed in progress -/

theorem hostWrite_op (a : HostWrite) (s : State) : (hostWrite a s).op = s.op := by
  cases a with
  | buffer b bs => cases b <;> rfl
  | copy source target => cases target <;> rfl
  | chunk bs | taddr v | blkno v | nblk v | base v | baseFlash | range run => rfl

/-- A big step leaves an idle core idle (rule R12). -/
theorem exec_idle {i : Instr} {s t : State} (ho : s.op = .idle) (he : exec i s = .next t) : t.op = .idle := by
  cases hi : i.level with
  | host =>
    obtain ⟨res, u, rfl, _⟩ := execHost_ends hi he
    rfl
  | micro =>
    rcases exec_micro_cases hi he with hstep | ⟨f, u, rfl, _⟩
    · exact hstep.op_eq.trans ho
    · rfl

/-- Whatever leaves an operation in progress touches no host buffer: only ends of an operation and the host's
writes do (rules R26, R134). -/
theorem Move.keepsBuffers_of_busy {s t : State} (h : Move s t) (ht : t.op ≠ .idle) : KeepsBuffers s t := by
  cases h with
  | stay _ e => exact e ▸ keepsBuffers_refl s
  | sequenced _ e => exact sequencerStep_keepsBuffers e fun hp => ht (sequencerStep_commit_idle e hp)
  | operation i ho e => exact absurd (exec_idle ho e) ht
  | illegal c _ e => exact absurd (e ▸ rfl) ht
  | accepted i _ _ e => exact e ▸ keepsBuffers_refl s
  | written a ho e => exact absurd (e ▸ (hostWrite_op a s).trans ho) ht
  | reset e => exact e ▸ resetCore_keepsBuffers s

/-- Settles O15: what a step can do, and a reset, leave the buffers of an operation in progress. -/
theorem nothingIsCommittedInProgress : Obligations.NothingIsCommittedInProgress := by
  refine ⟨fun s t hstep ht => ?_, fun s rest _ hin => ?_⟩
  · obtain ⟨rest, hmove⟩ := step_move hstep
    exact hmove.keepsBuffers_of_busy ht
  · exact ⟨_, step_reset hin, resetCore_keepsBuffers { s with inputs := rest }, rfl, rfl, resetCore_inputs _⟩

end Sys2Proof.Machine
end

section
/-! The CRC engine's algebra (spec/40_crc_engine.md rules R88 to R92) and CRC.RUN: a bit step as a shift register
with taps, the linearity of the bit steps and of the byte step, the byte step from its table, and the expansion of
CRC.BYTE and CRC.RUN into micro-operations; then the statements. -/

namespace Sys2Proof.Machine

/-! ### One bit step (rules R78, R88) -/

theorem getLsbD_bitStep (r w : Word) (k : Nat) :
    (bitStep r w).getLsbD k = ((r <<< 1).getLsbD k ^^ (feedback r w && Config.crcPoly.getLsbD k)) := by
  unfold bitStep
  cases feedback r w <;> simp

theorem feedback_eq (r w : Word) : feedback r w = (r.getLsbD 31 ^^ w.getLsbD 31) := BitVec.getLsbD_xor

/-- The taps of the generator polynomial (rule R88). -/
theorem getLsbD_crcPoly {k : Nat} (hpos : 0 < k) (hlt : k < 32) :
    Config.crcPoly.getLsbD k = decide (k ∈ [26, 23, 22, 16, 12, 11, 10, 8, 7, 5, 4, 2, 1]) := by
  have htaps : ∀ k < 32, 0 < k →
      Config.crcPoly.getLsbD k = decide (k ∈ [26, 23, 22, 16, 12, 11, 10, 8, 7, 5, 4, 2, 1]) := by decide
  exact htaps k hlt hpos

/-- Settles O20: a bit step bit by bit, with the taps of the polynomial. -/
theorem crcBitIsAShiftRegisterWithTaps : Obligations.CrcBitIsAShiftRegisterWithTaps := by
  intro s hn
  refine ⟨_, exec_crcBit_of_bits_left hn, ?_, fun k hpos hlt => ?_⟩
  · have hbit : Config.crcPoly.getLsbD 0 = true := by decide
    rw [engineBit_r, getLsbD_bitStep, feedback_eq, hbit]
    simp
  · rw [engineBit_r, getLsbD_bitStep, feedback_eq, getLsbD_crcPoly hpos hlt, BitVec.getLsbD_shiftLeft]
    have hle : ¬ k < 1 := by omega
    split <;> simp_all

/-! ### Linearity (rule R92) -/

theorem feedback_xor (r r' w w' : Word) :
    feedback (r ^^^ r') (w ^^^ w') = (feedback r w ^^ feedback r' w') := by
  simp only [feedback_eq, BitVec.getLsbD_xor, Bool.xor_assoc, Bool.xor_left_comm]

theorem bitStep_xor (r r' w w' : Word) : bitStep (r ^^^ r') (w ^^^ w') = bitStep r w ^^^ bitStep r' w' := by
  apply BitVec.eq_of_getLsbD_eq
  intro k _
  simp only [BitVec.getLsbD_xor, getLsbD_bitStep, feedback_xor, BitVec.shiftLeft_xor_distrib,
    Bool.and_xor_distrib_right, Bool.xor_assoc, Bool.xor_left_comm]

theorem bitSteps_xor (k : Nat) (r r' w w' : Word) :
    bitSteps k (r ^^^ r') (w ^^^ w') = bitSteps k r w ^^^ bitSteps k r' w' := by
  induction k generalizing r r' w w' with
  | zero => rfl
  | succ k ih => rw [bitSteps_succ, bitSteps_succ, bitSteps_succ, bitStep_xor, BitVec.shiftLeft_xor_distrib, ih]

/-- A word that shifts in is a word XORed into the register, and into the end result as far as it is shifted. -/
theorem bitSteps_eq_xor (k : Nat) (r w : Word) : bitSteps k r w = bitSteps k (r ^^^ w) 0 ^^^ (w <<< k) := by
  induction k generalizing r w with
  | zero => simp [bitSteps]
  | succ k ih =>
    have hstep : bitStep r w = bitStep (r ^^^ w) 0 ^^^ (w <<< 1) := by
      apply BitVec.eq_of_getLsbD_eq
      intro j _
      simp only [BitVec.getLsbD_xor, getLsbD_bitStep, feedback_eq, BitVec.shiftLeft_xor_distrib]
      cases (r <<< 1).getLsbD j <;> cases (w <<< 1).getLsbD j <;> simp
    rw [bitSteps_succ, bitSteps_succ, ih, hstep, BitVec.xor_assoc, BitVec.xor_self, BitVec.xor_zero,
      show (0 : Word) <<< 1 = 0 from rfl, ← BitVec.shiftLeft_add, Nat.add_comm 1 k]

/-- A register whose top `k` bits are zero is only shifted by `k` bit steps with nothing shifting in. -/
theorem bitSteps_of_top_zero {k : Nat} {r : Word} (h : ∀ j < k, r.getLsbD (31 - j) = false) :
    bitSteps k r 0 = r <<< k := by
  induction k generalizing r with
  | zero => simp
  | succ k ih =>
    have htop : r.getLsbD 31 = false := h 0 (Nat.succ_pos k)
    have hstep : bitStep r 0 = r <<< 1 := by
      rw [bitStep, feedback_eq, htop]
      rfl
    rw [bitSteps_succ, hstep, show (0 : Word) <<< 1 = 0 from rfl, ih, ← BitVec.shiftLeft_add, Nat.add_comm]
    intro j hj
    rw [BitVec.getLsbD_shiftLeft, show 31 - j - 1 = 31 - (j + 1) by omega, h (j + 1) (by omega), Bool.and_false]

theorem word_xor_zero (r : Word) : r ^^^ 0 = r := BitVec.xor_zero

theorem loadWord_xor (a b : Byte) : loadWord (a ^^^ b) = loadWord a ^^^ loadWord b := by
  rw [loadWord_eq_shift, loadWord_eq_shift, loadWord_eq_shift, BitVec.setWidth_xor, BitVec.shiftLeft_xor_distrib]

theorem stepByte_xor (r r' : Word) (a b : Byte) : stepByte (r ^^^ r') (a ^^^ b) = stepByte r a ^^^ stepByte r' b := by
  rw [stepByte, loadWord_xor, bitSteps_xor]
  rfl

theorem crcFrom_xor (r r' : Word) {as bs : List Byte} (h : as.length = bs.length) :
    crcFrom (r ^^^ r') (xorBytes as bs) = crcFrom r as ^^^ crcFrom r' bs := by
  induction as generalizing r r' bs with
  | nil => cases bs <;> simp_all [xorBytes]
  | cons a as ih =>
    cases bs with
    | nil => cases h
    | cons b bs =>
      rw [crcFrom_cons, crcFrom_cons, ← ih _ _ (Nat.succ.inj h), ← stepByte_xor]
      rfl

theorem crcFrom_zeros (n : Nat) : crcFrom 0 (zeros n) = 0 := by
  induction n with
  | zero => rfl
  | succ n ih =>
    have hzero : stepByte 0 0x00 = 0 := by decide
    rw [zeros, List.replicate_succ, crcFrom_cons, hzero]
    exact ih

theorem xorBytes_zeros (as : List Byte) : xorBytes as (zeros as.length) = as := by
  induction as with
  | nil => rfl
  | cons a as ih =>
    rw [List.length_cons, zeros, List.replicate_succ]
    exact congrArg₂ _ (BitVec.xor_zero) ih

/-- The register over 252 zero bytes, in four runs of 63 so that each evaluates in a small depth (rule R92). -/
theorem crcRegister_zeros_cover : crcRegister (zeros 252) = 0x7065399A := by
  have hrun1 : crcFrom Config.crcInit (zeros 63) = 0xD8A4AAE8 := by decide +kernel
  have hrun2 : crcFrom 0xD8A4AAE8 (zeros 63) = 0x3B59D4AF := by decide +kernel
  have hrun3 : crcFrom 0x3B59D4AF (zeros 63) = 0xBE5D5553 := by decide +kernel
  have hrun4 : crcFrom 0xBE5D5553 (zeros 63) = 0x7065399A := by decide +kernel
  have hsplit : zeros 252 = zeros 63 ++ zeros 63 ++ zeros 63 ++ zeros 63 := by
    simp only [zeros, List.replicate_append_replicate, Nat.reduceAdd]
  rw [crcRegister, hsplit, crcFrom_append, crcFrom_append, crcFrom_append, hrun1, hrun2, hrun3, hrun4]

/-- Settles O31: the byte step is linear in register and byte, and each claim follows from that of the fold. -/
theorem engineIsLinear : Obligations.EngineIsLinear := by
  refine ⟨fun as bs h => ?_, crcFrom_zeros, fun as => ?_, by decide +kernel, by decide +kernel, crcRegister_zeros_cover⟩
  · rw [← crcFrom_xor 0 0 h]
    rfl
  · have hlen : as.length = (zeros as.length).length := (length_zeros _).symm
    rw [crcRegister, crcRegister, ← crcFrom_xor _ _ hlen, xorBytes_zeros,
      show (0 : Word) ^^^ Config.crcInit = Config.crcInit from rfl]

/-! ### The byte step from its table (rule R90) -/

theorem getLsbD_loadWord_top (b : Byte) {j : Nat} (hj : j < 8) : (loadWord b).getLsbD (31 - j) = b.getLsbD (7 - j) := by
  rw [loadWord, BitVec.getLsbD_append, if_neg (by omega), show 31 - j - 24 = 7 - j by omega]

/-- A byte that the bit steps shift in counts only as it stands in the register's top byte. -/
theorem stepByte_eq_bitSteps (r : Word) (b : Byte) : stepByte r b = bitSteps 8 (r ^^^ loadWord b) 0 := by
  rw [stepByte, bitSteps_eq_xor]
  show _ ^^^ loadWord b <<< 8 = _
  rw [loadWord_shifted_out, word_xor_zero]
  rfl

/-- The closed form of rule R90: the register's low bytes are shifted, its top byte and the input byte select the
table's entry. -/
theorem stepByte_eq_table (r : Word) (b : Byte) :
    stepByte r b = (r <<< 8) ^^^ tableEntry (r.extractLsb' 24 8 ^^^ b) := by
  have htop : ∀ j < 8, (r ^^^ loadWord (r.extractLsb' 24 8)).getLsbD (31 - j) = false := by
    intro j hj
    rw [BitVec.getLsbD_xor, getLsbD_loadWord_top _ hj, BitVec.getLsbD_extractLsb', show 24 + (7 - j) = 31 - j by omega]
    simp [show 7 - j < 8 by omega]
  have hlow : bitSteps 8 (r ^^^ loadWord (r.extractLsb' 24 8)) 0 = r <<< 8 := by
    rw [bitSteps_of_top_zero htop, BitVec.shiftLeft_xor_distrib, loadWord_shifted_out, word_xor_zero]
  have hsplit : r ^^^ loadWord b =
      (r ^^^ loadWord (r.extractLsb' 24 8)) ^^^ loadWord (r.extractLsb' 24 8 ^^^ b) := by
    rw [loadWord_xor, BitVec.xor_assoc, ← BitVec.xor_assoc (loadWord _), BitVec.xor_self]
    simp
  calc stepByte r b
      = bitSteps 8 ((r ^^^ loadWord (r.extractLsb' 24 8)) ^^^ loadWord (r.extractLsb' 24 8 ^^^ b)) (0 ^^^ 0) := by
        rw [stepByte_eq_bitSteps, hsplit]
        rfl
    _ = (r <<< 8) ^^^ tableEntry (r.extractLsb' 24 8 ^^^ b) := by
        rw [bitSteps_xor, hlow]
        rfl

theorem exec_crcByte (b : Byte) (s : State) :
    exec (.crcByte b) s = .next { s with r := stepByte s.r b, n := 0, w := 0 } := by
  rw [← engineByte_eq]
  rfl

/-- Settles O22: the meaning of CRC.BYTE, the closed form, and seven entries computed. -/
theorem crcByteHasATableForm : Obligations.CrcByteHasATableForm := by
  refine ⟨fun x s => ⟨_, exec_crcByte _ _, ?_⟩, fun b s => ⟨_, exec_crcByte _ _, stepByte_eq_table _ _⟩,
    by decide, by decide, by decide, by decide, by decide, by decide, by decide⟩
  show stepByte (x.setWidth 32 <<< 24) 0 = tableEntry x
  rw [← loadWord_eq_shift, stepByte_eq_bitSteps, show loadWord 0 = 0 from rfl, word_xor_zero]
  rfl

/-! ### The residue (rule R91) -/

/-- The byte that equals the register's top byte only shifts the register. -/
theorem stepByte_top (r : Word) : stepByte r (r.extractLsb' 24 8) = r <<< 8 := by
  have hzero : tableEntry 0#8 = 0 := by decide
  rw [stepByte_eq_table, BitVec.xor_self, hzero, word_xor_zero]

theorem extractLsb'_shiftLeft_top (r : Word) {k : Nat} (hk : k ≤ 24) :
    (r <<< k).extractLsb' 24 8 = r.extractLsb' (24 - k) 8 := by
  apply BitVec.eq_of_getLsbD_eq
  intro j hj
  rw [BitVec.getLsbD_extractLsb', BitVec.getLsbD_extractLsb', BitVec.getLsbD_shiftLeft]
  simp [show 24 + j < 32 by omega, show ¬ 24 + j < k by omega, show 24 + j - k = 24 - k + j by omega]

/-- The engine run over its own register, most significant byte first, shifts the whole register out. -/
theorem crcFrom_be32 (r : Word) : crcFrom r (be32 r) = 0 := by
  have hshift : ∀ k ≤ 24, stepByte (r <<< k) (r.extractLsb' (24 - k) 8) = r <<< (k + 8) := by
    intro k hk
    rw [← extractLsb'_shiftLeft_top r hk, stepByte_top, BitVec.shiftLeft_add]
  have h0 := hshift 0 (by decide)
  rw [BitVec.shiftLeft_zero] at h0
  have hout : r <<< 32 = 0 := BitVec.shiftLeft_eq_zero (le_refl 32)
  show stepByte (stepByte (stepByte (stepByte r (r.extractLsb' 24 8)) (r.extractLsb' 16 8)) (r.extractLsb' 8 8))
    (r.extractLsb' 0 8) = 0
  rw [h0, hshift 8 (by decide), hshift 16 (by decide), hshift 24 (by decide), hout]

theorem crcRegister_residue (d : List Byte) : crcRegister (d ++ be32 (crcRegister d)) = 0 := by
  rw [crcRegister, crcFrom_append]
  exact crcFrom_be32 _

/-! ### The expansions into micro-operations (rule R74) -/

theorem performAll_append {is js : List Instr} {s t : State} (h : performAll is s = .next t) :
    performAll (is ++ js) s = performAll js t := by
  induction is generalizing s with
  | nil =>
    cases h
    rfl
  | cons i is ih =>
    simp only [List.cons_append, performAll] at h ⊢
    cases hi : exec i s <;> simp only [hi] at h ⊢
    case next u => exact ih h
    all_goals cases h

theorem performAll_singleton {i : Instr} {s t : State} (h : exec i s = .next t) : performAll [i] s = .next t := by
  simp only [performAll, h]

theorem performAll_cons {i : Instr} {is : List Instr} {s t : State} (h : exec i s = .next t) :
    performAll (i :: is) s = performAll is t := performAll_append (performAll_singleton h)

theorem performAll_crcBits {k : Nat} {s : State} (h : k ≤ s.n.toNat) :
    performAll (List.replicate k .crcBit) s = .next (engineBits k s) := by
  induction k generalizing s with
  | zero => rfl
  | succ k ih =>
    have h0 : s.n ≠ 0 := by
      rintro h0
      rw [h0] at h
      exact absurd h (by simp)
    rw [List.replicate_succ, performAll_cons (exec_crcBit_of_bits_left h0)]
    exact ih (by rw [engineBit_n, toNat_sub_one h0]; omega)

theorem performAll_byteOps (b : Byte) (s : State) : performAll (byteOps b) s = .next (engineByte b s) := by
  rw [byteOps, performAll_cons (exec_crcLoad b s)]
  exact performAll_crcBits (le_refl 8)

/-- Settles O21: one CRC.LOAD and eight CRC.BIT, which is how the composite is defined. -/
theorem crcByteIsItsExpansion : Obligations.CrcByteIsItsExpansion := by
  intro b s
  refine ⟨engineByte b s, rfl, performAll_byteOps b s, ?_⟩
  rw [engineByte_eq]
  exact ⟨rfl, rfl, rfl⟩

/-- The bytes' expansions one after the other: the fold, with `N` and `W` at 0 after the first byte. -/
theorem performAll_flatMap_byteOps (bs : List Byte) (s : State) :
    performAll (bs.flatMap byteOps) s =
      .next { s with r := crcFrom s.r bs, n := if bs = [] then s.n else 0, w := if bs = [] then s.w else 0 } := by
  induction bs generalizing s with
  | nil => rfl
  | cons b bs ih =>
    rw [List.flatMap_cons, performAll_append (performAll_byteOps b s), ih, engineByte_eq]
    simp

theorem length_runOps (bs : List Byte) : (runOps bs).length = 9 * bs.length + 2 := by
  have hbyte : ∀ b, (byteOps b).length = 9 := fun _ => rfl
  simp only [runOps, List.length_cons, List.length_append, List.length_flatMap, hbyte, List.map_const',
    List.sum_replicate, List.length_nil, smul_eq_mul]
  omega

/-- The state the expansion of CRC.RUN leaves differs from that of CRC.RUN in `I` and the answers used alone. -/
theorem performAll_runOps (bs : List Byte) (s : State) : ∃ u, performAll (runOps bs) s = .next u ∧
    ranState bs s = { u with i := bs.length, ioDraws := s.ioDraws.drop bs.length } := by
  refine ⟨_, (performAll_cons (exec_crcSeed s)).trans ((performAll_append (performAll_flatMap_byteOps bs _)).trans
    (performAll_singleton (exec_crcSer _))), ?_⟩
  simp [ranState, fedState, engineSer, engineSeed]

/-! ### CRC.RUN -/

theorem exec_crcRun (s : State) : exec .crcRun s = crcRunThen .next s := rfl

theorem exec_crcRun_of_noFailure {s : State} {bs : List Byte} (hb : s.runBytes = some bs)
    (hn : NoFailure s bs.length) : exec .crcRun s = .next (ranState bs s) := crcRunThen_going hb hn

/-- Settles O24: CRC.RUN and its expansion both leave the fold over the range. -/
theorem crcRunFoldsTheRange : Obligations.CrcRunFoldsTheRange := by
  intro s bs hb hn
  obtain ⟨u, hu, heq⟩ := performAll_runOps bs s
  exact ⟨_, u, exec_crcRun_of_noFailure hb hn, hu, rfl, rfl, heq, length_runOps bs⟩

/-- Settles O25: such a range is no slice of its buffer. -/
theorem crcRunStaysInItsBuffer : Obligations.CrcRunStaysInItsBuffer := by
  intro s hout
  have hnone : s.runBytes = none := if_neg (Nat.not_le.mpr hout)
  simp only [exec_crcRun, crcRunThen, hnone]

/-- CRC.RUN where read `m` is the first that fails (rules R84, R141). -/
theorem exec_crcRun_of_first_failure {s : State} {bs : List Byte} {m : Nat} (hb : s.runBytes = some bs)
    (hm : m < bs.length) (hn : NoFailure s m) (hf : ((s.ioDraws.drop m).headD false && Config.ioCanFail) = true) :
    exec .crcRun s = .next (takeFault (.ioFailure s.run.buf .read)
      (fedState (bs.take m) { engineSeed s with i := 0 }).afterAccess) := by
  rw [exec_crcRun]
  rcases crcRunThen_cases .next s with ⟨hnone, _⟩ | ⟨bs', hb', hn', _⟩ | ⟨bs', m', hb', hm', hn', hf', he⟩
  · cases hb.symm.trans hnone
  · obtain rfl : bs = bs' := Option.some.inj (hb.symm.trans hb')
    exact absurd (hn'.le_of_fails hf) (Nat.not_le.mpr hm)
  · obtain rfl : bs = bs' := Option.some.inj (hb.symm.trans hb')
    have hlen : (bs.take m').length = m' := List.length_take_of_le (le_of_lt hm')
    have hf'' : ((s.ioDraws.drop m').headD false && Config.ioCanFail) = true := by
      simpa [State.accessFails, fedState, hlen] using hf'
    obtain rfl : m' = m := le_antisymm (hn'.le_of_fails hf) (hn.le_of_fails hf'')
    exact he

/-- An answer "fails" counts where the platform's buffers can fail (rule R141). -/
theorem fails_of_answer {s : State} {m : Nat} (hat : s.ioDraws[m]? = some true) (hio : Config.ioCanFail = true) :
    ((s.ioDraws.drop m).headD false && Config.ioCanFail) = true := by
  simp [List.headD_eq_head?_getD, List.head?_drop, hat, hio]

/-- The fault of a failing read takes the operands of an operation in progress, and no other. -/
theorem crcRun_fault_operandsAfter (f : OpFault) (bs : List Byte) (s : State) :
    OperandsAfter s.op s (takeFault f (fedState bs { engineSeed s with i := 0 }).afterAccess) :=
  finish_operandsAfter (.fault f) (fedState bs { engineSeed s with i := 0 }).afterAccess

/-- Settles O26: where buffers can fail, the fault taken at read `m`; where they cannot, the run to the end. -/
theorem crcRunFailsAtTheFirstFailingRead : Obligations.CrcRunFailsAtTheFirstFailingRead := by
  intro s bs m hb hm hbefore hat
  cases hio : Config.ioCanFail with
  | true =>
    have hexec := exec_crcRun_of_first_failure hb hm (noFailure_of_answers_false hbefore) (fails_of_answer hat hio)
    refine ⟨_, hexec, rfl, rfl, rfl,
      fun _ => ⟨⟨rfl, rfl, rfl, rfl⟩, crcRun_fault_operandsAfter _ _ _, fun ho => ?_, ?_⟩, nofun⟩
    · refine finish_keepsOperands _ fun x => ?_
      show s.op.uses x = false
      rw [ho]
      rfl
    · have hlen : (bs.take m).length = m := List.length_take_of_le (le_of_lt hm)
      rw [takeFault, finish_ioDraws, afterAccess_ioDraws]
      simp [fedState, hlen]
  | false =>
    exact ⟨_, exec_crcRun_of_noFailure hb (noFailure_of_reliable s _ hio), rfl, rfl, rfl, nofun,
      fun _ => ⟨rfl, rfl, rfl, rfl, rfl, rfl, rfl, rfl⟩⟩

end Sys2Proof.Machine
end

section
/-! The four host operations as functions of the state they are presented in (rules R12, R28): which result each
delivers, how many answers of the buffers it uses up, and what it leaves in the buffers. Every host operation is
the end of its operation on these; the statements about results, operands and frames follow from that. -/

namespace Sys2Proof.Machine

/-! ### The first access that fails (rule R141) -/

/-- Which of the coming `k` accesses to host buffers is the first that fails. -/
def firstFailure (s : State) (k : Nat) : Option Nat := (s.ioDraws.take k).findIdx? (· && Config.ioCanFail)

theorem firstFailure_eq_none {s : State} {k : Nat} : firstFailure s k = none ↔ NoFailure s k :=
  List.findIdx?_eq_none_iff

theorem firstFailure_spec {s : State} {k m : Nat} (h : firstFailure s k = some m) :
    m < k ∧ NoFailure s m ∧ ((s.ioDraws.drop m).headD false && Config.ioCanFail) = true := by
  obtain ⟨hlt, hfails, hbefore⟩ := List.findIdx?_eq_some_iff_getElem.mp h
  rw [List.length_take, lt_min_iff] at hlt
  obtain ⟨hk, hm⟩ := hlt
  refine ⟨hk, fun d hd => ?_, ?_⟩
  · obtain ⟨j, hj, rfl⟩ := List.getElem_of_mem hd
    have hjm : j < m := by
      rw [List.length_take] at hj
      omega
    simpa using hbefore j hjm
  · simpa [List.headD_eq_head?_getD, List.head?_drop, hm] using hfails

theorem firstFailure_eq_some {s : State} {k m : Nat} (hm : m < k) (hn : NoFailure s m)
    (hf : ((s.ioDraws.drop m).headD false && Config.ioCanFail) = true) : firstFailure s k = some m := by
  cases h : firstFailure s k with
  | none => exact absurd ((firstFailure_eq_none.mp h).le_of_fails hf) (Nat.not_le.mpr hm)
  | some m' =>
    obtain ⟨_, hn', hf'⟩ := firstFailure_spec h
    rw [le_antisymm (hn'.le_of_fails hf) (hn.le_of_fails hf')]

/-- The failure of the statements that speak of the answer to access `m`. -/
theorem firstFailure_of_answer {s : State} {k m : Nat} (hm : m < k) (hbefore : ∀ d ∈ s.ioDraws.take m, d = false)
    (hat : s.ioDraws[m]? = some true) (hio : Config.ioCanFail = true) : firstFailure s k = some m :=
  firstFailure_eq_some hm (noFailure_of_answers_false hbefore) (fails_of_answer hat hio)

/-- How many answers an operation of `k` accesses uses up: all of them, or those up to the first failure. -/
def drawsUsed (s : State) (k : Nat) : Nat :=
  match firstFailure s k with
  | none => k
  | some m => m + 1

/-! ### The end of each host operation -/

/-- What ASSEMBLE has staged when its loop is through (rule R127). -/
def stagedBytes (s : State) : List Byte := (packedState (blockCount s.src.len) (assembleStart s)).stage

/-- The result a host operation delivers (rules R85, R99, R110, R127, R138). -/
def hostResult (i : Instr) (s : State) : OpResult :=
  match i with
  | .crc =>
    match firstFailure s s.src.len with
    | none => .ok (.checksum (checksum s.src.bytes))
    | some _ => .fault (.ioFailure .src .read)
  | .patch =>
    if s.art.len < 256 then .fault (.bootImageTooShort s.art.len)
    else
      match firstFailure s 253 with
      | none => .ok .noValue
      | some m => .fault (.ioFailure .art (if m = 252 then .write else .read))
  | .encblk => if s.clen ≤ 256 then .ok (.block (packBlock s).blk) else .fault (.chunkTooLarge s.clen)
  | .assemble =>
    if rangeOverflows s.base s.src.len then .fault (.rangeOverflow s.base s.src.len)
    else
      match firstFailure s (blockCount s.src.len + 1) with
      | none => .ok .noValue
      | some m => .fault (if m = blockCount s.src.len then .ioFailure .dst .write else .ioFailure .src .read)
  | .crcSeed | .crcLoad _ | .crcBit | .crcByte _ | .crcSer | .crcRun => s.result

/-- The answers of the buffers a host operation uses up (log entry 4). -/
def hostDraws (i : Instr) (s : State) : Nat :=
  match i with
  | .crc => drawsUsed s s.src.len
  | .patch => if s.art.len < 256 then 0 else drawsUsed s 253
  | .assemble => if rangeOverflows s.base s.src.len then 0 else drawsUsed s (blockCount s.src.len + 1)
  | .encblk | .crcSeed | .crcLoad _ | .crcBit | .crcByte _ | .crcSer | .crcRun => 0

/-- The state a host operation ends from, as far as its end leaves it: its answers used up, and on `ok` its output
in `ART` or `DST` (rules R97, R134). -/
def beforeEnd (i : Instr) (s : State) : State :=
  { s with
    op := operationOf i
    ioDraws := s.ioDraws.drop (hostDraws i s)
    art := if i = .patch ∧ hostResult i s = .ok .noValue then
        s.art.write 252 (checksum (s.art.bytes.take 252)) else s.art
    dst := if i = .assemble ∧ hostResult i s = .ok .noValue then Memory.ofBytes (stagedBytes s) else s.dst }

theorem exec_crc (s : State) : exec .crc s = execCrc s := rfl

theorem exec_crc_eq (s : State) : exec .crc s = .next (finish (hostResult .crc s) (beforeEnd .crc s)) := by
  rw [exec_crc]
  rcases execCrc_cases s with ⟨hn, he⟩ | ⟨m, hm, hn, hf, he⟩
  · have hfirst := firstFailure_eq_none.mpr hn
    rw [he]
    simp [hostResult, beforeEnd, hostDraws, drawsUsed, hfirst, complete, finish, operationOf, Operation.runsEngine]
  · have hfirst := firstFailure_eq_some hm hn hf
    rw [he]
    simp [hostResult, beforeEnd, hostDraws, drawsUsed, hfirst, takeFault, finish, operationOf, Operation.runsEngine]

theorem exec_patch_eq (s : State) : exec .patch s = .next (finish (hostResult .patch s) (beforeEnd .patch s)) := by
  by_cases hlen : s.art.len < 256
  · rw [exec_patch_of_short hlen]
    simp [hostResult, beforeEnd, hostDraws, hlen, takeFault, finish, operationOf]
  have hlong : 256 ≤ s.art.len := Nat.not_lt.mp hlen
  cases hfirst : firstFailure s 253 with
  | none =>
    rw [exec_patch_of_noFailure hlong (firstFailure_eq_none.mp hfirst)]
    simp [hostResult, beforeEnd, hostDraws, drawsUsed, hlen, hfirst, complete, finish, operationOf,
      Operation.runsEngine]
  | some m =>
    obtain ⟨hm, hn, hf⟩ := firstFailure_spec hfirst
    rw [exec_patch_of_first_failure hlong (Nat.le_of_lt_succ hm) hn hf]
    simp [hostResult, beforeEnd, hostDraws, drawsUsed, hlen, hfirst, takeFault, finish, operationOf,
      Operation.runsEngine]

theorem exec_encblk_eq (s : State) :
    exec .encblk s = .next (finish (hostResult .encblk s) (beforeEnd .encblk s)) := by
  rw [exec_encblk]
  rcases execEncblk_cases s with ⟨hlong, he⟩ | ⟨hle, he⟩
  · have hnot : ¬ s.clen ≤ 256 := Nat.not_le.mpr hlong
    rw [he]
    simp [hostResult, beforeEnd, hostDraws, hnot, takeFault, operationOf]
  · have hle : s.clen ≤ 256 := hle
    rw [he]
    simp [hostResult, beforeEnd, hostDraws, hle, complete, operationOf]

/-- The loop of ASSEMBLE writes the operands of ENCBLK, the block, `STAGE` and `J`, and uses up one answer for each
chunk (rule R127). -/
theorem packedState_frame (k : Nat) (s : State) : ∃ chunk taddr blkno nblk blk stage j, packedState k s =
    { s with
      chunk := chunk, taddr := taddr, blkno := blkno, nblk := nblk, blk := blk, stage := stage, j := j
      ioDraws := s.ioDraws.drop k } := by
  induction k generalizing s with
  | zero => exact ⟨_, _, _, _, _, _, _, rfl⟩
  | succ k ih =>
    obtain ⟨chunk, taddr, blkno, nblk, blk, stage, j, h⟩ := ih (packChunk s.afterAccess)
    refine ⟨chunk, taddr, blkno, nblk, blk, stage, j, ?_⟩
    rw [packedState, h, packChunk_ioDraws, afterAccess_ioDraws, List.drop_tail]
    rfl

/-- The end of ASSEMBLE keeps no register its loop has written. -/
theorem finish_packedState (res : OpResult) (k : Nat) (draws : List Bool) (m : Memory) (s : State) :
    finish res { packedState k (assembleStart s) with ioDraws := draws, dst := m } =
      finish res { s with op := .assemble, ioDraws := draws, dst := m } := by
  obtain ⟨chunk, taddr, blkno, nblk, blk, stage, j, h⟩ := packedState_frame k (assembleStart s)
  rw [h]
  simp [finish, assembleStart, Operation.uses, Operation.runsEngine]

theorem packedState_afterAccess (k : Nat) (s : State) : (packedState k (assembleStart s)).afterAccess =
    { packedState k (assembleStart s) with ioDraws := s.ioDraws.drop (k + 1), dst := s.dst } := by
  obtain ⟨chunk, taddr, blkno, nblk, blk, stage, j, h⟩ := packedState_frame k (assembleStart s)
  rw [h]
  simp [State.afterAccess, assembleStart]

/-- Whether the access after `k` chunks fails is a matter of the answers alone. -/
theorem packedState_accessFails (k : Nat) (s : State) : (packedState k (assembleStart s)).accessFails =
    ((s.ioDraws.drop k).headD false && Config.ioCanFail) := by
  obtain ⟨chunk, taddr, blkno, nblk, blk, stage, j, h⟩ := packedState_frame k (assembleStart s)
  rw [h]
  rfl

theorem noFailure_last {s : State} {k : Nat} (hn : NoFailure s k)
    (hf : ((s.ioDraws.drop k).headD false && Config.ioCanFail) = false) : NoFailure s (k + 1) := by
  rw [noFailure_iff_forall_lt] at hn ⊢
  intro m hm
  rcases Nat.lt_succ_iff_lt_or_eq.mp hm with hlt | rfl
  · exact hn m hlt
  · exact hf

/-- ASSEMBLE where access `m` is the first that fails: the reads, then the commit (rule R134). -/
theorem exec_assemble_of_first_failure {s : State} {m : Nat} {f : OpFault}
    (hover : rangeOverflows s.base s.src.len = false)
    (hfirst : firstFailure s (blockCount s.src.len + 1) = some m)
    (hf : f = if m = blockCount s.src.len then .ioFailure .dst .write else .ioFailure .src .read)
    (he : execAssemble s = .next (takeFault f (packedState m (assembleStart s)).afterAccess)) :
    execAssemble s = .next (finish (hostResult .assemble s) (beforeEnd .assemble s)) := by
  rw [he, takeFault, packedState_afterAccess, finish_packedState]
  simp [hostResult, beforeEnd, hostDraws, drawsUsed, hover, hfirst, hf, operationOf]

theorem exec_assemble_eq (s : State) :
    exec .assemble s = .next (finish (hostResult .assemble s) (beforeEnd .assemble s)) := by
  rw [exec_assemble]
  rcases execAssemble_cases s with
    ⟨hover, he⟩ | ⟨m, hover, hm, hn, hf, he⟩ | ⟨hover, hn, hf, he⟩ | ⟨hover, hn, hf, he⟩
  · have hstart : assembleStart s =
        { packedState 0 (assembleStart s) with ioDraws := s.ioDraws, dst := s.dst } := rfl
    rw [he, takeFault, hstart, finish_packedState]
    simp [hostResult, beforeEnd, hostDraws, hover, operationOf]
  · rw [packedState_accessFails] at hf
    exact exec_assemble_of_first_failure hover (firstFailure_eq_some (Nat.lt_succ_of_lt hm) hn hf)
      (if_neg (Nat.ne_of_lt hm)).symm he
  · rw [packedState_accessFails] at hf
    exact exec_assemble_of_first_failure hover (firstFailure_eq_some (Nat.lt_succ_self _) hn hf) (if_pos rfl).symm he
  · rw [packedState_accessFails] at hf
    have hfirst := firstFailure_eq_none.mpr (noFailure_last hn hf)
    rw [he, complete, packedState_afterAccess]
    show Host.Outcome.next (finish _ { packedState _ (assembleStart s) with
      ioDraws := s.ioDraws.drop _, dst := Memory.ofBytes (stagedBytes s) }) = _
    rw [finish_packedState]
    simp [hostResult, beforeEnd, hostDraws, drawsUsed, hover, hfirst, operationOf]

/-- Every host operation is the end of its operation, on a result and a state that are functions of the one it was
presented in (rules R12, R28, R147). -/
theorem exec_host_eq {i : Instr} (hi : i.level = .host) (s : State) :
    exec i s = .next (finish (hostResult i s) (beforeEnd i s)) := by
  cases i with
  | crc => exact exec_crc_eq s
  | patch => exact exec_patch_eq s
  | encblk => exact exec_encblk_eq s
  | assemble => exact exec_assemble_eq s
  | crcSeed | crcLoad b | crcBit | crcByte b | crcSer | crcRun => cases hi

/-! ### What every end of a host operation is -/

section

variable {i : Instr} {s t : State}

theorem eq_finish_of_exec_host (hi : i.level = .host) (h : exec i s = .next t) :
    t = finish (hostResult i s) (beforeEnd i s) :=
  Host.Outcome.next.inj (h.symm.trans (exec_host_eq hi s))

theorem result_of_exec_host (hi : i.level = .host) (h : exec i s = .next t) : t.result = hostResult i s := by
  rw [eq_finish_of_exec_host hi h, finish_result]

theorem end_endedWith (i : Instr) (s : State) :
    EndedWith s (finish (hostResult i s) (beforeEnd i s)) (hostResult i s) := ⟨rfl, rfl, rfl, rfl⟩

theorem end_operandsAfter (i : Instr) (s : State) :
    OperandsAfter (operationOf i) s (finish (hostResult i s) (beforeEnd i s)) :=
  finish_operandsAfter (hostResult i s) (beforeEnd i s)

theorem end_keepsOperands (h : ∀ x, (operationOf i).uses x = false) :
    KeepsOperands s (finish (hostResult i s) (beforeEnd i s)) :=
  finish_keepsOperands (hostResult i s) (s := beforeEnd i s) h

/-- Nothing is committed but on `ok` (rule R147). -/
theorem beforeEnd_keepsBuffers (h : hostResult i s ≠ .ok .noValue) : KeepsBuffers s (beforeEnd i s) :=
  ⟨if_neg fun hc => h hc.2, rfl, if_neg fun hc => h hc.2⟩

theorem end_art_of_ne_patch (h : i ≠ .patch) : (finish (hostResult i s) (beforeEnd i s)).art = s.art :=
  if_neg fun hc => h hc.1

theorem end_dst_of_ne_assemble (h : i ≠ .assemble) : (finish (hostResult i s) (beforeEnd i s)).dst = s.dst :=
  if_neg fun hc => h hc.1

end

/-! ### What a result depends on (rule R28) -/

theorem firstFailure_congr {s t : State} (h : s.ioDraws = t.ioDraws) (k : Nat) :
    firstFailure s k = firstFailure t k := by
  rw [firstFailure, firstFailure, h]

/-- The result of ENCBLK on a `BLK` of its size: the block of the operands, or `ChunkTooLarge` (rules R109, R110). -/
theorem hostResult_encblk {s : State} (hblk : s.blk.length = Config.uf2BlockLen) : hostResult .encblk s =
    if s.clen ≤ 256 then .ok (.block (uf2Block Config.familyId s.chunk s.taddr s.blkno s.nblk))
    else .fault (.chunkTooLarge s.clen) := by
  simp only [hostResult]
  split
  · next hle => rw [packBlock_blk_eq (le_trans hle (by decide)) hblk]
  · rfl

/-- What ASSEMBLE stages on a `BLK` of its size is the container (rule R127). -/
theorem stagedBytes_eq {s : State} (hblk : s.blk.length = Config.uf2BlockLen) :
    stagedBytes s = container Config.familyId s.base s.src.bytes := by
  obtain ⟨hstage, _⟩ := packedState_stage (blockCount s.src.len) (assembleStart s) hblk rfl
  rw [stagedBytes, hstage, container, Memory.length_bytes]
  simp only [assembleStart, Nat.zero_add]

section

variable {i : Instr} {s t : State} (hs : s.blk.length = Config.uf2BlockLen) (ht : t.blk.length = Config.uf2BlockLen)

include hs ht

theorem hostResult_congr (hi : i.level = .host) (h : SameInputs i s t) : hostResult i s = hostResult i t := by
  cases i with
  | crc =>
    obtain ⟨hsrc, hdraws⟩ := h
    simp only [hostResult, hsrc, firstFailure_congr hdraws]
  | patch =>
    obtain ⟨hart, hdraws⟩ := h
    simp only [hostResult, hart, firstFailure_congr hdraws]
  | encblk =>
    obtain ⟨hchunk, htaddr, hblkno, hnblk⟩ := h
    rw [hostResult_encblk hs, hostResult_encblk ht, State.clen, State.clen, hchunk, htaddr, hblkno, hnblk]
  | assemble =>
    obtain ⟨hsrc, hbase, hdraws⟩ := h
    simp only [hostResult, hsrc, hbase, firstFailure_congr hdraws]
  | crcSeed | crcLoad b | crcBit | crcByte b | crcSer | crcRun => cases hi

/-- The outputs of a host operation are functions of the inputs that rule R67 lists for it. -/
theorem sameOutputs_of_sameInputs (hi : i.level = .host) (h : SameInputs i s t) :
    SameOutputs i (finish (hostResult i s) (beforeEnd i s)) (finish (hostResult i t) (beforeEnd i t)) := by
  have hres := hostResult_congr hs ht hi h
  refine ⟨hres, ?_, ?_⟩
  · rintro rfl
    obtain ⟨hart, _⟩ := h
    simp only [finish_art, beforeEnd, hres, hart]
  · rintro rfl hok
    obtain ⟨hsrc, hbase, _⟩ := h
    have hokS : hostResult .assemble s = .ok .noValue := hok
    have hokT : hostResult .assemble t = .ok .noValue := hres ▸ hokS
    simp only [finish_dst, beforeEnd, hokS, hokT, stagedBytes_eq hs, stagedBytes_eq ht, hsrc, hbase, and_self,
      if_true]

end

/-! ### The marks of the host's writes are read by no operation (log entry 6) -/

theorem packedState_written (k : Nat) (s : State) (m : Written) :
    packedState k { s with written := m } = { packedState k s with written := m } := by
  induction k generalizing s with
  | zero => rfl
  | succ k ih => exact ih (packChunk s.afterAccess)

theorem finish_withWritten (res : OpResult) (s : State) (m : Written) :
    finish res { s with written := m } = { finish res s with written := m } := by
  simp only [finish]

theorem hostResult_written (i : Instr) (s : State) (m : Written) :
    hostResult i { s with written := m } = hostResult i s := by
  cases i <;> rfl

theorem beforeEnd_written (i : Instr) (s : State) (m : Written) :
    beforeEnd i { s with written := m } = { beforeEnd i s with written := m } := by
  have hstaged : stagedBytes { s with written := m } = stagedBytes s :=
    (congrArg State.stage (packedState_written (blockCount s.src.len) (assembleStart s) m) :)
  have hdraws : hostDraws i { s with written := m } = hostDraws i s := by cases i <;> rfl
  simp only [beforeEnd, hostResult_written, hstaged, hdraws]

/-! ### The statements -/

/-- Settles O13: both states end, on results and buffers that agree. -/
theorem resultDependsOnInputsAlone : Obligations.ResultDependsOnInputsAlone := by
  intro i s t hi hsame hs ht
  exact ⟨_, _, exec_host_eq hi s, exec_host_eq hi t, sameOutputs_of_sameInputs hs ht hi hsame⟩

/-- Settles O14: an end takes the operands of its operation for free values of the counter, and leaves a core on
which every host operation ends again. -/
theorem operandsLastForOneOperation : Obligations.OperandsLastForOneOperation := by
  refine ⟨fun i s t hi h => ?_, fun i s s' t t' x hi hc h h' hx => ?_, fun _ _ _ t _ hk _ => execHost_answers t hk,
    fun s t h => ?_⟩
  · rw [eq_finish_of_exec_host hi h]
    exact end_operandsAfter i s
  · rw [eq_finish_of_exec_host hi h, eq_finish_of_exec_host hi h']
    exact finish_sameOperand _ _ (s := beforeEnd i s) (t := beforeEnd i s') rfl hc hx
  · have hblk : t.blk.length = Config.uf2BlockLen := by
      rw [eq_finish_of_exec_host rfl h, finish_blk, length_freeBytes]
    exact ⟨_, exec_encblk_eq t, hostResult_encblk hblk⟩

/-- Settles O16: a host operation always ends, and commits only with `ok`. -/
theorem faultCommitsNothing : Obligations.FaultCommitsNothing := by
  intro i s hi
  rw [exec_host_eq hi s]
  refine ⟨nofun, nofun, fun t ht => ?_⟩
  cases ht
  refine ⟨rfl, rfl, fun f hf => ?_⟩
  have hfault : hostResult i s ≠ .ok .noValue := by
    rw [show hostResult i s = .fault f from hf]
    nofun
  obtain ⟨hart, hsrc, hdst⟩ := beforeEnd_keepsBuffers hfault
  exact ⟨hart, hdst, hsrc⟩

theorem hostResult_assemble_of_overflow {s : State} (h : rangeOverflows s.base s.src.len = true) :
    hostResult .assemble s = .fault (.rangeOverflow s.base s.src.len) := by
  rw [hostResult, if_pos h]

/-- Settles O42: the ends of ENCBLK and ASSEMBLE speak of what the operand registers hold, and of no mark. -/
theorem operandsNeverWrittenAreReadAsTheyStand : Obligations.OperandsNeverWrittenAreReadAsTheyStand := by
  refine ⟨fun s hblk => ⟨_, exec_encblk_eq s, hostResult_encblk hblk⟩,
    fun s => ⟨_, exec_assemble_eq s, fun hover => hostResult_assemble_of_overflow hover⟩,
    fun i s m hi => ⟨_, exec_host_eq hi s, ?_⟩, fun s c i rest ho hin hdec _ => ?_⟩
  · rw [exec_host_eq hi, hostResult_written, beforeEnd_written, finish_withWritten]
  · have hi : i.level = .host := decodeCommand_level hdec
    rw [step_present_of_idle hin ho, runCommand_of_op hdec, exec_host_eq hi]
    exact ⟨_, rfl, rfl, rfl, end_operandsAfter i { s with inputs := rest }⟩

end Sys2Proof.Machine
end

section
/-! CRC and PATCH (spec/40_crc_engine.md section 3, spec/41_boot_image_patcher.md): their results with and without a
failing access, and what a patched artifact holds; then the statements. -/

namespace Sys2Proof.Machine

/-! ### CRC -/

theorem hostResult_crc_of_noFailure {s : State} (h : NoFailure s s.src.len) :
    hostResult .crc s = .ok (.checksum (checksum s.src.bytes)) := by
  simp only [hostResult, firstFailure_eq_none.mpr h]

/-- Settles O27: the end of CRC where no read fails. -/
theorem crcReturnsTheChecksum : Obligations.CrcReturnsTheChecksum := by
  intro s hn
  refine ⟨_, exec_crc_eq s, ?_, end_keepsOperands fun _ => rfl, end_art_of_ne_patch nofun, rfl,
    end_dst_of_ne_assemble nofun, ?_⟩
  · rw [← checksum_eq_foldl, ← hostResult_crc_of_noFailure hn]
    exact end_endedWith .crc s
  · simp only [finish_ioDraws, beforeEnd, hostDraws, drawsUsed, firstFailure_eq_none.mpr hn]

/-- Settles O29: where buffers can fail read `m` is the first failing access; where they cannot, none fails. -/
theorem crcFailsAtTheFirstFailingRead : Obligations.CrcFailsAtTheFirstFailingRead := by
  intro s m hm hbefore hat
  refine ⟨_, exec_crc_eq s, end_keepsOperands fun _ => rfl, end_art_of_ne_patch nofun, rfl,
    end_dst_of_ne_assemble nofun, fun hio => ?_, fun hio => ?_⟩
  · have hres : hostResult .crc s = .fault (.ioFailure .src .read) := by
      simp only [hostResult, firstFailure_of_answer hm hbefore hat hio]
    rw [hres]
    exact ⟨⟨rfl, rfl, rfl, rfl⟩, rfl⟩
  · rw [← hostResult_crc_of_noFailure (noFailure_of_reliable s _ hio)]
    exact end_endedWith .crc s

/-- Settles O30: the register over such a sequence is shifted out, and zero is stored as four zero bytes. -/
theorem residueIsZeroInBigEndianOrder : Obligations.ResidueIsZeroInBigEndianOrder := by
  refine ⟨fun s d hsrc hn => ⟨_, exec_crc_eq s, ?_⟩, crcRegister_residue, by decide +kernel⟩
  rw [finish_result, hostResult_crc_of_noFailure hn, hsrc, checksum, crcRegister_residue]
  rfl

/-! ### PATCH -/

/-- PATCH that ended in `ok` had an artifact of at least 256 bytes, and wrote the checksum (rules R97, R100). -/
theorem art_of_exec_patch_ok {s t : State} (h : exec .patch s = .next t) (hres : t.result = .ok .noValue) :
    256 ≤ s.art.len ∧ t.art = s.art.write 252 (checksum (s.art.bytes.take 252)) := by
  have hok : hostResult .patch s = .ok .noValue := by rw [← result_of_exec_host rfl h, hres]
  refine ⟨?_, ?_⟩
  · by_contra hshort
    rw [hostResult, if_pos (Nat.not_le.mp hshort)] at hok
    cases hok
  · rw [eq_finish_of_exec_host rfl h, finish_art, beforeEnd]
    exact if_pos ⟨rfl, hok⟩

/-- PATCH returns `ok` with no value, or a fault (rule R67). -/
theorem hostResult_patch_cases (s : State) :
    hostResult .patch s = .ok .noValue ∨ ∃ f, hostResult .patch s = .fault f := by
  simp only [hostResult]
  split
  · exact .inr ⟨_, rfl⟩
  · split
    · exact .inl rfl
    · exact .inr ⟨_, rfl⟩

/-- What PATCH reads is not what it writes (rule R99). -/
theorem take_bytes_write_checksum {m : Memory} (hlen : 256 ≤ m.len) (bs : List Byte) :
    (m.write 252 (checksum bs)).bytes.take 252 = m.bytes.take 252 := by
  have hfit : 252 + (checksum bs).length ≤ m.len := hlen
  have hpre : (m.bytes.take 252).length = 252 := by
    rw [List.length_take, Memory.length_bytes]
    omega
  rw [Memory.bytes_write hfit, splice, List.append_assoc, List.take_left' hpre]

/-- To write the same bytes at the same place again changes nothing. -/
theorem splice_splice {a : Nat} {bs old : List Byte} (hle : a + bs.length ≤ old.length) :
    splice a bs (splice a bs old) = splice a bs old := by
  have hlen := splice_length hle
  apply List.ext_getElem?
  intro p
  by_cases hp : a ≤ p ∧ p < a + bs.length
  · obtain ⟨hlo, hhi⟩ := hp
    rw [splice_getElem_inside (by omega) hlo hhi, splice_getElem_inside (by omega) hlo hhi]
  · rw [splice_getElem_outside (by omega) (by omega)]

theorem Memory.write_write_same {m : Memory} {a : Nat} {bs : List Byte} (hle : a + bs.length ≤ m.len) :
    (m.write a bs).write a bs = m.write a bs := by
  have hlen : a + bs.length ≤ m.bytes.length := by rwa [Memory.length_bytes]
  rw [Memory.write, if_pos (by rwa [Memory.len_write]), Memory.bytes_write hle, splice_splice hlen, Memory.write,
    if_pos hle]

/-- Settles O36: the checksum written is that of bytes the write leaves alone. -/
theorem patchIsIdempotent : Obligations.PatchIsIdempotent := by
  refine ⟨fun s t u hs hres ht => ?_, fun s s' t t' hsame hs hs' hres hres' => ?_⟩
  · obtain ⟨hlen, hart⟩ := art_of_exec_patch_ok hs hres
    rcases hostResult_patch_cases t with hok | ⟨f, hf⟩
    · obtain ⟨_, hart'⟩ := art_of_exec_patch_ok ht ((result_of_exec_host rfl ht).trans hok)
      rw [hart', hart, take_bytes_write_checksum hlen, Memory.write_write_same (by simpa using hlen)]
    · have hne : hostResult .patch t ≠ .ok .noValue := by
        rw [hf]
        nofun
      obtain ⟨hkeep, _⟩ := beforeEnd_keepsBuffers hne
      rw [eq_finish_of_exec_host rfl ht, finish_art, hkeep]
  · obtain ⟨hlen, hart⟩ := art_of_exec_patch_ok hs hres
    obtain ⟨hlen', hart'⟩ := art_of_exec_patch_ok hs' hres'
    have hread : ∀ (m : Memory) (bs : List Byte), 256 ≤ m.len →
        (m.write 252 (checksum bs)).slice 252 4 = some (checksum bs) := fun m bs h => Memory.slice_write_same h
    rw [hart, hart', hread _ _ hlen, hread _ _ hlen', hsame]

/-- At the commit of a sequenced PATCH the invariant's `CK` is the checksum of `ART[0,252)` (rules R99, R101). -/
theorem sequencerStep_patch_art {s t : State} (h : Inv s) (ho : s.op = .patch) (hstep : sequencerStep s = .next t) :
    t.art = s.art ∨
      (t.art = s.art.write 252 (checksum (s.art.bytes.take 252)) ∧ t.op = .idle ∧ t.result = .ok .noValue) := by
  by_cases hp : s.phase = .commit
  · obtain ⟨_, hpos⟩ := h.patchPosition ho
    simp only [EnginePosition, hp] at hpos
    rw [sequencerStep_commit_patch hp ho] at hstep
    rcases commitPatch_cases s with ⟨_, hc⟩ | ⟨_, u, hc, rfl⟩ <;> rw [hc] at hstep <;> cases hstep
    · exact .inr ⟨by rw [deliverPatch, complete, finish_art, hpos]; rfl, rfl, rfl⟩
    · exact .inl rfl
  · obtain ⟨hart, _⟩ := sequencerStep_keepsBuffers hstep hp
    exact .inl hart

/-- Settles O35: the ends of PATCH, and the commit of the sequencer. -/
theorem patchCommitsWholeOrNotAtAll : Obligations.PatchCommitsWholeOrNotAtAll := by
  refine ⟨fun s t h => ?_, fun s t h ho hstep => ?_⟩
  · have hres := result_of_exec_host rfl h
    rcases hostResult_patch_cases s with hok | ⟨f, hf⟩
    · obtain ⟨_, hart⟩ := art_of_exec_patch_ok h (hres.trans hok)
      exact .inl ⟨hart, hres.trans hok⟩
    · have hne : hostResult .patch s ≠ .ok .noValue := by
        rw [hf]
        nofun
      obtain ⟨hkeep, _⟩ := beforeEnd_keepsBuffers hne
      exact .inr ⟨by rw [eq_finish_of_exec_host rfl h, finish_art, hkeep], f, hres.trans hf⟩
  · have hbusy : s.op ≠ .idle := by
      rw [ho]
      decide
    obtain ⟨rest, hseq | rfl⟩ := step_move_of_busy hbusy hstep
    · exact sequencerStep_patch_art (s := { s with inputs := rest }) (h.withInputs rest) ho hseq
    · exact .inl (resetCore_art _)

end Sys2Proof.Machine
end

section
/-! ENCBLK and ASSEMBLE (spec/42_uf2_block_formatter.md, spec/43_uf2_file_assembler.md): the fields of a block, the
range of addresses, and the container; then the statements. -/

namespace Sys2Proof.Machine

/-! ### ENCBLK -/

section

variable (family : Word) (chunk : List Byte) (taddr blkno nblk : Word)

theorem field_uf2Block_magicStart0 :
    field (uf2Block family chunk taddr blkno nblk) 0 4 = le32 Config.uf2MagicStart0 := rfl

theorem field_uf2Block_magicStart1 :
    field (uf2Block family chunk taddr blkno nblk) 4 4 = le32 Config.uf2MagicStart1 := rfl

theorem field_uf2Block_flags : field (uf2Block family chunk taddr blkno nblk) 8 4 = le32 Config.uf2Flags := rfl

theorem field_uf2Block_taddr : field (uf2Block family chunk taddr blkno nblk) 12 4 = le32 taddr := rfl

theorem field_uf2Block_blkno : field (uf2Block family chunk taddr blkno nblk) 20 4 = le32 blkno := rfl

theorem field_uf2Block_nblk : field (uf2Block family chunk taddr blkno nblk) 24 4 = le32 nblk := rfl

variable {chunk}

/-- The data region is the chunk, then zeros (rules R110, R114). -/
theorem field_uf2Block_data (h : chunk.length ≤ 476) :
    field (uf2Block family chunk taddr blkno nblk) 32 476 = chunk ++ zeros (476 - chunk.length) := by
  rw [uf2Block, List.append_assoc _ chunk]
  refine field_middle rfl ?_
  simp only [List.length_append, length_zeros, Config.uf2DataLen]
  omega

end

/-- Settles O38: the result of ENCBLK on a chunk that fits, read field by field. -/
theorem encblkReturnsTheRecord : Obligations.EncblkReturnsTheRecord := by
  intro s hclen hblk
  have hres : hostResult .encblk s = .ok (.block (uf2Block Config.familyId s.chunk s.taddr s.blkno s.nblk)) := by
    rw [hostResult_encblk hblk, if_pos hclen]
  have hdata : s.chunk.length ≤ 476 := le_trans hclen (by decide)
  exact ⟨_, _, exec_encblk_eq s, hres ▸ end_endedWith .encblk s, length_uf2Block hdata,
    field_uf2Block_magicStart0 _ _ _ _ _, field_uf2Block_magicStart1 _ _ _ _ _, field_uf2Block_flags _ _ _ _ _,
    field_uf2Block_taddr _ _ _ _ _, field_uf2Block_payloadSize _ _ _ _ _, field_uf2Block_blkno _ _ _ _ _,
    field_uf2Block_nblk _ _ _ _ _, field_uf2Block_family _ _ _ _ _,
    field_uf2Block_data _ _ _ _ hdata, field_uf2Block_endMarker _ _ _ _ hdata, end_operandsAfter .encblk s, rfl,
    end_art_of_ne_patch nofun, rfl, end_dst_of_ne_assemble nofun, rfl⟩

/-- ASSEMBLE packs no chunk longer than 256 bytes and has no row for one in its results (rule R140). -/
theorem hostResult_assemble_ne_chunkTooLarge (s : State) (n : Nat) :
    hostResult .assemble s ≠ .fault (.chunkTooLarge n) := by
  simp only [hostResult]
  split
  · nofun
  · split
    · nofun
    · split <;> nofun

/-- Settles O39: the result of ENCBLK on a long chunk, and the results and chunks of ASSEMBLE. -/
theorem encblkRejectsALongChunk : Obligations.EncblkRejectsALongChunk := by
  refine ⟨fun s hlong => ?_, fun s t n h => ?_, fun s => ?_⟩
  · have hres : hostResult .encblk s = .fault (.chunkTooLarge s.clen) := by
      simp only [hostResult, if_neg (Nat.not_le.mpr hlong)]
    refine ⟨_, exec_encblk_eq s, hres ▸ end_endedWith .encblk s, ?_, end_operandsAfter .encblk s,
      end_art_of_ne_patch nofun, rfl, end_dst_of_ne_assemble nofun, rfl⟩
    rw [finish_result, hres]
    rfl
  · rw [result_of_exec_host rfl h]
    exact hostResult_assemble_ne_chunkTooLarge s n
  · rw [State.clen, packChunk_chunk, length_chunkBytes]
    exact chunkLen_le _ _

/-! ### The range of ASSEMBLE (rules R125, R126) -/

/-- The range check is the one of rule R126, on natural numbers. -/
theorem rangeOverflows_iff {base : Word} {size : Nat} : rangeOverflows base size = true ↔
    (0 < blockCount size ∧ 0xFFFFFFFF < base.toNat + 256 * (blockCount size - 1)) ∨ 0xFFFFFFFF < blockCount size := by
  simp only [rangeOverflows, Bool.or_eq_true, Bool.and_eq_true, decide_eq_true_eq]
  exact or_comm

section

variable {base : Word} {size k : Nat} (h : rangeOverflows base size = false) (hk : k < blockCount size)

include h

theorem blockCount_toNat : (BitVec.ofNat 32 (blockCount size)).toNat = blockCount size := by
  have hfits := mt rangeOverflows_iff.mpr (Bool.eq_false_iff.mp h)
  rw [BitVec.toNat_ofNat]
  omega

include hk

/-- Where the range fits, no address of a block wraps (rule R125). -/
theorem blockAddress_toNat : (blockAddress base k).toNat = base.toNat + 256 * k := by
  have hfits := mt rangeOverflows_iff.mpr (Bool.eq_false_iff.mp h)
  rw [blockAddress, BitVec.toNat_ofNat, Config.uf2ChunkMax]
  omega

theorem blockNumber_toNat : (BitVec.ofNat 32 k).toNat = k := by
  have hfits := mt rangeOverflows_iff.mpr (Bool.eq_false_iff.mp h)
  rw [BitVec.toNat_ofNat]
  omega

end

theorem hostResult_assemble_cases (s : State) :
    (rangeOverflows s.base s.src.len = true ∧
        hostResult .assemble s = .fault (.rangeOverflow s.base s.src.len)) ∨
      (rangeOverflows s.base s.src.len = false ∧ hostResult .assemble s = .ok .noValue) ∨
      (rangeOverflows s.base s.src.len = false ∧ ∃ b a, hostResult .assemble s = .fault (.ioFailure b a)) := by
  cases hover : rangeOverflows s.base s.src.len with
  | true => exact .inl ⟨rfl, hostResult_assemble_of_overflow hover⟩
  | false =>
    right
    simp only [hostResult, hover]
    cases firstFailure s (blockCount s.src.len + 1) with
    | none => exact .inl ⟨trivial, rfl⟩
    | some m =>
      refine .inr ⟨trivial, ?_⟩
      by_cases hm : m = blockCount s.src.len
      · exact ⟨.dst, .write, by simp [hm]⟩
      · exact ⟨.src, .read, by simp [hm]⟩

/-- Settles O46: the range check comes first, and no other end of ASSEMBLE raises its fault. -/
theorem assembleChecksTheRangeFirst : Obligations.AssembleChecksTheRangeFirst := by
  refine ⟨fun s hout => ?_, fun s t b n h hres => ?_⟩
  · have hover : rangeOverflows s.base s.src.len = true := rangeOverflows_iff.mpr hout
    have hfault := hostResult_assemble_of_overflow hover
    have hne : hostResult .assemble s ≠ .ok .noValue := by
      rw [hfault]
      nofun
    obtain ⟨hart, hsrc, hdst⟩ := beforeEnd_keepsBuffers hne
    refine ⟨_, exec_assemble_eq s, hfault ▸ end_endedWith .assemble s, ?_, end_operandsAfter .assemble s, hart, hsrc,
      hdst, ?_⟩
    · rw [finish_result, hfault]
      rfl
    · simp only [finish_ioDraws, beforeEnd, hostDraws, hover, if_true, List.drop_zero]
  · rw [result_of_exec_host rfl h] at hres
    rcases hostResult_assemble_cases s with ⟨hover, _⟩ | ⟨_, hok⟩ | ⟨_, b', a, hio⟩
    · exact rangeOverflows_iff.mp hover
    · cases hok.symm.trans hres
    · cases hio.symm.trans hres

/-! ### The container ASSEMBLE leaves -/

/-- The container in the spelling of rule R127. -/
theorem container_eq_flatMap (family base : Word) (data : List Byte) : container family base data =
    (List.range (blockCount data.length)).flatMap (fun k =>
      uf2Block family (field data (256 * k) 256) (BitVec.ofNat 32 (base.toNat + 256 * k)) (BitVec.ofNat 32 k)
        (BitVec.ofNat 32 (blockCount data.length))) := by
  refine List.flatMap_congr fun k _ => ?_
  rw [containerBlock, chunkBytes_eq_field]
  rfl

theorem hostResult_assemble_ok {s : State} (hover : rangeOverflows s.base s.src.len = false)
    (hn : NoFailure s (blockCount s.src.len + 1)) : hostResult .assemble s = .ok .noValue := by
  simp only [hostResult, hover, firstFailure_eq_none.mpr hn]
  rfl

/-- Settles O43: the end of ASSEMBLE where the range fits and no access fails. -/
theorem assembleReplacesTheContainer : Obligations.AssembleReplacesTheContainer := by
  intro s hover hblk hn
  have hn : NoFailure s (blockCount s.src.len + 1) := hn
  have hres := hostResult_assemble_ok hover hn
  have hexec := exec_assemble_eq s
  refine ⟨_, hexec, hres ▸ end_endedWith .assemble s, ?_, ?_, end_art_of_ne_patch nofun, rfl, rfl,
    end_operandsAfter .assemble s, ?_⟩
  · rw [dst_of_exec_assemble_ok hblk hexec hres, Memory.bytes_ofBytes, container_eq_flatMap, Memory.length_bytes]
    rfl
  · rw [dst_of_exec_assemble_ok hblk hexec hres, Memory.wf_ofBytes]
  · simp only [finish_ioDraws, beforeEnd, hostDraws, drawsUsed, hover, firstFailure_eq_none.mpr hn]
    rfl

/-- Settles O45: where buffers can fail access `m` is the first failing one; where they cannot, none fails. -/
theorem assembleFailsWithTheContainerIntact : Obligations.AssembleFailsWithTheContainerIntact := by
  intro s m hover hm hbefore hat
  refine ⟨_, exec_assemble_eq s, end_art_of_ne_patch nofun, rfl, end_operandsAfter .assemble s, fun hio => ?_,
    fun hio => hostResult_assemble_ok hover (noFailure_of_reliable s _ hio)⟩
  have hfirst : firstFailure s (blockCount s.src.len + 1) = some m :=
    firstFailure_of_answer (Nat.lt_succ_of_le hm) hbefore hat hio
  have hres : hostResult .assemble s =
      .fault (if m = (s.src.len + 255) / 256 then .ioFailure .dst .write else .ioFailure .src .read) := by
    simp only [hostResult, hover, hfirst]
    rfl
  have hne : hostResult .assemble s ≠ .ok .noValue := by
    rw [hres]
    nofun
  obtain ⟨_, _, hdst⟩ := beforeEnd_keepsBuffers hne
  exact ⟨hdst, hres ▸ end_endedWith .assemble s⟩

/-- Settles O48: block `k` of the container read field by field, its numbers exact where the range fits. -/
theorem assembledBlocksHaveTheirFields : Obligations.AssembledBlocksHaveTheirFields := by
  intro s t k hblk h hok hk
  have hres := (result_of_exec_host rfl h).symm.trans hok
  have hover : rangeOverflows s.base s.src.len = false := by
    rcases hostResult_assemble_cases s with ⟨_, hf⟩ | ⟨hover, _⟩ | ⟨hover, _⟩
    · cases hf.symm.trans hres
    · exact hover
    · exact hover
  have hk : k < blockCount s.src.len := hk
  have hlen : (chunkBytes s.src.bytes k).length ≤ 256 := by
    rw [length_chunkBytes]
    exact chunkLen_le _ _
  have hfield : ∀ a m, a + m ≤ 512 → field t.dst.bytes (512 * k + a) m =
      field (containerBlock Config.familyId s.base s.src.bytes k) a m := by
    intro a m ham
    rw [dst_of_exec_assemble_ok hblk h hok, Memory.bytes_ofBytes, container, Memory.length_bytes]
    exact field_containerUpTo _ _ _ hk ham
  refine ⟨hfield 0 4 (by decide), hfield 4 4 (by decide), hfield 8 4 (by decide),
    ⟨_, blockAddress_toNat hover hk, hfield 12 4 (by decide)⟩, hfield 16 4 (by decide),
    ⟨_, blockNumber_toNat hover hk, hfield 20 4 (by decide)⟩, ⟨_, blockCount_toNat hover, ?_⟩,
    hfield 28 4 (by decide), ?_, ?_⟩
  · rw [hfield 24 4 (by decide), containerBlock, Memory.length_bytes, field_uf2Block_nblk]
  · rw [hfield 508 4 (by decide)]
    exact field_uf2Block_endMarker _ _ _ _ (le_trans hlen (by decide))
  · rw [hfield 288 220 (by decide)]
    exact field_uf2Block_beyond_payload _ _ _ _ hlen

/-- Settles O52: the first block's address is `BASE`, which the host's write has set. -/
theorem flashImageStartsAtFlashBase : Obligations.FlashImageStartsAtFlashBase := by
  intro s hpos hover hblk hn
  have hres := hostResult_assemble_ok (s := hostWrite .baseFlash s) hover hn
  have hexec := exec_assemble_eq (hostWrite .baseFlash s)
  have hfirst : 0 < blockCount s.src.len := lt_blockCount_iff.mpr hpos
  refine ⟨_, hexec, hres, ?_⟩
  rw [dst_of_exec_assemble_ok (s := hostWrite .baseFlash s) hblk hexec hres, Memory.bytes_ofBytes, container,
    Memory.length_bytes]
  have hfield := field_containerUpTo Config.familyId (hostWrite .baseFlash s).base s.src.bytes hfirst
    (show 12 + 4 ≤ 512 by decide)
  rw [Nat.mul_zero, Nat.zero_add, containerBlock, field_uf2Block_taddr] at hfield
  refine hfield.trans (congrArg le32 (BitVec.eq_of_toNat_eq ?_))
  exact blockAddress_toNat hover hfirst

/-! ### A sequenced ASSEMBLE -/

/-- Settles O44: the pack step of the sequencer, with the addresses and counts exact as the range fits. -/
theorem assembleWritesTheOperandsOfEachBlock : Obligations.AssembleWritesTheOperandsOfEachBlock := by
  intro s h hin ho hp hf
  have hbusy : s.op ≠ .idle := by
    rw [ho]
    decide
  have hpos := h.assemblePosition ho
  simp only [AssemblePosition, hp] at hpos
  obtain ⟨hv, hj, _⟩ := hpos
  have hover : rangeOverflows s.base s.src.len = false := by
    rcases checkAssemble_cases s with ⟨_, hraise⟩ | ⟨hover, _⟩
    · cases hraise.symm.trans hv
    · exact hover
  refine ⟨_, (step_busy hin hbusy).trans (sequencerStep_pack_assemble hp ho hf), ?_, blockAddress_toNat hover hj,
    blockNumber_toNat hover hj, blockCount_toNat hover, ?_, rfl, rfl, ho, rfl, rfl, rfl, rfl, rfl⟩
  · rw [← Memory.length_bytes s.src]
    rfl
  · exact (packChunk_blk (s := s.afterAccess) h.blkLen).trans (by
      rw [containerBlock, Memory.length_bytes]
      rfl)

/-- At the commit of a sequenced ASSEMBLE the invariant's `STAGE` is the whole container (rules R127, R134). -/
theorem sequencerStep_assemble_dst {s t : State} (h : Inv s) (ho : s.op = .assemble)
    (hstep : sequencerStep s = .next t) :
    t.dst = s.dst ∨
      (t.dst.bytes = container Config.familyId s.base s.src.bytes ∧ t.op = .idle ∧ t.result = .ok .noValue) := by
  by_cases hp : s.phase = .commit
  · have hpos := h.assemblePosition ho
    simp only [AssemblePosition, hp] at hpos
    obtain ⟨_, hst⟩ := hpos
    rw [sequencerStep_commit_assemble hp ho] at hstep
    rcases commitAssemble_cases s with ⟨_, hc⟩ | ⟨_, hc⟩ <;> rw [hc] at hstep <;> cases hstep
    · exact .inr ⟨by rw [deliverAssemble, complete, finish_dst, Memory.bytes_ofBytes, hst], rfl, rfl⟩
    · exact .inl rfl
  · obtain ⟨_, _, hdst⟩ := sequencerStep_keepsBuffers hstep hp
    exact .inl hdst

/-- Settles O51: the ends of ASSEMBLE, and the commit of the sequencer. -/
theorem assembleCommitsWholeOrNotAtAll : Obligations.AssembleCommitsWholeOrNotAtAll := by
  refine ⟨fun s t hblk h => ?_, fun s t h ho hstep => ?_⟩
  · have hres := result_of_exec_host rfl h
    by_cases hok : hostResult .assemble s = .ok .noValue
    · refine .inl ⟨?_, hres.trans hok⟩
      rw [dst_of_exec_assemble_ok hblk h (hres.trans hok), Memory.bytes_ofBytes]
    · obtain ⟨_, _, hdst⟩ := beforeEnd_keepsBuffers hok
      refine .inr ⟨by rw [eq_finish_of_exec_host rfl h, finish_dst, hdst], ?_⟩
      rcases hostResult_assemble_cases s with ⟨_, hf⟩ | ⟨_, hok'⟩ | ⟨_, b, a, hf⟩
      · exact ⟨_, hres.trans hf⟩
      · exact absurd hok' hok
      · exact ⟨_, hres.trans hf⟩
  · have hbusy : s.op ≠ .idle := by
      rw [ho]
      decide
    obtain ⟨rest, hseq | rfl⟩ := step_move_of_busy hbusy hstep
    · exact sequencerStep_assemble_dst (s := { s with inputs := rest }) (h.withInputs rest) ho hseq
    · exact .inl (resetCore_dst _)

end Sys2Proof.Machine
end

section
/-! A sequenced run is the big step (rule R12), and a reset between two operations changes no result (rule R30).
First runs of the machine; then, for each operation, the state the sequencer reaches after the bytes or chunks done
so far, as the state of the big step's loop; then the end of the run; last the statements. -/

namespace Sys2Proof.Machine

/-! ### Runs -/

/-- `k` steps lead from `s` to `t`. -/
def Reaches (k : Nat) (s t : State) : Prop := Host.Core.run Sys2Proof.core k s = .next t

theorem reaches_zero (s : State) : Reaches 0 s s := rfl

theorem reaches_succ {k : Nat} {s t u : State} (h : step s = .next t) (hk : Reaches k t u) : Reaches (k + 1) s u := by
  have hstep : Sys2Proof.core.step s = .next t := h
  simp only [Reaches, Host.Core.run, hstep]
  exact hk

theorem Reaches.trans {j k : Nat} {s t u : State} (h : Reaches j s t) (hk : Reaches k t u) : Reaches (j + k) s u := by
  induction j generalizing s with
  | zero =>
    cases h
    rwa [Nat.zero_add]
  | succ j ih =>
    cases hs : step s with
    | next s' =>
      have hstep : Sys2Proof.core.step s = .next s' := hs
      simp only [Reaches, Host.Core.run, hstep] at h
      rw [Nat.succ_add]
      exact reaches_succ hs (ih h)
    | fault f =>
      have hstep : Sys2Proof.core.step s = .fault f := hs
      simp only [Reaches, Host.Core.run, hstep] at h
      cases h
    | refused why =>
      have hstep : Sys2Proof.core.step s = .refused why := hs
      simp only [Reaches, Host.Core.run, hstep] at h
      cases h

/-- One step of the sequencer on a busy core without inputs. -/
theorem reaches_sequencer {s t : State} (hin : s.inputs = []) (ho : s.op ≠ .idle) (h : sequencerStep s = .next t) :
    Reaches 1 s t :=
  reaches_succ ((step_busy hin ho).trans h) (reaches_zero t)

/-! ### A byte, bit by bit -/

theorem busy_of_runsEngine {s : State} (h : s.op.runsEngine = true) : s.op ≠ .idle := by
  intro ho
  rw [ho] at h
  cases h

/-- The bit steps left of a byte, after which `I` moves on (rules R19, R22). -/
theorem reaches_bits {k : Nat} {s : State} (hin : s.inputs = []) (ho : s.op.runsEngine = true) (hp : s.phase = .bit)
    (hn : s.n.toNat = k + 1) : Reaches (k + 1) s
      { engineBits (k + 1) s with i := s.i + 1, phase := if s.i + 1 < s.run.len then .load else .ser } := by
  induction k generalizing s with
  | zero =>
    have h1 : s.n = 1 := BitVec.eq_of_toNat_eq hn
    exact reaches_sequencer hin (busy_of_runsEngine ho) (sequencerStep_bit_last ho hp h1)
  | succ k ih =>
    have h0 : s.n ≠ 0 := by bv_omega
    have h1 : s.n ≠ 1 := by bv_omega
    refine reaches_succ ((step_busy hin (busy_of_runsEngine ho)).trans (sequencerStep_bit ho hp h0 h1)) ?_
    exact ih (s := engineBit s) hin ho hp (by rw [engineBit_n, toNat_sub_one h0, hn]; rfl)

/-- One byte of the range: its read, CRC.LOAD and eight CRC.BIT are the CRC.BYTE of rule R84's loop. -/
theorem reaches_byte {s : State} {b : Byte} (hin : s.inputs = []) (ho : s.op.runsEngine = true) (hp : s.phase = .load)
    (hb : (s.buffer s.run.buf).read (s.run.off + s.i) = some b) (hf : s.accessFails = false) : Reaches 9 s
      { engineByte b s.afterAccess with i := s.i + 1, phase := if s.i + 1 < s.run.len then .load else .ser } := by
  refine reaches_succ ((step_busy hin (busy_of_runsEngine ho)).trans (sequencerStep_load ho hp hb hf)) ?_
  have hbits := reaches_bits (k := 7) (s := { engineLoad b s.afterAccess with phase := .bit }) hin ho rfl rfl
  rw [engineBits_eq] at hbits
  rw [engineByte, engineBits_eq]
  exact hbits

/-! ### The loop of CRC.RUN -/

/-- The sequencer's state in CRC.RUN over `data` once `m` bytes are done. -/
def sequencedBytes (data : List Byte) (m : Nat) (s : State) : State :=
  { fedState (data.take m) s with phase := if m < data.length then .load else .ser }

theorem fedState_append_singleton (xs : List Byte) (x : Byte) (s : State) : fedState (xs ++ [x]) s =
    { engineByte x (fedState xs s).afterAccess with i := (fedState xs s).i + 1 } := by
  rw [engineByte_eq]
  simp [fedState, State.afterAccess, crcFrom_append, Nat.add_assoc, List.tail_drop]

theorem accessFails_of_noFailure {s : State} {m k : Nat} (hn : NoFailure s k) (hm : m < k) :
    ((s.ioDraws.drop m).headD false && Config.ioCanFail) = false := noFailure_iff_forall_lt.mp hn m hm

theorem NoFailure.mono {s : State} {m k : Nat} (hn : NoFailure s k) (hm : m ≤ k) : NoFailure s m :=
  noFailure_iff_forall_lt.mpr fun _ hj => accessFails_of_noFailure hn (lt_of_lt_of_le hj hm)

theorem fedState_accessFails {data : List Byte} {m : Nat} (hm : m ≤ data.length) (s : State) :
    (fedState (data.take m) s).accessFails = ((s.ioDraws.drop m).headD false && Config.ioCanFail) := by
  rw [State.accessFails, fedState, List.length_take_of_le hm]

section

variable {s : State} {data : List Byte} (hin : s.inputs = []) (ho : s.op.runsEngine = true)
  (hrun : s.runBytes = some data) (hi : s.i = 0)

include hi

theorem sequencedBytes_i {m : Nat} (hm : m ≤ data.length) : (sequencedBytes data m s).i = m := by
  simp only [sequencedBytes, fedState, hi, List.length_take_of_le hm, Nat.zero_add]

include hrun

theorem sequencedBytes_read {m : Nat} (hm : m < data.length) :
    ((sequencedBytes data m s).buffer s.run.buf).read (s.run.off + (sequencedBytes data m s).i) = some data[m] := by
  have hbuf : (sequencedBytes data m s).buffer s.run.buf = s.buffer s.run.buf := by cases s.run.buf <;> rfl
  rw [sequencedBytes_i hi (le_of_lt hm), hbuf, read_of_runBytes hrun hm, List.getElem?_eq_getElem hm]

/-- One byte more in the loop of the big step is one byte more of the sequencer. -/
theorem sequencedBytes_succ {m : Nat} (hm : m < data.length) : sequencedBytes data (m + 1) s =
    { engineByte data[m] (sequencedBytes data m s).afterAccess with
      i := (sequencedBytes data m s).i + 1
      phase := if (sequencedBytes data m s).i + 1 < s.run.len then .load else .ser } := by
  have hlen : data.length = s.run.len := Memory.slice_length hrun
  rw [sequencedBytes_i hi (le_of_lt hm), sequencedBytes, List.take_succ_eq_append_getElem hm, fedState_append_singleton,
    engineByte_eq, engineByte_eq, hlen]
  simp [fedState, hi, List.length_take_of_le (le_of_lt hm), sequencedBytes]

include hin ho

theorem reaches_sequencedBytes {m : Nat} (hm : m ≤ data.length) (hn : NoFailure s m) :
    Reaches (9 * m) (sequencedBytes data 0 s) (sequencedBytes data m s) := by
  induction m with
  | zero => exact reaches_zero _
  | succ m ih =>
    have hlt : m < data.length := hm
    have hf : (sequencedBytes data m s).accessFails = false :=
      (fedState_accessFails (le_of_lt hlt) s).trans (accessFails_of_noFailure hn (Nat.lt_succ_self m))
    have hbyte := reaches_byte (s := sequencedBytes data m s) hin ho (if_pos hlt) (sequencedBytes_read hrun hi hlt) hf
    rw [Nat.mul_succ, sequencedBytes_succ hrun hi hlt]
    exact (ih (le_of_lt hlt) (hn.mono (Nat.le_succ m))).trans hbyte

theorem reaches_seeded (hp : s.phase = .seed) : Reaches 1 s (sequencedBytes data 0 (engineSeed s)) := by
  have hlen : data.length = s.run.len := Memory.slice_length hrun
  have hstart : sequencedBytes data 0 (engineSeed s) = { engineSeed s with phase := afterByte (engineSeed s) } := by
    simp [sequencedBytes, fedState_nil, afterByte, hi, hlen]
  rw [hstart]
  exact reaches_sequencer hin (busy_of_runsEngine ho) (sequencerStep_seed ho hp)

/-- CRC.RUN of the sequencer where no read fails: it reaches the commit with what CRC.RUN leaves (rule R84). -/
theorem reaches_ranState (hp : s.phase = .seed) (hn : NoFailure s data.length) :
    Reaches (9 * data.length + 2) s { ranState data s with phase := .commit } := by
  have hloop := reaches_sequencedBytes (s := engineSeed s) hin ho hrun hi (le_refl data.length)
    ((noFailure_congr rfl _).mp hn)
  have hser := sequencerStep_ser (s := sequencedBytes data data.length (engineSeed s)) ho (if_neg (Nat.lt_irrefl _))
  have hend : { engineSer (sequencedBytes data data.length (engineSeed s)) with phase := .commit } =
      { ranState data s with phase := .commit } := by
    simp [sequencedBytes, ranState, engineSer, engineSeed, fedState, hi]
  rw [show 9 * data.length + 2 = 1 + 9 * data.length + 1 by omega, ← hend]
  exact ((reaches_seeded hin ho hrun hi hp).trans hloop).trans (reaches_sequencer hin (busy_of_runsEngine ho) hser)

/-- CRC.RUN of the sequencer where read `m` is the first that fails (rules R84, R141). -/
theorem reaches_readFailure (hp : s.phase = .seed) {m : Nat} (hm : m < data.length) (hn : NoFailure s m)
    (hf : ((s.ioDraws.drop m).headD false && Config.ioCanFail) = true) : Reaches (9 * m + 2) s
      (takeFault (.ioFailure s.run.buf .read) (sequencedBytes data m (engineSeed s)).afterAccess) := by
  have hloop := reaches_sequencedBytes (s := engineSeed s) hin ho hrun hi (le_of_lt hm) ((noFailure_congr rfl _).mp hn)
  have hfail := sequencerStep_load_fails (s := sequencedBytes data m (engineSeed s)) ho (if_pos hm)
    (sequencedBytes_read (s := engineSeed s) hrun hi hm)
    ((fedState_accessFails (le_of_lt hm) (engineSeed s)).trans hf)
  rw [show 9 * m + 2 = 1 + 9 * m + 1 by omega]
  exact ((reaches_seeded hin ho hrun hi hp).trans hloop).trans (reaches_sequencer hin (busy_of_runsEngine ho) hfail)

end

/-! ### The four operations -/

/-- The sequencer, once it has accepted an operation, ends in the state of the big step, in one step less than the
bound on a presented word. -/
def EndsAsBigStep (i : Instr) (s : State) : Prop :=
  ∃ k t, k + 1 ≤ steppedBound s i ∧ Reaches k (accept i s) t ∧ exec i s = .next t

/-- Where the sequencer's check has set the range of CRC.RUN, CRC and PATCH stand at the seed. -/
def atSeed (i : Instr) (run : RunOperands) (s : State) : State :=
  { accept i s with run := run, phase := .seed }

theorem endsAsBigStep_crc {s : State} (hin : s.inputs = []) : EndsAsBigStep .crc s := by
  have hcheck : Reaches 1 (accept .crc s) (atSeed .crc (crcRange s) s) :=
    reaches_sequencer hin nofun (sequencerStep_check_crc rfl rfl)
  have hrun : (atSeed .crc (crcRange s) s).runBytes = some s.src.bytes := Memory.slice_all s.src
  have hlen := Memory.length_bytes s.src
  rcases execCrc_cases s with ⟨hn, he⟩ | ⟨m, hm, hn, hf, he⟩
  · have hran := reaches_ranState (s := atSeed .crc (crcRange s) s) hin rfl hrun rfl rfl
      ((noFailure_congr rfl _).mp (hlen ▸ hn))
    have hcommit := reaches_sequencer
      (s := { ranState s.src.bytes (atSeed .crc (crcRange s) s) with phase := .commit }) hin nofun
      (sequencerStep_commit_crc rfl rfl)
    refine ⟨_, _, ?_, (hcheck.trans hran).trans hcommit, he.trans (congrArg _ ?_)⟩
    · simp only [steppedBound, hlen]
      omega
    · apply finish_congr
      simp [cleared, ranState, fedState, engineSer, engineSeed, atSeed, operationOf]
  · have hfail := reaches_readFailure (s := atSeed .crc (crcRange s) s) hin rfl hrun rfl rfl (hlen ▸ hm)
      ((noFailure_congr rfl _).mp hn) hf
    refine ⟨_, _, ?_, hcheck.trans hfail, he.trans (congrArg _ ?_)⟩
    · simp only [steppedBound]
      omega
    · apply finish_congr
      have htake : (s.src.bytes.take m).length = m := List.length_take_of_le (le_of_lt (hlen ▸ hm))
      simp [cleared, sequencedBytes, fedState, engineSeed, atSeed, operationOf, State.afterAccess, htake]

/-- PATCH's commit after CRC.RUN, under the sequencer and in the big step alike (rules R99, R104). -/
theorem commitPatch_sequenced {s : State} {data : List Byte} (run : RunOperands) :
    (commitPatch { ranState data (atSeed .patch run s) with phase := .commit }).thenNext deliverPatch =
      .next (if ((s.ioDraws.drop data.length).headD false && Config.ioCanFail) then
          takeFault (.ioFailure .art .write)
            { s with op := .patch, run := patchRange, ioDraws := s.ioDraws.drop (data.length + 1) }
        else complete .noValue
          { s with
            op := .patch
            run := patchRange
            ioDraws := s.ioDraws.drop (data.length + 1)
            art := s.art.write Config.bootCrcOff (checksum data) }) := by
  rcases commitPatch_cases { ranState data (atSeed .patch run s) with phase := .commit } with
    ⟨hf, hc⟩ | ⟨hf, u, hc, rfl⟩
  · have hf : ((s.ioDraws.drop data.length).headD false && Config.ioCanFail) = false := hf
    rw [hc, hf]
    refine congrArg Host.Outcome.next ?_
    simp [deliverPatch, complete, finish, ranState, fedState, engineSer, engineSeed, atSeed, operationOf,
      State.afterAccess, Operation.uses, Operation.runsEngine]
    rfl
  · have hf : ((s.ioDraws.drop data.length).headD false && Config.ioCanFail) = true := hf
    rw [hc, hf]
    refine congrArg Host.Outcome.next ?_
    simp [takeFault, finish, ranState, fedState, engineSer, engineSeed, atSeed, operationOf, State.afterAccess,
      Operation.uses, Operation.runsEngine]

theorem endsAsBigStep_patch {s : State} (hin : s.inputs = []) : EndsAsBigStep .patch s := by
  have hcheckStep := sequencerStep_check_patch (s := accept .patch s) rfl rfl
  rcases checkPatch_cases (accept .patch s) with ⟨hshort, hv⟩ | ⟨hlong, hv⟩
  · rw [hv] at hcheckStep
    have hshort : s.art.len < 256 := hshort
    exact ⟨1, _, (by decide : 2 ≤ 9 * 252 + 5), reaches_sequencer hin nofun hcheckStep,
      (exec_patch_of_short hshort).trans (congrArg _ (finish_congr _ rfl))⟩
  have hlong : 256 ≤ s.art.len := hlong
  rw [hv] at hcheckStep
  have hcheck : Reaches 1 (accept .patch s) (atSeed .patch patchRange s) := reaches_sequencer hin nofun hcheckStep
  have hrun : (atSeed .patch patchRange s).runBytes = some (s.art.bytes.take Config.bootCoverLen) :=
    Memory.slice_first (le_trans (by decide : 252 ≤ 256) hlong)
  have hlen : (s.art.bytes.take Config.bootCoverLen).length = 252 :=
    List.length_take_of_le (by rw [Memory.length_bytes]; exact le_trans (by decide) hlong)
  by_cases hn : NoFailure s 252
  · have hran := reaches_ranState (s := atSeed .patch patchRange s) hin rfl hrun rfl rfl
      ((noFailure_congr rfl _).mp (hlen ▸ hn))
    have hcommit := reaches_sequencer
      (s := { ranState (s.art.bytes.take Config.bootCoverLen) (atSeed .patch patchRange s) with phase := .commit })
      hin nofun ((sequencerStep_commit_patch rfl rfl).trans (commitPatch_sequenced patchRange))
    refine ⟨_, _, ?_, (hcheck.trans hran).trans hcommit, ?_⟩
    · rw [hlen]
      exact le_refl (9 * 252 + 5)
    · rw [hlen]
      split
      · next hf => exact exec_patch_of_first_failure hlong (le_refl 252) hn hf
      · next hf => exact exec_patch_of_noFailure hlong (noFailure_last hn (Bool.eq_false_iff.mpr hf))
  · cases hfirst : firstFailure s 252 with
    | none => exact absurd (firstFailure_eq_none.mp hfirst) hn
    | some m =>
      obtain ⟨hm, hn', hf⟩ := firstFailure_spec hfirst
      have hfail := reaches_readFailure (s := atSeed .patch patchRange s) hin rfl hrun rfl rfl (hlen ▸ hm)
        ((noFailure_congr rfl _).mp hn') hf
      refine ⟨_, _, ?_, hcheck.trans hfail,
        (exec_patch_of_first_failure hlong (le_of_lt hm) hn' hf).trans (congrArg _ ?_)⟩
      · simp only [steppedBound, Config.bootCoverLen]
        omega
      · have htake : ((s.art.bytes.take Config.bootCoverLen).take m).length = m :=
          List.length_take_of_le (by omega)
        rw [if_neg (Nat.ne_of_lt hm)]
        apply finish_congr
        simp [cleared, sequencedBytes, fedState, engineSeed, atSeed, operationOf, State.afterAccess, htake]

theorem endsAsBigStep_encblk {s : State} (hin : s.inputs = []) : EndsAsBigStep .encblk s := by
  have hcheckStep := sequencerStep_check_encblk (s := accept .encblk s) rfl rfl
  rcases execEncblk_cases s with ⟨hlong, he⟩ | ⟨hle, he⟩
  · rw [show checkEncblk (accept .encblk s) = .raise (.chunkTooLarge s.clen) from if_pos hlong] at hcheckStep
    exact ⟨1, _, (by decide : 2 ≤ 4), reaches_sequencer hin nofun hcheckStep,
      he.trans (congrArg _ (finish_congr _ rfl))⟩
  · rw [show checkEncblk (accept .encblk s) = .pass from if_neg (Nat.not_lt.mpr hle)] at hcheckStep
    have hcheck : Reaches 1 (accept .encblk s) { accept .encblk s with phase := .pack } :=
      reaches_sequencer hin nofun hcheckStep
    have hpack := reaches_sequencer (s := { accept .encblk s with phase := .pack }) hin nofun
      (sequencerStep_pack_encblk rfl rfl)
    have hcommit := reaches_sequencer
      (s := { packBlock { accept .encblk s with phase := .pack } with phase := .commit }) hin nofun
      (sequencerStep_commit_encblk rfl rfl)
    exact ⟨3, _, le_refl 4, (hcheck.trans hpack).trans hcommit, he.trans (congrArg _ (finish_congr _ rfl))⟩

/-! ### The loop of ASSEMBLE -/

theorem packedState_succ_last (k : Nat) (s : State) :
    packedState (k + 1) s = packChunk (packedState k s).afterAccess := by
  induction k generalizing s with
  | zero => rfl
  | succ k ih => exact ih (packChunk s.afterAccess)

theorem packedState_j (k : Nat) (s : State) : (packedState k s).j = s.j + k := by
  induction k with
  | zero => rfl
  | succ k ih => rw [packedState_succ_last, packChunk_j, afterAccess_j, ih, Nat.add_assoc]

/-- The sequencer's state in ASSEMBLE once `m` chunks are packed. -/
def sequencedChunks (m : Nat) (s : State) : State :=
  { packedState m (assembleStart s) with
    n := 0, i := 0, phase := if m < blockCount s.src.len then .pack else .commit }

theorem packedState_inputs (k : Nat) (s : State) : (packedState k (assembleStart s)).inputs = s.inputs := by
  obtain ⟨_, _, _, _, _, _, _, h⟩ := packedState_frame k (assembleStart s)
  rw [h]
  rfl

theorem sequencedChunks_op (m : Nat) (s : State) : (sequencedChunks m s).op = .assemble :=
  (packedState_keeps m (assembleStart s)).1

theorem sequencedChunks_busy (m : Nat) (s : State) : (sequencedChunks m s).op ≠ .idle := by
  rw [sequencedChunks_op]
  decide

/-- One pass more of the big step's loop is one pass more of the sequencer. -/
theorem sequencedChunks_succ (m : Nat) (s : State) : sequencedChunks (m + 1) s =
    { packChunk (sequencedChunks m s).afterAccess with
      phase := if (sequencedChunks m s).j + 1 < blockCount (sequencedChunks m s).src.len then .pack else .commit } := by
  have hj : (sequencedChunks m s).j = m := (packedState_j m (assembleStart s)).trans (Nat.zero_add m)
  have hsrc : (sequencedChunks m s).src = s.src := (packedState_keepsBuffers m (assembleStart s)).2.1
  rw [hj, hsrc, sequencedChunks, packedState_succ_last]
  rfl

theorem reaches_sequencedChunks {s : State} (hin : s.inputs = []) {m : Nat} (hm : m ≤ blockCount s.src.len)
    (hn : NoFailure s m) : Reaches m (sequencedChunks 0 s) (sequencedChunks m s) := by
  induction m with
  | zero => exact reaches_zero _
  | succ m ih =>
    have hf : (sequencedChunks m s).accessFails = false :=
      (packedState_accessFails m s).trans (accessFails_of_noFailure hn (Nat.lt_succ_self m))
    have hstep := sequencerStep_pack_assemble (s := sequencedChunks m s) (if_pos hm) (sequencedChunks_op m s) hf
    refine (ih (le_of_lt hm) (hn.mono (Nat.le_succ m))).trans (reaches_sequencer
      ((packedState_inputs m s).trans hin) (sequencedChunks_busy m s) ?_)
    rw [hstep, sequencedChunks_succ]

theorem reaches_firstChunk {s : State} (hin : s.inputs = []) (hover : rangeOverflows s.base s.src.len = false) :
    Reaches 1 (accept .assemble s) (sequencedChunks 0 s) := by
  have hpass : checkAssemble (accept .assemble s) = .pass := if_neg (Bool.eq_false_iff.mp hover)
  refine reaches_sequencer hin nofun ((sequencerStep_check_assemble rfl rfl).trans ?_)
  rw [hpass, sequencedChunks, ← phase_after_check]
  rfl

/-- The commit of ASSEMBLE in one step of the sequencer, with its end (rule R134). -/
theorem sequencerStep_commit_assemble_succeeds {s : State} (hp : s.phase = .commit) (ho : s.op = .assemble)
    (hf : s.accessFails = false) :
    sequencerStep s = .next (complete .noValue { s.afterAccess with dst := Memory.ofBytes s.stage }) := by
  rw [sequencerStep_commit_assemble hp ho, commitAssemble, hf]
  rfl

theorem sequencerStep_commit_assemble_fails {s : State} (hp : s.phase = .commit) (ho : s.op = .assemble)
    (hf : s.accessFails = true) : sequencerStep s = .next (takeFault (.ioFailure .dst .write) s.afterAccess) := by
  rw [sequencerStep_commit_assemble hp ho, commitAssemble, hf]
  rfl

/-- A step of the sequencer that ends ASSEMBLE after `m` chunks as the big step ends. -/
theorem endsAsBigStep_of_sequencedChunks {s t : State} (hin : s.inputs = [])
    (hover : rangeOverflows s.base s.src.len = false) {m : Nat} (hm : m ≤ blockCount s.src.len) (hn : NoFailure s m)
    (hlast : sequencerStep (sequencedChunks m s) = .next t) (he : execAssemble s = .next t) :
    EndsAsBigStep .assemble s := by
  have hchunks := (reaches_firstChunk hin hover).trans (reaches_sequencedChunks hin hm hn)
  have hend := reaches_sequencer (s := sequencedChunks m s) ((packedState_inputs m s).trans hin)
    (sequencedChunks_busy m s) hlast
  refine ⟨_, t, ?_, hchunks.trans hend, he⟩
  simp only [steppedBound]
  omega

theorem endsAsBigStep_assemble {s : State} (hin : s.inputs = []) : EndsAsBigStep .assemble s := by
  rcases execAssemble_cases s with
    ⟨hover, he⟩ | ⟨m, hover, hm, hn, hf, he⟩ | ⟨hover, hn, hf, he⟩ | ⟨hover, hn, hf, he⟩
  · have hraise : checkAssemble (accept .assemble s) = .raise (.rangeOverflow s.base s.src.len) := if_pos hover
    have hcheck := (sequencerStep_check_assemble (s := accept .assemble s) rfl rfl).trans
      (congrArg (Verdict.thenRun · _ _) hraise)
    refine ⟨1, _, ?_, reaches_sequencer hin nofun hcheck, he.trans (congrArg _ (finish_congr _ rfl))⟩
    simp only [steppedBound]
    omega
  · have hlast := sequencerStep_pack_assemble_fails (s := sequencedChunks m s) (if_pos hm) (sequencedChunks_op m s) hf
    exact endsAsBigStep_of_sequencedChunks hin hover (le_of_lt hm) hn hlast
      (he.trans (congrArg _ (finish_congr _ rfl)))
  · have hlast := sequencerStep_commit_assemble_fails (s := sequencedChunks (blockCount s.src.len) s)
      (if_neg (Nat.lt_irrefl _)) (sequencedChunks_op _ s) hf
    exact endsAsBigStep_of_sequencedChunks hin hover (le_refl _) hn hlast
      (he.trans (congrArg _ (finish_congr _ rfl)))
  · have hlast := sequencerStep_commit_assemble_succeeds (s := sequencedChunks (blockCount s.src.len) s)
      (if_neg (Nat.lt_irrefl _)) (sequencedChunks_op _ s) hf
    exact endsAsBigStep_of_sequencedChunks hin hover (le_refl _) hn hlast
      (he.trans (congrArg _ (finish_congr _ rfl)))

theorem endsAsBigStep {i : Instr} (hi : i.level = .host) {s : State} (hin : s.inputs = []) : EndsAsBigStep i s := by
  cases i with
  | crc => exact endsAsBigStep_crc hin
  | patch => exact endsAsBigStep_patch hin
  | encblk => exact endsAsBigStep_encblk hin
  | assemble => exact endsAsBigStep_assemble hin
  | crcSeed | crcLoad b | crcBit | crcByte b | crcSer | crcRun => cases hi

/-- Settles O12: the step that accepts the word, then the sequencer's run. -/
theorem sequencedRunIsTheBigStep : Obligations.SequencedRunIsTheBigStep := by
  intro s c i ho hdec hin
  obtain ⟨k, t, hk, hreach, hexec⟩ := endsAsBigStep (decodeCommand_level hdec) (s := { s with inputs := [] }) rfl
  have hbound : k + 1 ≤ steppedBound s i := by cases i <;> exact hk
  refine ⟨k + 1, hbound, ?_⟩
  rw [hexec]
  exact reaches_succ ((step_presentStepped_of_idle hin ho).trans (startCommand_of_op hdec _)) hreach

/-! ### A reset between two operations -/

theorem resetCore_blk_length (s : State) : (resetCore s).blk.length = Config.uf2BlockLen := by
  rw [resetCore_blk]
  exact List.length_replicate

/-- A reset of an idle core touches no input of any operation (rule R30). -/
theorem sameInputs_resetCore (i : Instr) {s : State} (ho : s.op = .idle) : SameInputs i (resetCore s) s := by
  rw [resetCore_idle ho]
  cases i with
  | crc | patch => exact ⟨rfl, rfl⟩
  | encblk => exact ⟨rfl, rfl, rfl, rfl⟩
  | assemble => exact ⟨rfl, rfl, rfl⟩
  | crcSeed | crcLoad b | crcBit | crcByte b | crcSer | crcRun => trivial

/-- What a reset of an idle core sets, the end of an operation sets again. -/
theorem cleared_resetCore {s : State} (ho : s.op = .idle) : cleared (resetCore s) = cleared s := by
  rw [resetCore_idle ho]
  simp [cleared, ho, State.reset]

theorem hostDraws_resetCore (i : Instr) {s : State} (ho : s.op = .idle) :
    hostDraws i (resetCore s) = hostDraws i s := by
  rw [resetCore_idle ho]
  cases i <;> rfl

theorem stagedBytes_resetCore {s : State} (ho : s.op = .idle) (hblk : s.blk.length = Config.uf2BlockLen) :
    stagedBytes (resetCore s) = stagedBytes s := by
  obtain ⟨hsrc, hbase, _⟩ := sameInputs_resetCore .assemble ho
  rw [stagedBytes_eq (resetCore_blk_length s), stagedBytes_eq hblk, hsrc, hbase]

/-- A host operation after a reset of an idle core ends in the state it ends in without the reset (rule R30). -/
theorem exec_resetCore {i : Instr} (hi : i.level = .host) {s : State} (ho : s.op = .idle)
    (hblk : s.blk.length = Config.uf2BlockLen) : exec i (resetCore s) = exec i s := by
  have hres := hostResult_congr (resetCore_blk_length s) hblk hi (sameInputs_resetCore i ho)
  rw [exec_host_eq hi, exec_host_eq hi, hres]
  refine congrArg Host.Outcome.next (finish_congr _ ?_)
  have hbefore : ∀ t, cleared (beforeEnd i t) = { cleared t with
      op := operationOf i
      ioDraws := (beforeEnd i t).ioDraws
      art := (beforeEnd i t).art
      dst := (beforeEnd i t).dst } := fun _ => rfl
  rw [hbefore, hbefore, cleared_resetCore ho]
  simp only [beforeEnd, hres, hostDraws_resetCore i ho, stagedBytes_resetCore ho hblk, resetCore_ioDraws, resetCore_art,
    resetCore_dst]

theorem takeFault_resetCore (f : OpFault) {s : State} (ho : s.op = .idle) :
    takeFault f (resetCore s) = takeFault f s := finish_congr _ (cleared_resetCore ho)

theorem runCommand_resetCore (c : CmdWord) {s : State} (ho : s.op = .idle) (hblk : s.blk.length = Config.uf2BlockLen) :
    runCommand c (resetCore s) = runCommand c s := by
  unfold runCommand
  cases hdec : decodeCommand c with
  | op i => exact exec_resetCore (decodeCommand_level hdec) ho hblk
  | illegal e => exact congrArg Host.Outcome.next (takeFault_resetCore _ ho)

/-- A reset of an idle core and a host's write may be exchanged: they set different fields. -/
theorem hostWrite_resetCore (a : HostWrite) {s : State} (ho : s.op = .idle) :
    hostWrite a (resetCore s) = resetCore (hostWrite a s) := by
  rw [resetCore_idle ho, resetCore_idle ((hostWrite_op a s).trans ho)]
  cases a with
  | buffer b bs => cases b <;> rfl
  | copy source target => cases source <;> cases target <;> rfl
  | chunk bs | taddr v | blkno v | nblk v | base v | baseFlash | range run => rfl

theorem resetCore_withInputs {s : State} (ho : s.op = .idle) (rest : List Input) :
    resetCore { s with inputs := rest } = { resetCore s with inputs := rest } := by
  rw [resetCore_idle ho, resetCore_idle (s := { s with inputs := rest }) ho]

theorem hostWrite_withInputs (a : HostWrite) (s : State) (rest : List Input) :
    hostWrite a { s with inputs := rest } = { hostWrite a s with inputs := rest } := by
  cases a with
  | buffer b bs => cases b <;> rfl
  | copy source target => cases source <;> cases target <;> rfl
  | chunk bs | taddr v | blkno v | nblk v | base v | baseFlash | range run => rfl

/-- A reset, then a command word: what the word gives without the reset (rules R30, R163). -/
theorem step_reset_present {s : State} (ho : s.op = .idle) (hblk : s.blk.length = Config.uf2BlockLen) (c : CmdWord)
    (rest : List Input) : step (resetCore { s with inputs := .present c :: rest }) =
      step { s with inputs := .present c :: rest } := by
  rw [resetCore_withInputs ho, step_present_of_idle (s := { resetCore s with inputs := .present c :: rest }) rfl rfl,
    step_present_of_idle (s := { s with inputs := .present c :: rest }) rfl ho, ← resetCore_withInputs ho rest]
  exact runCommand_resetCore c ho hblk

/-- A reset, then an operation under the sequencer: the big step without the reset. -/
theorem run_reset_presentStepped {s : State} (ho : s.op = .idle) (hblk : s.blk.length = Config.uf2BlockLen)
    {c : CmdWord} {i : Instr} (hdec : decodeCommand c = .op i) (hin : s.inputs = [.reset, .presentStepped c]) :
    ∃ k, Host.Core.run Sys2Proof.core k s = exec i { s with inputs := [] } := by
  have hi := decodeCommand_level hdec
  obtain ⟨t, ht⟩ := execHost_answers { s with inputs := [] } hi
  obtain ⟨k, _, hrun⟩ := sequencedRunIsTheBigStep (resetCore { s with inputs := [.presentStepped c] }) c i rfl hdec
    (resetCore_inputs _)
  have hstate := resetCore_withInputs (s := { s with inputs := [.presentStepped c] }) ho []
  have hexec := (congrArg (exec i) hstate.symm).trans (exec_resetCore (s := { s with inputs := [] }) hi ho hblk)
  rw [ht]
  exact ⟨k + 1, reaches_succ (step_reset hin) (hrun.trans (hexec.trans ht))⟩

/-- A host's write on either side of a reset. -/
theorem hostWrite_reset_exchange (a : HostWrite) {s : State} (ho : s.op = .idle) (l l' rest : List Input) :
    resetCore { hostWrite a { s with inputs := l } with inputs := rest } =
      hostWrite a { resetCore { s with inputs := l' } with inputs := rest } :=
  calc resetCore { hostWrite a { s with inputs := l } with inputs := rest }
      = resetCore (hostWrite a { s with inputs := rest }) :=
        congrArg resetCore (hostWrite_withInputs a { s with inputs := l } rest).symm
    _ = hostWrite a (resetCore { s with inputs := rest }) :=
        (hostWrite_resetCore a (s := { s with inputs := rest }) ho).symm
    _ = hostWrite a { resetCore { s with inputs := l' } with inputs := rest } :=
        congrArg (hostWrite a) (resetCore_withInputs (s := { s with inputs := l' }) ho rest)

/-- Settles O55: a reset of an idle core sets nothing that an operation reads or a host's write writes. -/
theorem resetBetweenOperationsChangesNoResult : Obligations.ResetBetweenOperationsChangesNoResult := by
  intro s ho hblk
  refine ⟨fun c rest hin => ⟨_, step_reset hin, step_reset_present ho hblk c rest⟩,
    fun c i hin hdec => run_reset_presentStepped ho hblk hdec hin, fun a rest hin => ?_⟩
  have hwrite := step_write_of_idle (s := resetCore { s with inputs := .write a :: rest }) (resetCore_inputs _) rfl
  have hreset := step_reset (s := hostWrite a { s with inputs := .reset :: rest }) (by rw [hostWrite_withInputs])
  exact ⟨_, _, _, step_reset hin, hwrite, step_write_of_idle rfl ho,
    hreset.trans (congrArg Host.Outcome.next (hostWrite_reset_exchange a ho _ _ rest))⟩

end Sys2Proof.Machine
end
